-- ==== Sys2Proof/Word.lean ====
section
/-! DEFINITION. The word types of the VCE: 64-bit registers and elements (R8, R9), 8-bit bytes (R11). -/

namespace Sys2Proof

/-- A 64-bit register or element (R8, R9). -/
abbrev Word := BitVec 64

/-- A byte, values 0..255 (R11). -/
abbrev Byte := BitVec 8

end Sys2Proof
end

