-- ==== Sys2Proof/Config.lean ====
section
/-! DEFINITION. What a platform fixes (the parameters of R9, as plain data) and the values the spec leaves
open (opaque constants without a body: nothing can be proved of their value). -/

namespace Sys2Proof

/-- A contiguous range of addresses: `size` bytes from `base` upward, without wrap-around. -/
structure Range where
  base : Nat
  size : Nat
deriving DecidableEq, Repr

/-- One row (lo, hi, p) of a leSQLite bucket table (R191): first-byte codes `lo..hi`, `p` payload bytes. -/
structure BucketRow where
  lo : Nat
  hi : Nat
  p : Nat
deriving DecidableEq, Repr

/-- The implementation parameters of R9. `accessible` holds the predicate Accessible(a) as the ranges on which
it is true, and `sideEffects` the addresses of devices whose reads have side effects (R68). MEM_INIT is the
memory that `State.powerOn` is given. -/
structure Params where
  addrBits : Nat
  csrBase : Nat
  accessible : List Range
  sideEffects : List Range
  lesqliteTable : List BucketRow
  lesqlite2Table : List BucketRow
  nanologPad : Nat
  strictReset : Bool
deriving DecidableEq, Repr

namespace Config

/-- A 64-bit value the spec leaves open (R72, R46): the draw of this number. Log 4, log 7. -/
opaque freeWord : Nat → BitVec 64

/-- A byte the spec leaves open (R72, R310, R321 item 3): the draw of this number. Log 4, log 7, log 14, log 25. -/
opaque freeByte : Nat → BitVec 8

/-- A flag or latch bit the spec leaves open (R46): the draw of this number. Log 4. -/
opaque freeBit : Nat → Bool

/-- Which of the nine codes of R270 a raced command reports (R72). Log 7. -/
opaque freeErrCode : Nat → Fin 9

/-- The 7-bit shift register i.SH where it is unspecified (R43: 0..63). Log 4, log 7. -/
opaque freeShift : Nat → Fin 64

/-- The bytes of i.G where it is unspecified (R43). Log 4, log 7. -/
opaque freeGroup : Nat → List (BitVec 8)

/-- ERR_ADDR where the exact error address is 2^64 and so no 64-bit value, for which the spec states no result
(R13 says it never happens). A function of the error code, the latched operands and the progress reported,
because a command is a function of its inputs (R121). Log 8. -/
opaque errAddrPastTop (code : BitVec 8) (cmd src slen dst cap cnt progress : BitVec 64) : BitVec 64

end Config

end Sys2Proof
end

