-- ==== Sys2Proof/Machine/Buckets.lean ====
section
/-! DEFINITION. Bucket tables (R191 to R193), their legality (R192), the two default tables (R197, R221), the
parameters' legality (R10) and their defaults (R9). -/

namespace Sys2Proof

/-- The largest value of a row: Max(r) = ((hi − lo + 1) << 8·p) − 1 (R191). -/
def BucketRow.max (r : BucketRow) : Nat := ((r.hi - r.lo + 1) <<< (8 * r.p)) - 1

/-- A first byte selects this row (R193). -/
def BucketRow.holds (r : BucketRow) (b0 : Nat) : Bool := decide (r.lo ≤ b0) && decide (b0 ≤ r.hi)

/-- R192 items 1 and 3, on one row. -/
def BucketRow.legal (r : BucketRow) : Bool :=
  decide (r.lo ≤ r.hi) && decide (r.hi ≤ 255) && decide (r.p ≤ 8)
    && decide ((r.hi - r.lo + 1) <<< (8 * r.p) ≤ 2 ^ 64)

/-- The code ranges of two rows share no code (R192 item 2). -/
def BucketRow.disjoint (r r' : BucketRow) : Bool := decide (r.hi < r'.lo) || decide (r'.hi < r.lo)

/-- R192 items 2 and 4: every row against the rows after it. -/
def tableOrdered : List BucketRow → Bool
  | [] => true
  | r :: rest => rest.all (fun r' => r.disjoint r' && decide (r.max < r'.max)) && tableOrdered rest

/-- R192 item 5: the last row has Max = 2^64 − 1. -/
def tableLastFull (T : List BucketRow) : Bool :=
  match T.getLast? with
  | some r => decide (r.max = 2 ^ 64 - 1)
  | none => false

/-- R192 item 6: the first row has p = 0. -/
def tableFirstBare (T : List BucketRow) : Bool :=
  match T.head? with
  | some r => decide (r.p = 0)
  | none => false

/-- A legal bucket table (R191: non-empty; R192 items 1 to 6). -/
def tableLegal (T : List BucketRow) : Bool :=
  T.all BucketRow.legal && tableOrdered T && tableLastFull T && tableFirstBare T

/-- The row a first byte selects on decode, `none` for a reserved code (R193). -/
def rowOf (T : List BucketRow) (b0 : Nat) : Option BucketRow := T.find? (fun r => r.holds b0)

/-- The default LESQLITE_TABLE (R197). -/
def lesqliteDefault : List BucketRow :=
  [⟨0, 240, 0⟩, ⟨241, 248, 1⟩, ⟨249, 249, 2⟩, ⟨250, 250, 3⟩, ⟨251, 251, 5⟩, ⟨252, 252, 7⟩, ⟨253, 253, 8⟩]

/-- The default LESQLITE2_TABLE (R221). -/
def lesqlite2Default : List BucketRow :=
  [⟨0, 191, 0⟩, ⟨192, 239, 1⟩, ⟨240, 247, 2⟩, ⟨248, 248, 3⟩, ⟨249, 249, 4⟩, ⟨250, 250, 5⟩, ⟨251, 251, 6⟩,
    ⟨252, 252, 7⟩, ⟨253, 253, 8⟩]

/-- The address lies in the range. -/
def Range.has (r : Range) (a : Nat) : Bool := decide (r.base ≤ a) && decide (a < r.base + r.size)

/-- Two ranges share at least one address; an empty range shares none. -/
def Range.meets (r r' : Range) : Bool :=
  decide (0 < r.size) && decide (0 < r'.size) && decide (r.base < r'.base + r'.size)
    && decide (r'.base < r.base + r.size)

/-- `Accessible(a)` (R9, R60). -/
def Params.accessibleAt (p : Params) (a : Nat) : Bool := p.accessible.any (fun r => r.has a)

/-- The size of data memory, 2^ADDR_BITS bytes (R60). -/
def Params.memTop (p : Params) : Nat := 2 ^ p.addrBits

/-- Legal parameter values (R10). -/
def Params.legal (p : Params) : Bool :=
  decide (1 ≤ p.addrBits) && decide (p.addrBits ≤ 64) && tableLegal p.lesqliteTable
    && tableLegal p.lesqlite2Table && decide (p.nanologPad ≤ 15)

/-- The defaults of R9. CSR_BASE and Accessible are OPEN there: 0 and 'every address' here, and no device with
side effects (DESIGN CHOICE, unsafe for a statement about this value; log 1, log 9). -/
def Params.default : Params where
  addrBits := 64
  csrBase := 0
  accessible := [⟨0, 2 ^ 64⟩]
  sideEffects := []
  lesqliteTable := lesqliteDefault
  lesqlite2Table := lesqlite2Default
  nanologPad := 0
  strictReset := true

end Sys2Proof
end

