-- ==== Sys2Proof/Syntax.lean ====
section
/-! DEFINITION. The ten commands of VCE-1 (R93), the CSR names (R22), the accesses and turns of the step
semantics (R322), and the host assembly (R96, R97). -/

namespace Sys2Proof

/-- The five codecs, in the order of CMD.CODEC (R91). -/
inductive Codec
  | leb128
  | prefixVarint
  | lesqlite
  | lesqlite2
  | nanolog
deriving DecidableEq, Repr

/-- CMD.DIR (R91): encode (0) or decode (1). -/
inductive Dir
  | enc
  | dec
deriving DecidableEq, Repr

/-- The commands, one constructor per row of the opcode table (R93). No command has an operand field (R94). -/
inductive Instr
  | encLeb128
  | encPrefixVarint
  | encLesqlite
  | encLesqlite2
  | encNanolog
  | decLeb128
  | decPrefixVarint
  | decLesqlite
  | decLesqlite2
  | decNanolog
deriving DecidableEq, Repr

/-- The twelve CSRs by name (R22). -/
inductive CsrName
  | id
  | ctrl
  | status
  | cmd
  | srcAddr
  | srcLen
  | dstAddr
  | dstCap
  | count
  | resultBytes
  | resultCount
  | errAddr
deriving DecidableEq, Repr

/-- One access of the host, or of another bus agent: a CSR access at a host address with a width in bits (R23),
or a byte access of data memory (R322). -/
inductive Access
  | csrRead (addr width : Nat)
  | csrWrite (addr width : Nat) (v : Word)
  | memRead (a : Nat)
  | memWrite (a : Nat) (b : Byte)
deriving DecidableEq, Repr

/-- Who moves next, and with what (R322): the engine, the host's program, an access of any bus agent, reset. -/
inductive Turn
  | engine
  | host
  | bus (acc : Access)
  | reset
deriving DecidableEq, Repr

/-- An assembled statement of the host assembly (R96). Host variables are numbered; a label is the index of
its statement. -/
inductive HostStmt
  | csrw (r : CsrName) (v : Word)
  | csrr (t : Nat) (r : CsrName)
  | memw (a : Nat) (bs : List Byte)
  | memw64 (a : Nat) (vs : List Word)
  | bz (t k target : Nat)
  | halt
deriving DecidableEq, Repr

/-- A line of host assembly as written (R96, R97): labels by number, statements, pseudo-instructions.
The pseudo-instructions that poll name the variable they read STATUS into. -/
inductive HostLine
  | label (n : Nat)
  | csrw (r : CsrName) (v : Word)
  | csrr (t : Nat) (r : CsrName)
  | memw (a : Nat) (bs : List Byte)
  | memw64 (a : Nat) (vs : List Word)
  | bz (t k lbl : Nat)
  | halt
  | waitDone (t : Nat)
  | vceEnc (c : Codec) (src n dst cap : Word) (t : Nat)
  | vceDec (c : Codec) (src len dst cap n : Word) (t : Nat)
  | vceAck
deriving DecidableEq, Repr

end Sys2Proof
end

