-- ==== Sys2Proof/WellFormed.lean ====
section
/-! DEFINITION. Which terms are well formed: command words by field (R92), commands (R94), host statements (R96).
The legality of parameters and bucket tables (R10, R192) is in Machine/Buckets.lean. -/

namespace Sys2Proof

/-- The fields of a CMD64 word (R91). -/
structure CmdFields where
  codec : BitVec 4
  dir : BitVec 1
  rsvd : BitVec 59
deriving DecidableEq, Repr

/-- A legal command word: RSVD = 0 and CODEC ≤ 4 (R92). -/
def CmdFields.wellFormed (f : CmdFields) : Bool := decide (f.rsvd = 0) && decide (f.codec.toNat ≤ 4)

/-- A command carries no operand field (R94), so every command is well formed. -/
def Instr.wellFormed : Instr → Bool := fun _ => true

/-- A host statement in the form of R96: memw and memw64 write at least one byte or element, and bz tests a bit of
a 64-bit value (DEDUCED, log 23). -/
def HostStmt.wellFormed : HostStmt → Bool
  | .csrw _ _ => true
  | .csrr _ _ => true
  | .memw _ bs => !bs.isEmpty
  | .memw64 _ vs => !vs.isEmpty
  | .bz _ k _ => decide (k < 64)
  | .halt => true

end Sys2Proof
end

