-- ==== Sys2Proof/Decode.lean ====
section
/-! DEFINITION. The command word: decoding, total on any 64-bit word, and encoding (R90 to R95). -/

namespace Sys2Proof

/-- Why a command word is illegal (R92, R95). -/
inductive DecodeReject
  /-- w[63:5] ≠ 0. Safe: the word ends with BAD_COMMAND (R271). -/
  | reservedBits
  /-- w[3:0] in 5..15. Safe: the word ends with BAD_COMMAND (R271). -/
  | reservedCodec
deriving DecidableEq, Repr

/-- CODEC = w[3:0] (R91). -/
def codecField (w : Word) : BitVec 4 := w.extractLsb' 0 4

/-- DIR = w[4] (R91). -/
def dirField (w : Word) : BitVec 1 := w.extractLsb' 4 1

/-- RSVD = w[63:5] (R91). -/
def rsvdField (w : Word) : BitVec 59 := w.extractLsb' 5 59

/-- The three fields of a word (R91). -/
def fieldsOf (w : Word) : CmdFields := ⟨codecField w, dirField w, rsvdField w⟩

/-- A word from its fields (R91). -/
def wordOf (f : CmdFields) : Word := f.rsvd ++ f.dir ++ f.codec

/-- The direction a word selects, legal or not: w[4] (R91, R122). -/
def dirOf (w : Word) : Dir := if dirField w = 1 then .dec else .enc

/-- The codec of a CODEC value (R91); 5 to 15 are reserved. -/
def codecOf (c : BitVec 4) : Option Codec :=
  match c.toNat with
  | 0 => some .leb128
  | 1 => some .prefixVarint
  | 2 => some .lesqlite
  | 3 => some .lesqlite2
  | 4 => some .nanolog
  | _ => none

/-- The command of a codec and a direction (R93). -/
def instrOf (c : Codec) (d : Dir) : Instr :=
  match c, d with
  | .leb128, .enc => .encLeb128
  | .leb128, .dec => .decLeb128
  | .prefixVarint, .enc => .encPrefixVarint
  | .prefixVarint, .dec => .decPrefixVarint
  | .lesqlite, .enc => .encLesqlite
  | .lesqlite, .dec => .decLesqlite
  | .lesqlite2, .enc => .encLesqlite2
  | .lesqlite2, .dec => .decLesqlite2
  | .nanolog, .enc => .encNanolog
  | .nanolog, .dec => .decNanolog

/-- Decoding is total: one of the ten commands, or rejected by name (R92, R93). -/
def decode (w : Word) : Except DecodeReject Instr :=
  if rsvdField w = 0 then
    match codecOf (codecField w) with
    | some c => .ok (instrOf c (dirOf w))
    | none => .error .reservedCodec
  else .error .reservedBits

/-- The codec of a command (R93). -/
def Instr.codec : Instr → Codec
  | .encLeb128 | .decLeb128 => .leb128
  | .encPrefixVarint | .decPrefixVarint => .prefixVarint
  | .encLesqlite | .decLesqlite => .lesqlite
  | .encLesqlite2 | .decLesqlite2 => .lesqlite2
  | .encNanolog | .decNanolog => .nanolog

/-- The direction of a command (R93). -/
def Instr.dir : Instr → Dir
  | .encLeb128 | .encPrefixVarint | .encLesqlite | .encLesqlite2 | .encNanolog => .enc
  | .decLeb128 | .decPrefixVarint | .decLesqlite | .decLesqlite2 | .decNanolog => .dec

/-- The CODEC value of a codec (R91). -/
def codecNumber : Codec → BitVec 4
  | .leb128 => 0
  | .prefixVarint => 1
  | .lesqlite => 2
  | .lesqlite2 => 3
  | .nanolog => 4

/-- The DIR value of a direction (R91). -/
def dirNumber : Dir → BitVec 1
  | .enc => 0
  | .dec => 1

/-- The command word of a command (R91, R93). -/
def encode (i : Instr) : Word := wordOf ⟨codecNumber i.codec, dirNumber i.dir, 0⟩

/-- The command that the instruction of `nbits` bits `w` is, as the opcode table numbers its bits. A command word is
always 64 bits (R90) and is a register value, with no layout in memory (R77). -/
def decodeTableWord (nbits w : Nat) : Option Instr :=
  if w % 2 ^ nbits < 2 ^ 64 then (decode (BitVec.ofNat 64 (w % 2 ^ nbits))).toOption else none

end Sys2Proof
end

