-- ==== Sys2Proof/Machine/State.lean ====
section
/-! DEFINITION. The state of the VCE (R20): CSR file, engine state, data memory; the parameters; and the model's own
fields (whose turn it is, the host's program, the last host read, what the host may not yet rely on, the counter of free
draws). Plain data. -/

namespace Sys2Proof.Machine

/-- Data memory as its listed bytes, addresses strictly rising, none of them 0. An unlisted byte reads 0
(DESIGN CHOICE for MEM_INIT, unsafe; log 2). -/
abbrev Memory := List Host.Cell

/-- The engine's phase (R40). -/
inductive Phase
  | idle
  | run
deriving DecidableEq, Repr

/-- The error codes of R270; codes 9 to 255 are reserved and never produced. -/
inductive ErrCode
  | ok
  | badCommand
  | badRegion
  | overlap
  | bufferTooSmall
  | truncatedInput
  | malformedInput
  | countMismatch
  | busError
deriving DecidableEq, Repr

/-- The CSR file less what is constant or computed: ID (R24) and STATUS.BUSY (R40). -/
structure Csrs where
  /-- CTRL.IE (R25) -/
  ie : Bool
  /-- CTRL.STRICT (R25) -/
  strict : Bool
  /-- STATUS.DONE (R27) -/
  done : Bool
  /-- STATUS.DROP (R27) -/
  drop : Bool
  /-- STATUS.ERR (R27, R270) -/
  err : ErrCode
  /-- CMD (R29) -/
  cmd : Word
  /-- SRC_ADDR (R30) -/
  srcAddr : Word
  /-- SRC_LEN (R31) -/
  srcLen : Word
  /-- DST_ADDR (R32) -/
  dstAddr : Word
  /-- DST_CAP (R33) -/
  dstCap : Word
  /-- COUNT (R34) -/
  count : Word
  /-- RESULT_BYTES (R35) -/
  resultBytes : Word
  /-- RESULT_COUNT (R36) -/
  resultCount : Word
  /-- ERR_ADDR (R37) -/
  errAddr : Word
deriving DecidableEq, Repr

/-- The seven values latched at an accepted CMD write (R41): i.CMD, i.SRC, i.SLEN, i.DST, i.CAP, i.CNT, i.STRICT. -/
structure Latches where
  cmd : Word
  src : Word
  slen : Word
  dst : Word
  cap : Word
  cnt : Word
  strict : Bool
deriving DecidableEq, Repr

/-- The engine's internal state (R40 to R44). -/
structure Engine where
  /-- i.PHASE (R40) -/
  phase : Phase
  /-- the latches (R41) -/
  latch : Latches
  /-- i.RC, the read cursor (R42) -/
  rc : Word
  /-- i.WC, the write cursor (R42) -/
  wc : Word
  /-- i.EI, the element index (R42) -/
  ei : Word
  /-- i.ACC, the LEB128 accumulator (R43) -/
  acc : Word
  /-- i.SH, the LEB128 shift offset (R43) -/
  sh : BitVec 7
  /-- i.HDR, the NanoLog header latch (R43) -/
  hdr : Byte
  /-- i.P, the group read position (R43) -/
  p : Word
  /-- i.G, the bytes of the group being emitted or gathered (R43; log 15) -/
  g : List Byte
  /-- i.RACE (R44) -/
  race : Bool
deriving DecidableEq, Repr

/-- The host as an agent (R6): its assembled program (R96), its position, the byte writes of its current statement
still to do, its variables; and `rdata`, what the last host read returned (log 12, log 22). -/
structure HostSide where
  prog : List HostStmt
  pc : Nat
  pending : List Access
  vars : List (Nat × Word)
  rdata : Word
deriving DecidableEq, Repr

/-- The whole machine. -/
structure State where
  /-- the CSR file (R22) -/
  csr : Csrs
  /-- the engine (R40 to R44) -/
  eng : Engine
  /-- data memory (R60) -/
  mem : Memory
  /-- the parameters (R9); no step changes them -/
  params : Params
  /-- the host -/
  host : HostSide
  /-- the destination regions of the commands that have completed since a host read of STATUS last returned DONE = 1: a
  host read of their bytes returns any value until one does (R74, R321 item 3; log 25) -/
  unseen : List Range
  /-- which agent moves next (R322), the first first; when it is empty the order is `defaultTurn`'s (log 5) -/
  turns : List Turn
  /-- how many free values have been drawn (log 17) -/
  draws : Nat
deriving DecidableEq, Repr

/-- What stops the machine. -/
inductive Fault
  /-- Raised by a host or other bus agent's data-memory access at an address at or above 2^ADDR_BITS: R60 gives
  data memory no such byte. Safe: the model stops where a platform might go on (log 11). -/
  | noSuchAddress (a : Nat)
deriving DecidableEq, Repr

/-- What has no meaning. -/
inductive Refusal
  /-- Raised by an arm of `exec` that has no meaning yet; no arm uses it. Safe. -/
  | notModelled (mnemonic : String)
  /-- Raised by every step and every command under an illegal parameter value: R10 'gives no meaning to the
  commands'. Safe (log 19). -/
  | illegalParameters
deriving DecidableEq, Repr

/-- The CSR file after reset (R22, R310, R311). -/
def Csrs.reset (strictReset : Bool) : Csrs where
  ie := false
  strict := strictReset
  done := false
  drop := false
  err := .ok
  cmd := 0
  srcAddr := 0
  srcLen := 0
  dstAddr := 0
  dstCap := 0
  count := 0
  resultBytes := 0
  resultCount := 0
  errAddr := 0

/-- The engine after the first reset: idle, no race (R46). The other registers are unspecified there; this value of
them is a DESIGN CHOICE, unsafe (log 3). -/
def Engine.reset : Engine where
  phase := .idle
  latch := { cmd := 0, src := 0, slen := 0, dst := 0, cap := 0, cnt := 0, strict := false }
  rc := 0
  wc := 0
  ei := 0
  acc := 0
  sh := 0
  hdr := 0
  p := 0
  g := []
  race := false

/-- A host without a program (log 12). -/
def HostSide.reset : HostSide where
  prog := []
  pc := 0
  pending := []
  vars := []
  rdata := 0

/-- The machine right after its first reset since power-on (R310 to R312), built with parameters `p` (R9) over a
data memory that holds `mem`, the platform's MEM_INIT (R61). -/
def State.powerOn (p : Params) (mem : Memory) : State where
  csr := Csrs.reset p.strictReset
  eng := Engine.reset
  mem := mem
  params := p
  host := HostSide.reset
  unseen := []
  turns := []
  draws := 0

/-- The machine right after reset under the default parameters (R9, R311), with nothing listed in memory
(log 1, log 2). -/
def State.reset : State := State.powerOn Params.default []

end Sys2Proof.Machine
end

