-- ==== Sys2Proof/Machine/Bytes.lean ====
section
/-! DEFINITION. The shared bit-packing primitives (R14, R135 to R138) and the byte operations of data memory. -/

namespace Sys2Proof.Machine

/-- `bytes_n(v)`: the n low-order bytes of v, least significant first (R14, R138). -/
def bytesLE : Nat → Nat → List Byte
  | 0, _ => []
  | n + 1, v => BitVec.ofNat 8 v :: bytesLE n (v / 256)

/-- `LE(b_0, ..., b_{n-1})`, 0 for no bytes (R14, R138). -/
def leNat : List Byte → Nat
  | [] => 0
  | b :: bs => b.toNat + 256 * leNat bs

/-- `ByteLen(v)`: 1 for 0, else ceil((h + 1) / 8) for h the index of the highest set bit (R135). -/
def byteLen (v : Nat) : Nat := if v = 0 then 1 else (Nat.log2 v + 8) / 8

/-- The number of consecutive one bits of n from bit 0 upward, at most k of them. -/
def trailingOnes : Nat → Nat → Nat
  | 0, _ => 0
  | k + 1, n => if n % 2 = 1 then 1 + trailingOnes k (n / 2) else 0

/-- `TrailingOnes8(b)`, 0 to 8 (R136). -/
def trailingOnes8 (b : Byte) : Nat := trailingOnes 8 b.toNat

/-- `PackNibbles(hi, lo) = (hi << 4) | lo`, 8 bits (R137). -/
def packNibbles (hi lo : Nat) : Byte := BitVec.ofNat 8 ((hi <<< 4) ||| lo)

/-- `HiNib(B) = B[7:4]` (R137). -/
def hiNib (b : Byte) : Nat := b.toNat / 16

/-- `LoNib(B) = B[3:0]` (R137). -/
def loNib (b : Byte) : Nat := b.toNat % 16

/-- What an address with no listed byte reads as: the model's MEM_INIT (DESIGN CHOICE, unsafe; log 2). -/
def Memory.initByte : Byte := 0

/-- The byte at an address. -/
def Memory.read : Memory → Nat → Byte
  | [], _ => Memory.initByte
  | (k, b) :: rest, a => if a = k then b else Memory.read rest a

/-- Lists `b` at `a` in rising order, or drops the entry where `b` is what an unlisted address reads as. -/
def Memory.write : Memory → Nat → Byte → Memory
  | [], a, b => if b = Memory.initByte then [] else [(a, b)]
  | (k, c) :: rest, a, b =>
    if a < k then (if b = Memory.initByte then (k, c) :: rest else (a, b) :: (k, c) :: rest)
    else if a = k then (if b = Memory.initByte then rest else (k, b) :: rest)
    else (k, c) :: Memory.write rest a b

/-- Writes the bytes at consecutive addresses from `a`, in rising order. -/
def Memory.writeBytes : Memory → Nat → List Byte → Memory
  | m, _, [] => m
  | m, a, b :: bs => Memory.writeBytes (m.write a b) (a + 1) bs

/-- The n bytes from `a` upward. -/
def Memory.readBytes : Memory → Nat → Nat → List Byte
  | _, _, 0 => []
  | m, a, n + 1 => m.read a :: Memory.readBytes m (a + 1) n

/-- Element e of an integer sequence at base `a` (R63). -/
def Memory.element (m : Memory) (a e : Nat) : Word := BitVec.ofNat 64 (leNat (m.readBytes (a + 8 * e) 8))

/-- The bytes of an integer sequence in memory (R63): 8 bytes per element, little-endian, in order. -/
def elementBytes : List Word → List Byte
  | [] => []
  | v :: vs => bytesLE 8 v.toNat ++ elementBytes vs

/-- Every listed address is above `lo`, strictly rising, and no listed byte is what an unlisted address reads as. -/
def Memory.wfFrom : Option Nat → Memory → Bool
  | _, [] => true
  | lo, (k, b) :: rest =>
    (match lo with
      | none => true
      | some l => decide (l < k))
    && decide (b ≠ Memory.initByte) && Memory.wfFrom (some k) rest

/-- The canonical form of memory. -/
def Memory.wf (m : Memory) : Bool := Memory.wfFrom none m

/-- Every listed address is an address of data memory (R60). -/
def Memory.inSpace (m : Memory) (top : Nat) : Bool := m.all (fun c => decide (c.1 < top))

/-- Puts a free byte at each of the n addresses from `a`: the draws `k`, `k + 1`, ... (R72, R310). -/
def Memory.scramble : Memory → Nat → Nat → Nat → Memory
  | m, _, 0, _ => m
  | m, a, n + 1, k => Memory.scramble (m.write a (Config.freeByte k)) (a + 1) n (k + 1)

end Sys2Proof.Machine
end

