-- ==== Sys2Proof/Machine/Flags.lean ====
section
/-! DEFINITION. The status and control words, the error codes and the interrupt output (R24 to R28, R39, R45, R270). -/

namespace Sys2Proof.Machine

/-- The numeric code of STATUS.ERR (R270). -/
def errNumber : ErrCode → Nat
  | .ok => 0
  | .badCommand => 1
  | .badRegion => 2
  | .overlap => 3
  | .bufferTooSmall => 4
  | .truncatedInput => 5
  | .malformedInput => 6
  | .countMismatch => 7
  | .busError => 8

/-- The code of a number 0 to 8 (R270). -/
def errOfNumber (n : Nat) : ErrCode :=
  match n with
  | 0 => .ok
  | 1 => .badCommand
  | 2 => .badRegion
  | 3 => .overlap
  | 4 => .bufferTooSmall
  | 5 => .truncatedInput
  | 6 => .malformedInput
  | 7 => .countMismatch
  | _ => .busError

/-- A bit as a number. -/
def bitNat (b : Bool) : Nat := if b then 1 else 0

/-- STATUS.BUSY = 1 exactly when i.PHASE = RUN (R40). -/
def State.busy (s : State) : Bool := decide (s.eng.phase = .run)

/-- The ID constant: MAGIC, CODECS, REV (R24). -/
def idWord : Word := 0x56434531001F0001

/-- CTRL as read: IE in bit 0, STRICT in bit 1, the rest 0 (R25). -/
def ctrlWord (c : Csrs) : Word := BitVec.ofNat 64 (bitNat c.ie + 2 * bitNat c.strict)

/-- CTRL as written: bits 63:2 ignored (R25). -/
def writeCtrl (c : Csrs) (w : Word) : Csrs := { c with ie := w.getLsbD 0, strict := w.getLsbD 1 }

/-- STATUS as read: BUSY, DONE, DROP in bits 0 to 2, ERR in bits 15:8, the rest 0 (R27). -/
def statusWord (s : State) : Word :=
  BitVec.ofNat 64 (bitNat s.busy + 2 * bitNat s.csr.done + 4 * bitNat s.csr.drop + 256 * errNumber s.csr.err)

/-- STATUS as written: a 1 in bit 1 clears DONE, a 1 in bit 2 clears DROP, no other bit changes (R28). This is the
host's acknowledgement of a completion, with or without error (R283). -/
def writeStatus (c : Csrs) (w : Word) : Csrs :=
  { c with done := c.done && !w.getLsbD 1, drop := c.drop && !w.getLsbD 2 }

/-- The interrupt output: the level CTRL.IE & STATUS.DONE (R39, R281). -/
def State.irq (s : State) : Bool := s.csr.ie && s.csr.done

end Sys2Proof.Machine
end

