-- ==== Sys2Proof/Machine/Operands.lean ====
section
/-! DEFINITION. The operands of a command: the CSR map (R22), the latches (R41) and the two regions (R122). -/

namespace Sys2Proof.Machine

/-- The offset of a CSR in its window (R22). -/
def csrOffset : CsrName → Nat
  | .id => 0x00
  | .ctrl => 0x08
  | .status => 0x10
  | .cmd => 0x18
  | .srcAddr => 0x20
  | .srcLen => 0x28
  | .dstAddr => 0x30
  | .dstCap => 0x38
  | .count => 0x40
  | .resultBytes => 0x48
  | .resultCount => 0x50
  | .errAddr => 0x58

/-- All CSRs, in offset order (R22). -/
def csrNames : List CsrName :=
  [.id, .ctrl, .status, .cmd, .srcAddr, .srcLen, .dstAddr, .dstCap, .count, .resultBytes, .resultCount, .errAddr]

/-- The CSR at an offset; `none` for a reserved or misaligned offset (R22, R23). -/
def csrAt (off : Nat) : Option CsrName := csrNames.find? (fun n => decide (csrOffset n = off))

/-- The CSR a host access of this address and width (in bits) reaches: only 64-bit accesses at a multiple of 8
inside the window of 256 bytes reach one (R22, R23). -/
def csrReached (p : Params) (addr width : Nat) : Option CsrName :=
  if width = 64 ∧ p.csrBase ≤ addr ∧ addr < p.csrBase + 256 then csrAt (addr - p.csrBase) else none

/-- The value a CSR reads as (R22 to R37). -/
def csrValue (s : State) : CsrName → Word
  | .id => idWord
  | .ctrl => ctrlWord s.csr
  | .status => statusWord s
  | .cmd => s.csr.cmd
  | .srcAddr => s.csr.srcAddr
  | .srcLen => s.csr.srcLen
  | .dstAddr => s.csr.dstAddr
  | .dstCap => s.csr.dstCap
  | .count => s.csr.count
  | .resultBytes => s.csr.resultBytes
  | .resultCount => s.csr.resultCount
  | .errAddr => s.csr.errAddr

/-- What an accepted write of `w` to CMD latches (R41, R120). -/
def latchOperands (c : Csrs) (w : Word) : Latches where
  cmd := w
  src := c.srcAddr
  slen := c.srcLen
  dst := c.dstAddr
  cap := c.dstCap
  cnt := c.count
  strict := c.strict

/-- The source region SR: COUNT elements for an encode, the encoded buffer for a decode (R122). -/
def srcRegion (d : Dir) (l : Latches) : Range :=
  match d with
  | .enc => ⟨l.src.toNat, 8 * l.cnt.toNat⟩
  | .dec => ⟨l.src.toNat, l.slen.toNat⟩

/-- The destination region DR (R122). -/
def dstRegion (l : Latches) : Range := ⟨l.dst.toNat, l.cap.toNat⟩

/-- A region touches a device whose reads have side effects (R68, log 9). -/
def touchesDevice (p : Params) (d : Dir) (l : Latches) : Bool :=
  p.sideEffects.any (fun r => r.meets (srcRegion d l) || r.meets (dstRegion l))

end Sys2Proof.Machine
end

