-- ==== Sys2Proof/Machine/Ops.lean ====
section
/-! DEFINITION. The operations every command is written in: the memory and cursor primitives (R16, R125 to R129), the
start of a command (R120), its start checks (R123), its completion and its error end (R130, R131, R282), the outcome
of a race (R72), and reset (R310). -/

namespace Sys2Proof.Machine

/-- What a running command may change: the engine's registers and data memory (R45, R70). -/
structure Work where
  eng : Engine
  mem : Memory
deriving DecidableEq, Repr

/-- The result of a piece of a command: it goes on with a value, or `raise Error(code, addr)` has ended it (R16, R131).
The address is exact (R143). -/
inductive Res (α : Type) where
  | ok (a : α) (w : Work)
  | raise (code : ErrCode) (addr : Nat) (w : Work)

/-- Goes on with `f` unless an error has been raised: nothing after a raise runs (R16). -/
def Res.bind {α β : Type} (x : Res α) (f : α → Work → Res β) : Res β :=
  match x with
  | .ok a w => f a w
  | .raise c a w => .raise c a w

/-- The command of the engine's latch (R41); the command word reaches the engine by no other way (R77). -/
def fetchCommand (s : State) : Word := s.eng.latch.cmd

/-! ### Memory primitives (R16) -/

/-- Reads one byte of data memory, or raises BUS_ERROR at it (R16, R278). -/
def busRead (p : Params) (a : Nat) (w : Work) : Res Byte :=
  if p.accessibleAt a then .ok (w.mem.read a) w else .raise .busError a w

/-- `MemRead(a, n)` as its list of bytes: in rising order, stopping at the lowest failing address (R16). -/
def busReads (p : Params) : Nat → Nat → Work → Res (List Byte)
  | _, 0, w => .ok [] w
  | a, n + 1, w =>
    (busRead p a w).bind fun b w => (busReads p (a + 1) n w).bind fun bs w => .ok (b :: bs) w

/-- `MemWrite` of the bytes at `a` upward: the bytes before a failing address are written, that byte and the bytes
after it are not (R16, R278). -/
def busWrites (p : Params) : Nat → List Byte → Work → Res Unit
  | _, [], w => .ok () w
  | a, b :: bs, w =>
    if p.accessibleAt a then busWrites p (a + 1) bs { w with mem := w.mem.write a b }
    else .raise .busError a w

/-! ### Cursor primitives (R125 to R129) -/

/-- The start of a decode group: i.P takes i.RC (R43, R133), and i.G is emptied (log 15). -/
def startGroup (w : Work) : Work := { w with eng := { w.eng with p := w.eng.rc, g := [] } }

/-- `RdByte()` (R125); the byte joins the group gathered in i.G (R43, log 15). -/
def rdByte (p : Params) (w : Work) : Res Byte :=
  if w.eng.latch.slen ≤ w.eng.p then
    .raise .truncatedInput (w.eng.latch.src.toNat + w.eng.latch.slen.toNat) w
  else
    (busRead p (w.eng.latch.src.toNat + w.eng.p.toNat) w).bind fun b w =>
      .ok b { w with eng := { w.eng with p := w.eng.p + 1, g := w.eng.g ++ [b] } }

/-- `RdBytes(n)` (R126). -/
def rdBytes (p : Params) : Nat → Work → Res (List Byte)
  | 0, w => .ok [] w
  | n + 1, w => (rdByte p w).bind fun b w => (rdBytes p n w).bind fun bs w => .ok (b :: bs) w

/-- Raises MALFORMED_INPUT at the byte read last, i.SRC + i.P − 1 (R276). -/
def raiseMalformed {α : Type} (w : Work) : Res α :=
  .raise .malformedInput (w.eng.latch.src.toNat + w.eng.p.toNat - 1) w

/-- `EmitGroup(g)`: the capacity check before any byte of the group, then the bytes, then i.WC (R127). -/
def emitGroup (p : Params) (g : List Byte) (w : Work) : Res Unit :=
  if w.eng.latch.cap.toNat < w.eng.wc.toNat + g.length then
    .raise .bufferTooSmall (w.eng.latch.dst.toNat + w.eng.wc.toNat) { w with eng := { w.eng with g := g } }
  else
    (busWrites p (w.eng.latch.dst.toNat + w.eng.wc.toNat) g { w with eng := { w.eng with g := g } }).bind
      fun _ w => .ok () { w with eng := { w.eng with wc := BitVec.ofNat 64 (w.eng.wc.toNat + g.length) } }

/-- `ReadElem(e)` (R128, R63). -/
def readElem (p : Params) (e : Nat) (w : Work) : Res Word :=
  (busReads p (w.eng.latch.src.toNat + 8 * e) 8 w).bind fun bs w => .ok (BitVec.ofNat 64 (leNat bs)) w

/-- `StoreElem(e, v)` (R129, R63). -/
def storeElem (p : Params) (e : Nat) (v : Word) (w : Work) : Res Unit :=
  busWrites p (w.eng.latch.dst.toNat + 8 * e) (bytesLE 8 v.toNat) w

/-- i.EI takes the number of elements completed (R42). -/
def setElements (n : Nat) (w : Work) : Work := { w with eng := { w.eng with ei := BitVec.ofNat 64 n } }

/-- i.RC takes i.P: the group is complete (R43, R133). -/
def commitGroup (w : Work) : Work := { w with eng := { w.eng with rc := w.eng.p } }

/-! ### Start of a command -/

/-- The accepted CMD write of `w` (R120). STATUS.DROP is unchanged. -/
def startCommand (w : Word) (s : State) : State :=
  { s with
    csr := { s.csr with
      cmd := w, done := false, err := .ok, resultBytes := 0, resultCount := 0, errAddr := 0 }
    eng := { s.eng with
      phase := .run, latch := latchOperands s.csr w, rc := 0, wc := 0, ei := 0, race := false } }

/-- The dropped CMD write: only STATUS.DROP records it (R124). -/
def dropCommand (s : State) : State := { s with csr := { s.csr with drop := true } }

/-- A region runs past the top of data memory; an empty region never does (R123, R272; log 24). -/
def pastTop (p : Params) (r : Range) : Bool := decide (0 < r.size) && decide (p.memTop < r.base + r.size)

/-- The start checks, in their order, before any memory access (R123). `legal` says whether the command word is
(R92), and `d` is its direction. -/
def startChecks (p : Params) (legal : Bool) (d : Dir) (w : Work) : Res Unit :=
  let l := w.eng.latch
  let sr := srcRegion d l
  let dr := dstRegion l
  if legal = false then .raise .badCommand 0 w
  else if pastTop p sr then .raise .badRegion sr.base w
  else if pastTop p dr then .raise .badRegion dr.base w
  else if sr.meets dr then .raise .overlap dr.base w
  else if d = .dec ∧ l.cap.toNat < 8 * l.cnt.toNat then .raise .bufferTooSmall dr.base w
  else .ok () w

/-! ### End of a command -/

/-- What RESULT_BYTES reports: i.WC for an encode, i.RC for a decode (R130). -/
def progressBytes (d : Dir) (e : Engine) : Word :=
  match d with
  | .enc => e.wc
  | .dec => e.rc

/-- ERR_ADDR for an exact address. Where that address is 2^64 or more the spec states no 64-bit value: it is free
there (log 8). -/
def errAddrWord (d : Dir) (code : ErrCode) (addr : Nat) (e : Engine) : Word :=
  if addr < 2 ^ 64 then BitVec.ofNat 64 addr
  else Config.errAddrPastTop (BitVec.ofNat 8 (errNumber code)) e.latch.cmd e.latch.src e.latch.slen e.latch.dst
    e.latch.cap e.latch.cnt (progressBytes d e)

/-- `Complete(code, addr)`: the one completion step of every command, and the entry an error takes (R130, R131,
R282). The host may not yet rely on the destination region (R74, R321 item 3; log 25). -/
def complete (d : Dir) (code : ErrCode) (addr : Nat) (s : State) : State :=
  { s with
    csr := { s.csr with
      resultBytes := progressBytes d s.eng
      resultCount := s.eng.ei
      errAddr := errAddrWord d code addr s.eng
      err := code
      done := true }
    eng := { s.eng with phase := .idle }
    unseen := dstRegion s.eng.latch :: s.unseen }

/-- The state a command's work leaves, its memory writes performed before its completion (R74, R130). -/
def withWork (w : Work) (s : State) : State := { s with eng := w.eng, mem := w.mem }

/-- Ends a command with its outcome: `Complete(OK, 0)`, or the error end (R130, R131). -/
def finish (d : Dir) (r : Res Unit) (s : State) : State :=
  match r with
  | .ok _ w => complete d .ok 0 (withWork w s)
  | .raise c a w => complete d c a (withWork w s)

/-- What the host does to return from a completion, with or without error: it writes 2 to STATUS (R283, R97 vce.ack). -/
def acknowledge (s : State) : State := { s with csr := writeStatus s.csr 2 }

/-! ### Values left open -/

/-- The cursors and datapath registers at draws `k` to `k + 7`: unspecified (R46, R72). -/
def freeWorking (k : Nat) (e : Engine) : Engine :=
  { e with
    rc := Config.freeWord k
    wc := Config.freeWord (k + 1)
    ei := Config.freeWord (k + 2)
    acc := Config.freeWord (k + 3)
    sh := BitVec.ofNat 7 (Config.freeShift k).val
    hdr := BitVec.ofNat 8 (Config.freeWord (k + 4)).toNat
    p := Config.freeWord (k + 5)
    g := (Config.freeGroup k).take 17 }

/-- The latches at draws `k` to `k + 5`: unspecified (R46). -/
def freeLatches (k : Nat) : Latches where
  cmd := Config.freeWord k
  src := Config.freeWord (k + 1)
  slen := Config.freeWord (k + 2)
  dst := Config.freeWord (k + 3)
  cap := Config.freeWord (k + 4)
  cnt := Config.freeWord (k + 5)
  strict := Config.freeBit k

/-- How many bytes of the destination region data memory has: the region less what lies past its top (log 21). -/
def dstBytes (p : Params) (l : Latches) : Nat := min l.cap.toNat (p.memTop - l.dst.toNat)

/-- Memory with every byte of the destination region free, from draw `k` (R72, R310). -/
def scrambleDst (p : Params) (l : Latches) (k : Nat) (m : Memory) : Memory :=
  m.scramble l.dst.toNat (dstBytes p l) k

/-- A running command is raced: another agent wrote a byte of its regions (R72), or a region touches a device
whose reads have side effects, which a model treats as a race (R68). For a device i.RACE itself stays as it is (log 9). -/
def State.raced (d : Dir) (s : State) : Bool := s.eng.race || touchesDevice s.params d s.eng.latch

/-- The completion of a raced command: every byte of the destination region, STATUS.ERR (one of the codes), and the
three results are free; no byte outside the region changes; DONE is set (R72). The engine's cursors and datapath are
free with them (log 7). -/
def completeRaced (s : State) : State :=
  { s with
    csr := { s.csr with
      resultBytes := Config.freeWord s.draws
      resultCount := Config.freeWord (s.draws + 1)
      errAddr := Config.freeWord (s.draws + 2)
      err := errOfNumber (Config.freeErrCode s.draws).val
      done := true }
    eng := { freeWorking (s.draws + 3) s.eng with phase := .idle }
    mem := scrambleDst s.params s.eng.latch s.draws s.mem
    unseen := dstRegion s.eng.latch :: s.unseen
    draws := s.draws + 16 + dstBytes s.params s.eng.latch }

/-- One whole command, at its completion (R121, R322; log 6): the start checks, the codec's loop, the completion. -/
def runCommand (legal : Bool) (d : Dir) (body : Params → Work → Res Unit) (s : State) :
    Host.Outcome State Fault Refusal :=
  if s.params.legal = false then .refused .illegalParameters
  else if s.raced d then .next (completeRaced s)
  else .next (finish d
    ((startChecks s.params legal d ⟨s.eng, s.mem⟩).bind fun _ w => body s.params w) s)

/-- An illegal command word: BAD_COMMAND, by the same start checks (R92, R271). -/
def execIllegal (s : State) : Host.Outcome State Fault Refusal :=
  runCommand false (dirOf (fetchCommand s)) (fun _ w => .ok () w) s

/-! ### Reset -/

/-- The memory reset leaves: an abandoned command's destination region is free, every other byte unchanged (R310). -/
def resetMemory (s : State) : Memory :=
  match s.eng.phase with
  | .idle => s.mem
  | .run => scrambleDst s.params s.eng.latch s.draws s.mem

/-- `Reset()` (R310): every CSR to its reset value, PHASE and RACE as R46 says, the engine's other registers
unspecified (free; log 4). The host, what it may rely on (log 25) and the parameters are not in the reset domain. -/
def resetStep (s : State) : State :=
  { s with
    csr := Csrs.reset s.params.strictReset
    eng := { freeWorking s.draws s.eng with phase := .idle, latch := freeLatches (s.draws + 8), race := false }
    mem := resetMemory s
    draws := s.draws + 16 + dstBytes s.params s.eng.latch }

end Sys2Proof.Machine
end

