-- ==== Sys2Proof/Machine/HostAccess.lean ====
section
/-! DEFINITION. What the host and other bus agents do to the VCE: CSR accesses (R22 to R38, R124, R287), byte accesses of
data memory (R60, R72), and one statement of the host's program (R96). -/

namespace Sys2Proof.Machine

/-- What a CSR read returns; it has no side effect, and reads 0 where it reaches no CSR (R23; log 10). -/
def csrRead (s : State) (addr width : Nat) : Word :=
  match csrReached s.params addr width with
  | some n => csrValue s n
  | none => 0

/-- The host's reads of memory after this CSR read see every byte the completed commands wrote: it is a read of STATUS
that returns DONE = 1 (R74). -/
def acquires (s : State) (addr width : Nat) : Bool :=
  decide (csrReached s.params addr width = some .status) && s.csr.done

/-- What a CSR read leaves unseen (R74, R321 item 3; log 25). -/
def unseenAfterRead (s : State) (addr width : Nat) : List Range := if acquires s addr width then [] else s.unseen

/-- A host CSR read: nothing of the VCE changes (R23), the host receives the value (log 22), and a read of DONE = 1 is its
acquire (R74; log 25). -/
def readCsr (addr width : Nat) (s : State) : State :=
  { s with host := { s.host with rdata := csrRead s addr width }, unseen := unseenAfterRead s addr width }

/-- A CMD write: accepted while idle, dropped while a command runs (R29, R120, R124). -/
def writeCmd (v : Word) (s : State) : State :=
  match s.eng.phase with
  | .idle => startCommand v s
  | .run => dropCommand s

/-- A write of a CSR by name (R25 to R38); a read-only one is unchanged (R23). -/
def writeCsr (n : CsrName) (v : Word) (s : State) : State :=
  match n with
  | .id => s
  | .ctrl => { s with csr := writeCtrl s.csr v }
  | .status => { s with csr := writeStatus s.csr v }
  | .cmd => writeCmd v s
  | .srcAddr => { s with csr := { s.csr with srcAddr := v } }
  | .srcLen => { s with csr := { s.csr with srcLen := v } }
  | .dstAddr => { s with csr := { s.csr with dstAddr := v } }
  | .dstCap => { s with csr := { s.csr with dstCap := v } }
  | .count => { s with csr := { s.csr with count := v } }
  | .resultBytes => s
  | .resultCount => s
  | .errAddr => s

/-- A host CSR write; one that reaches no CSR changes nothing (R23; log 10). -/
def csrWrite (addr width : Nat) (v : Word) (s : State) : State :=
  match csrReached s.params addr width with
  | some n => writeCsr n v s
  | none => s

/-- An address lies in the running command's source or destination region (R44, R122). -/
def inRegions (s : State) (a : Nat) : Bool :=
  (srcRegion (dirOf (fetchCommand s)) s.eng.latch).has a || (dstRegion s.eng.latch).has a

/-- A host write of a byte of data memory; in a region of the running command it sets i.RACE (R44, R72). -/
def memWrite (a : Nat) (b : Byte) (s : State) : State :=
  { s with
    mem := s.mem.write a b
    eng := { s.eng with race := s.eng.race || (s.busy && inRegions s a) } }

/-- A host read of this byte returns any value: it is a destination byte of the running command (R72), or of a completed
one and the host has not read STATUS with DONE = 1 since (R321 item 3; log 25). -/
def readIsFree (s : State) (a : Nat) : Bool :=
  (s.busy && (dstRegion s.eng.latch).has a) || s.unseen.any (fun r => r.has a)

/-- A host read of a byte of data memory: the byte, or any value where the host may not rely on it (R72, R74, R321 item 3;
log 14, log 25). -/
def memRead (a : Nat) (s : State) : State :=
  if readIsFree s a then
    { s with
      host := { s.host with rdata := BitVec.ofNat 64 (Config.freeByte s.draws).toNat }
      draws := s.draws + 1 }
  else { s with host := { s.host with rdata := BitVec.ofNat 64 (s.mem.read a).toNat } }

/-- One access of the host or of another bus agent, applied whole (R322). An address data memory does not have is a
fault (R60; log 11). -/
def access (acc : Access) (s : State) : Host.Outcome State Fault Refusal :=
  match acc with
  | .csrRead addr width => .next (readCsr addr width s)
  | .csrWrite addr width v => .next (csrWrite addr width v s)
  | .memRead a => if a < s.params.memTop then .next (memRead a s) else .fault (.noSuchAddress a)
  | .memWrite a b => if a < s.params.memTop then .next (memWrite a b s) else .fault (.noSuchAddress a)

/-! ### The host's program -/

/-- A host variable; one never read into holds 0 (log 12). -/
def getVar : List (Nat × Word) → Nat → Word
  | [], _ => 0
  | (k, v) :: rest, t => if t = k then v else getVar rest t

/-- Sets a host variable, the list in rising order. -/
def setVar : List (Nat × Word) → Nat → Word → List (Nat × Word)
  | [], t, v => [(t, v)]
  | (k, u) :: rest, t, v =>
    if t < k then (t, v) :: (k, u) :: rest
    else if t = k then (k, v) :: rest
    else (k, u) :: setVar rest t v

/-- The byte writes of a `memw` (R96). -/
def byteWrites : Nat → List Byte → List Access
  | _, [] => []
  | a, b :: bs => .memWrite a b :: byteWrites (a + 1) bs

/-- The host address of a CSR, CSR_BASE + offset (R96). -/
def csrAddress (p : Params) (r : CsrName) : Nat := p.csrBase + csrOffset r

/-- The host's program has a statement or a byte write left. -/
def hostActive (s : State) : Bool := !s.host.pending.isEmpty || decide (s.host.pc < s.host.prog.length)

/-- The host goes on with its next statement. -/
def nextStatement (s : State) : State := { s with host := { s.host with pc := s.host.pc + 1 } }

/-- A value read goes into a host variable (R96). -/
def setHostVar (t : Nat) (v : Word) (s : State) : State :=
  { s with host := { s.host with vars := setVar s.host.vars t v } }

/-- The byte writes of a `memw` or `memw64` become the host's next accesses (R96). -/
def queueWrites (accs : List Access) (s : State) : State := { s with host := { s.host with pending := accs } }

/-- One statement of the host's program (R96): a CSR access, the start of its byte writes, or a host-internal
step. `bz` goes to its label when the bit is 0; `halt` ends the program. -/
def hostStatement (st : HostStmt) (s : State) : State :=
  match st with
  | .csrw r v => csrWrite (csrAddress s.params r) 64 v (nextStatement s)
  | .csrr t r =>
    setHostVar t (csrRead s (csrAddress s.params r) 64) (readCsr (csrAddress s.params r) 64 (nextStatement s))
  | .memw a bs => queueWrites (byteWrites a bs) (nextStatement s)
  | .memw64 a vs => queueWrites (byteWrites a (elementBytes vs)) (nextStatement s)
  | .bz t k target =>
    if (getVar s.host.vars t).getLsbD k = false then { s with host := { s.host with pc := target } }
    else nextStatement s
  | .halt => { s with host := { s.host with pc := s.host.prog.length } }

/-- The host's next step: the next pending byte write, else its next statement; nothing once it has ended. -/
def hostStep (s : State) : Host.Outcome State Fault Refusal :=
  match s.host.pending with
  | acc :: rest => access acc { s with host := { s.host with pending := rest } }
  | [] =>
    match s.host.prog[s.host.pc]? with
    | some st => .next (hostStatement st s)
    | none => .next s

end Sys2Proof.Machine
end

