-- ==== Sys2Proof/Machine/HostAssembly.lean ====
section
/-! DEFINITION. The host assembler (R96, R97): labels to statement indices, pseudo-instructions to their expansions. -/

namespace Sys2Proof.Machine

/-- How many statements a line assembles to (R96, R97). -/
def lineSize : HostLine → Nat
  | .label _ => 0
  | .waitDone _ => 2
  | .vceEnc .. => 7
  | .vceDec .. => 8
  | _ => 1

/-- The labels of a program and the indices they stand for, from index `i` (R96). -/
def labelTable : Nat → List HostLine → List (Nat × Nat)
  | _, [] => []
  | i, .label n :: rest => (n, i) :: labelTable i rest
  | i, l :: rest => labelTable (i + lineSize l) rest

/-- `wait_done` at index `i`: poll STATUS until DONE = 1 (R97). -/
def expandWait (i t : Nat) : List HostStmt := [.csrr t .status, .bz t 1 i]

/-- The statements of a line at index `i`; `none` for a branch to a label that is not defined, and of a label defined
twice the first definition holds (R96, R97; log 23). -/
def expandLine (env : List (Nat × Nat)) (i : Nat) : HostLine → Option (List HostStmt)
  | .label _ => some []
  | .csrw r v => some [.csrw r v]
  | .csrr t r => some [.csrr t r]
  | .memw a bs => some [.memw a bs]
  | .memw64 a vs => some [.memw64 a vs]
  | .bz t k lbl => (env.lookup lbl).map fun target => [.bz t k target]
  | .halt => some [.halt]
  | .waitDone t => some (expandWait i t)
  | .vceEnc c src n dst cap t =>
    some ([.csrw .srcAddr src, .csrw .count n, .csrw .dstAddr dst, .csrw .dstCap cap,
      .csrw .cmd (encode (instrOf c .enc))] ++ expandWait (i + 5) t)
  | .vceDec c src len dst cap n t =>
    some ([.csrw .srcAddr src, .csrw .srcLen len, .csrw .dstAddr dst, .csrw .dstCap cap, .csrw .count n,
      .csrw .cmd (encode (instrOf c .dec))] ++ expandWait (i + 6) t)
  | .vceAck => some [.csrw .status 2]

/-- Assembles the lines from index `i` on. -/
def assembleFrom (env : List (Nat × Nat)) : Nat → List HostLine → Option (List HostStmt)
  | _, [] => some []
  | i, l :: rest =>
    match expandLine env i l, assembleFrom env (i + lineSize l) rest with
    | some a, some b => some (a ++ b)
    | _, _ => none

/-- A host program from its text (R96, R97). -/
def assemble (lines : List HostLine) : Option (List HostStmt) := assembleFrom (labelTable 0 lines) 0 lines

/-- A machine whose host starts this program. -/
def withProgram (prog : List HostStmt) (s : State) : State := { s with host := { s.host with prog := prog, pc := 0 } }

end Sys2Proof.Machine
end

