-- ==== Sys2Proof/Machine/Command.lean ====
section
/-! DEFINITION. The command skeletons shared by the codecs (R132 to R134). -/

namespace Sys2Proof.Machine

/-- The loop of the encode skeleton over `n` elements from element `e` (R132); `grp v` is the codec's canonical group
of v. -/
def encodeLoop (p : Params) (grp : Word → List Byte) : Nat → Nat → Work → Res Unit
  | 0, _, w => .ok () w
  | n + 1, e, w =>
    (readElem p e w).bind fun v w =>
      (emitGroup p (grp v) w).bind fun _ w => encodeLoop p grp n (e + 1) (setElements (e + 1) w)

/-- `EncodeCommand(c)` (R132). -/
def encodeCommand (grp : Params → Word → List Byte) (s : State) : Host.Outcome State Fault Refusal :=
  runCommand true .enc (fun p w => encodeLoop p (grp p) w.eng.latch.cnt.toNat 0 w) s

/-- `StrictCheck()` (R134). -/
def strictCheck (w : Work) : Res Unit :=
  if w.eng.latch.strict = true ∧ w.eng.rc ≠ w.eng.latch.slen then
    .raise .countMismatch (w.eng.latch.src.toNat + w.eng.rc.toNat) w
  else .ok () w

/-- The loop of the decode skeleton over `n` elements from element `e` (R133); `grp` reads one group. -/
def decodeLoop (p : Params) (grp : Work → Res Word) : Nat → Nat → Work → Res Unit
  | 0, _, w => .ok () w
  | n + 1, e, w =>
    (grp (startGroup w)).bind fun v w =>
      (storeElem p e v w).bind fun _ w => decodeLoop p grp n (e + 1) (setElements (e + 1) (commitGroup w))

/-- `DecodeCommand(c)` (R133). -/
def decodeCommand (grp : Params → Work → Res Word) (s : State) : Host.Outcome State Fault Refusal :=
  runCommand true .dec
    (fun p w => (decodeLoop p (grp p) w.eng.latch.cnt.toNat 0 w).bind fun _ w => strictCheck w) s

end Sys2Proof.Machine
end

