-- ==== Sys2Proof/Machine/Leb128.lean ====
section
/-! DEFINITION. The LEB128 codec: ENC.LEB128 and DEC.LEB128 (R101, R150 to R153). -/

namespace Sys2Proof.Machine

/-- The loop of `EncGroup_LEB128` with at most `k` further bytes before the last (R150). -/
def leb128Bytes : Nat → Nat → List Byte
  | 0, v => [BitVec.ofNat 8 v]
  | k + 1, v =>
    if 127 < v then BitVec.ofNat 8 ((v &&& 0x7F) ||| 0x80) :: leb128Bytes k (v >>> 7) else [BitVec.ofNat 8 v]

/-- `EncGroup_LEB128(v)` (R150): a 64-bit value takes at most 10 bytes, so nine continuation bytes suffice. -/
def encGroupLeb128 (v : Word) : List Byte := leb128Bytes 9 v.toNat

/-- i.ACC <- trunc_64(i.ACC | ((b & 0x7F) << i.SH)) (R152). -/
def lebAccumulate (b : Byte) (w : Work) : Work :=
  { w with eng := { w.eng with
      acc := w.eng.acc ||| (BitVec.ofNat 64 (b.toNat &&& 0x7F) <<< w.eng.sh.toNat) } }

/-- i.SH <- i.SH + 7 (R152). -/
def lebShift (w : Work) : Work := { w with eng := { w.eng with sh := w.eng.sh + 7 } }

/-- The loop of `DecGroup_LEB128`, with `more` bytes allowed after the one it reads (R152): a byte with bit 7 set
when none is allowed is the tenth. -/
def decLebLoop (p : Params) : Nat → Work → Res Word
  | more, w =>
    (rdByte p w).bind fun b w =>
      if b.getLsbD 7 = false then .ok (lebAccumulate b w).eng.acc (lebAccumulate b w)
      else
        match more with
        | 0 => raiseMalformed (lebAccumulate b w)
        | k + 1 => decLebLoop p k (lebShift (lebAccumulate b w))

/-- `DecGroup_LEB128()` (R152). -/
def decGroupLeb128 (p : Params) (w : Work) : Res Word :=
  decLebLoop p 9 { w with eng := { w.eng with acc := 0, sh := 0 } }

/-- ENC.LEB128 (R151). -/
def execEncLeb128 (s : State) : Host.Outcome State Fault Refusal := encodeCommand (fun _ v => encGroupLeb128 v) s

/-- DEC.LEB128 (R153). -/
def execDecLeb128 (s : State) : Host.Outcome State Fault Refusal := decodeCommand decGroupLeb128 s

end Sys2Proof.Machine
end

