-- ==== Sys2Proof/Machine/BucketEngine.lean ====
section
/-! DEFINITION. The bucket engine shared by LESQLITE and LESQLITE2 (R103, R191 to R195, R220). -/

namespace Sys2Proof.Machine

/-- The group of v in a row: first byte lo + (v >> 8p), then p payload bytes (R103, R194). -/
def groupInRow (r : BucketRow) (v : Nat) : List Byte :=
  BitVec.ofNat 8 (r.lo + v >>> (8 * r.p)) :: bytesLE r.p (v % 2 ^ (8 * r.p))

/-- `EncGroup_SQ(T, v)`: the first row, in table order, whose Max is at least v (R194). A legal table always has one
(R192 item 5), and no command runs under an illegal table (R10). -/
def encGroupBucket (T : List BucketRow) (v : Word) : List Byte :=
  match T.find? (fun r => decide (v.toNat ≤ r.max)) with
  | some r => groupInRow r v.toNat
  | none => []

/-- `DecGroup_SQ(T)`: a reserved first byte is malformed (R195, R276). -/
def decGroupBucket (T : List BucketRow) (p : Params) (w : Work) : Res Word :=
  (rdByte p w).bind fun b0 w =>
    match rowOf T b0.toNat with
    | none => raiseMalformed w
    | some r =>
      (rdBytes p r.p w).bind fun bs w =>
        .ok (BitVec.ofNat 64 (((b0.toNat - r.lo) <<< (8 * r.p)) ||| leNat bs)) w

end Sys2Proof.Machine
end

