-- ==== Sys2Proof/Machine/Lesqlite.lean ====
section
/-! DEFINITION. The leSQLite codec: ENC.LESQLITE and DEC.LESQLITE (R199, R200), with the table LESQLITE_TABLE. -/

namespace Sys2Proof.Machine

/-- ENC.LESQLITE (R199). -/
def execEncLesqlite (s : State) : Host.Outcome State Fault Refusal :=
  encodeCommand (fun p v => encGroupBucket p.lesqliteTable v) s

/-- DEC.LESQLITE (R200). -/
def execDecLesqlite (s : State) : Host.Outcome State Fault Refusal :=
  decodeCommand (fun p w => decGroupBucket p.lesqliteTable p w) s

end Sys2Proof.Machine
end

