-- ==== Sys2Proof/Machine/Lesqlite2.lean ====
section
/-! DEFINITION. The leSQLite2 codec: ENC.LESQLITE2 and DEC.LESQLITE2 (R220, R222, R223), with LESQLITE2_TABLE. -/

namespace Sys2Proof.Machine

/-- ENC.LESQLITE2 (R222). -/
def execEncLesqlite2 (s : State) : Host.Outcome State Fault Refusal :=
  encodeCommand (fun p v => encGroupBucket p.lesqlite2Table v) s

/-- DEC.LESQLITE2 (R223). -/
def execDecLesqlite2 (s : State) : Host.Outcome State Fault Refusal :=
  decodeCommand (fun p w => decGroupBucket p.lesqlite2Table p w) s

end Sys2Proof.Machine
end

