-- ==== Sys2Proof/Machine/Nanolog.lean ====
section
/-! DEFINITION. The NanoLog codec: ENC.NANOLOG and DEC.NANOLOG (R104, R240 to R245), with its own pair loops. -/

namespace Sys2Proof.Machine

/-- `EncPair(a, b)` (R241). -/
def encPair (a b : Word) : List Byte :=
  packNibbles (byteLen a.toNat) (byteLen b.toNat)
    :: (bytesLE (byteLen a.toNat) a.toNat ++ bytesLE (byteLen b.toNat) b.toNat)

/-- `EncSingle(a)`, with NANOLOG_PAD in the unused low nibble (R242). -/
def encSingle (pad : Nat) (a : Word) : List Byte :=
  packNibbles (byteLen a.toNat) pad :: bytesLE (byteLen a.toNat) a.toNat

/-- The loop of ENC.NANOLOG with `n` elements left, from element `e` (R243): pairs, then the odd one (R240). -/
def encNanologLoop (p : Params) : Nat → Nat → Work → Res Unit
  | 0, _, w => .ok () w
  | 1, e, w =>
    (readElem p e w).bind fun a w =>
      (emitGroup p (encSingle p.nanologPad a) w).bind fun _ w => .ok () (setElements (e + 1) w)
  | n + 2, e, w =>
    (readElem p e w).bind fun a w =>
      (readElem p (e + 1) w).bind fun b w =>
        (emitGroup p (encPair a b) w).bind fun _ w => encNanologLoop p n (e + 2) (setElements (e + 2) w)

/-- `DecNibbleLen(n)` (R244). -/
def decNibbleLen (n : Nat) (w : Work) : Res Nat := if n < 1 ∨ 8 < n then raiseMalformed w else .ok n w

/-- i.HDR takes the header byte (R43). -/
def setHeader (b : Byte) (w : Work) : Work := { w with eng := { w.eng with hdr := b } }

/-- i.HDR <- RdByte() (R245). -/
def rdHeader (p : Params) (w : Work) : Res Byte := (rdByte p w).bind fun b w => .ok b (setHeader b w)

/-- The value of n little-endian bytes, zero-extended to 64 bits (R245). -/
def rdValue (p : Params) (n : Nat) (w : Work) : Res Word :=
  (rdBytes p n w).bind fun bs w => .ok (BitVec.ofNat 64 (leNat bs)) w

/-- A singleton group of a decode, the low nibble ignored (R245). -/
def decSingle (p : Params) (w : Work) : Res Word :=
  (rdHeader p w).bind fun h w => (decNibbleLen (hiNib h) w).bind fun la w => rdValue p la w

/-- A pair group of a decode: both nibbles checked, the high one first, before any value byte (R245, R276). -/
def decPair (p : Params) (w : Work) : Res (Word × Word) :=
  (rdHeader p w).bind fun h w =>
    (decNibbleLen (hiNib h) w).bind fun la w =>
      (decNibbleLen (loNib h) w).bind fun lb w =>
        (rdValue p la w).bind fun a w => (rdValue p lb w).bind fun b w => .ok (a, b) w

/-- The loop of DEC.NANOLOG with `n` elements left, from element `e` (R245). -/
def decNanologLoop (p : Params) : Nat → Nat → Work → Res Unit
  | 0, _, w => .ok () w
  | 1, e, w =>
    (decSingle p (startGroup w)).bind fun a w =>
      (storeElem p e a w).bind fun _ w => .ok () (setElements (e + 1) (commitGroup w))
  | n + 2, e, w =>
    (decPair p (startGroup w)).bind fun ab w =>
      (storeElem p e ab.1 w).bind fun _ w =>
        (storeElem p (e + 1) ab.2 w).bind fun _ w =>
          decNanologLoop p n (e + 2) (setElements (e + 2) (commitGroup w))

/-- ENC.NANOLOG (R243). -/
def execEncNanolog (s : State) : Host.Outcome State Fault Refusal :=
  runCommand true .enc (fun p w => encNanologLoop p w.eng.latch.cnt.toNat 0 w) s

/-- DEC.NANOLOG (R245). -/
def execDecNanolog (s : State) : Host.Outcome State Fault Refusal :=
  runCommand true .dec
    (fun p w => (decNanologLoop p w.eng.latch.cnt.toNat 0 w).bind fun _ w => strictCheck w) s

end Sys2Proof.Machine
end

