-- ==== Sys2Proof/Machine/PrefixVarint.lean ====
section
/-! DEFINITION. The PrefixVarint codec: ENC.PREFIXVARINT and DEC.PREFIXVARINT (R102, R170 to R173). The tag is the run
of ones from bit 0 of the first byte (90_conflicts C1). -/

namespace Sys2Proof.Machine

/-- The first k of k, k + 1, ..., 8 with v < 2^(7k), `tries` of them left; `none` when v needs the 9-byte form (R170). -/
def prefixLength : Nat → Nat → Nat → Option Nat
  | 0, _, _ => none
  | tries + 1, k, v => if v < 2 ^ (7 * k) then some k else prefixLength tries (k + 1) v

/-- `EncGroup_PV(v)` (R170). -/
def encGroupPrefixVarint (v : Word) : List Byte :=
  match prefixLength 8 1 v.toNat with
  | some k => bytesLE k ((v.toNat <<< k) ||| (2 ^ (k - 1) - 1))
  | none => 0xFF :: bytesLE 8 v.toNat

/-- `DecGroup_PV()` (R172). -/
def decGroupPrefixVarint (p : Params) (w : Work) : Res Word :=
  (rdByte p w).bind fun b0 w =>
    if trailingOnes8 b0 = 8 then
      (rdBytes p 8 w).bind fun bs w => .ok (BitVec.ofNat 64 (leNat bs)) w
    else
      (rdBytes p (trailingOnes8 b0) w).bind fun bs w =>
        .ok (BitVec.ofNat 64 (leNat (b0 :: bs) >>> (trailingOnes8 b0 + 1))) w

/-- ENC.PREFIXVARINT (R171). -/
def execEncPrefixVarint (s : State) : Host.Outcome State Fault Refusal :=
  encodeCommand (fun _ v => encGroupPrefixVarint v) s

/-- DEC.PREFIXVARINT (R173). -/
def execDecPrefixVarint (s : State) : Host.Outcome State Fault Refusal := decodeCommand decGroupPrefixVarint s

end Sys2Proof.Machine
end

