-- ==== Sys2Proof/Machine/Dispatch.lean ====
section
/-! DEFINITION. The commands' dispatch (R141), one arm per command. -/

namespace Sys2Proof.Machine

/-- The meaning of a command: its whole run, from the start checks to the completion step (R121, R141). -/
def exec (i : Instr) (s : State) : Host.Outcome State Fault Refusal :=
  match i with
  | .encLeb128 => Sys2Proof.Machine.execEncLeb128 s
  | .encPrefixVarint => Sys2Proof.Machine.execEncPrefixVarint s
  | .encLesqlite => Sys2Proof.Machine.execEncLesqlite s
  | .encLesqlite2 => Sys2Proof.Machine.execEncLesqlite2 s
  | .encNanolog => Sys2Proof.Machine.execEncNanolog s
  | .decLeb128 => Sys2Proof.Machine.execDecLeb128 s
  | .decPrefixVarint => Sys2Proof.Machine.execDecPrefixVarint s
  | .decLesqlite => Sys2Proof.Machine.execDecLesqlite s
  | .decLesqlite2 => Sys2Proof.Machine.execDecLesqlite2 s
  | .decNanolog => Sys2Proof.Machine.execDecNanolog s

end Sys2Proof.Machine
end

