-- ==== Sys2Proof/Machine/Turns.lean ====
section
/-! DEFINITION. The step semantics (R322): one agent's turn. -/

namespace Sys2Proof.Machine

/-- The engine's step while a command runs: the whole of the latched command, at its completion step (R121, R322;
log 6). An illegal word ends with BAD_COMMAND (R92). -/
def engineStep (s : State) : Host.Outcome State Fault Refusal :=
  match decode (fetchCommand s) with
  | .ok i => exec i s
  | .error _ => execIllegal s

/-- The engine's turn: no step while idle (R292). -/
def engineTurn (s : State) : Host.Outcome State Fault Refusal :=
  match s.eng.phase with
  | .run => engineStep s
  | .idle => .next s

/-- One turn (R322). -/
def performTurn (t : Turn) (s : State) : Host.Outcome State Fault Refusal :=
  match t with
  | .engine => engineTurn s
  | .host => hostStep s
  | .bus acc => access acc s
  | .reset => .next (resetStep s)

/-- The order once the list of turns is empty: a running command completes, else the host goes on, else nothing
happens. It is fair (R320). Log 5, log 20. -/
def defaultTurn (s : State) : Host.Outcome State Fault Refusal :=
  match s.eng.phase with
  | .run => engineStep s
  | .idle => hostStep s

/-- One step of the machine: the next turn. Illegal parameter values have no meaning (R10). -/
def takeTurn (s : State) : Host.Outcome State Fault Refusal :=
  if s.params.legal = false then .refused .illegalParameters
  else
    match s.turns with
    | [] => defaultTurn s
    | t :: rest => performTurn t { s with turns := rest }

end Sys2Proof.Machine
end

