-- ==== Sys2Proof/Machine/Step.lean ====
section
/-! DEFINITION. The step function (R322), and where it fetches a command word. -/

namespace Sys2Proof.Machine

/-- One step of the machine (R322). -/
def step (s : State) : Host.Outcome State Fault Refusal := takeTurn s

/-- `s` with the command word `w` (of `nbits` bits) accepted by a CMD write, and the engine to move next. The engine
fetches its command from the latch i.CMD (R41, R77), so the very next step runs this command on the operands the
CSRs of `s` hold (log 13). -/
def State.withFetchWord (s : State) (nbits w : Nat) : State :=
  { startCommand (BitVec.ofNat 64 (w % 2 ^ nbits)) s with turns := [] }

end Sys2Proof.Machine
end

