-- ==== Sys2Proof/Safety.lean ====
section
/-! DEFINITION. The terms claims are made in: what a safe run is, the state invariants, the hazard rules a host must
respect (R321), and the byte formats of the codecs as relations between bytes and values (R100 to R104). -/

namespace Sys2Proof

open Sys2Proof.Machine

/-! ### Invariants of the machine -/

/-- A command has just been accepted and no engine step of it has been taken (R120). -/
structure Fresh (e : Engine) : Prop where
  rc : e.rc = 0
  wc : e.wc = 0
  ei : e.ei = 0

/-- While a command runs its cursors stand at 0 (the model takes a command in one step, log 6), DONE, ERR and the
results are clear (R321 item 8), and CMD holds the word that runs (R29). -/
structure RunningClear (s : State) : Prop where
  fresh : Fresh s.eng
  done : s.csr.done = false
  err : s.csr.err = .ok
  resultBytes : s.csr.resultBytes = 0
  resultCount : s.csr.resultCount = 0
  errAddr : s.csr.errAddr = 0
  cmd : s.csr.cmd = s.eng.latch.cmd

/-- The invariant of the machine: memory in canonical form and inside data memory (R60), the shift offset at most
63 and the group at most 17 bytes (R43), and a running command's registers clear. -/
structure Inv (s : State) : Prop where
  wf : s.mem.wf = true
  inSpace : s.mem.inSpace s.params.memTop = true
  shift : s.eng.sh.toNat ≤ 63
  group : s.eng.g.length ≤ 17
  running : s.eng.phase = .run → RunningClear s

/-! ### Hazard rules -/

/-- The access names bytes that data memory has (R60). -/
def accessInSpace (p : Params) : Access → Bool
  | .csrRead _ _ => true
  | .csrWrite _ _ _ => true
  | .memRead a => decide (a < p.memTop)
  | .memWrite a _ => decide (a < p.memTop)

/-- The access respects the hazard rules R321 items 2 to 4 in this state. -/
def accessRespects (s : State) : Access → Bool
  | .csrRead _ _ => true
  | .csrWrite addr width _ => !(s.busy && decide (csrReached s.params addr width = some .cmd))
  | .memRead a => !readIsFree s a
  | .memWrite a _ => !(s.busy && inRegions s a)

/-- The access the host's next step makes, if it makes one (R96). -/
def hostAccess (s : State) : Option Access :=
  match s.host.pending with
  | acc :: _ => some acc
  | [] =>
    match s.host.prog[s.host.pc]? with
    | some (.csrw r v) => some (.csrWrite (csrAddress s.params r) 64 v)
    | some (.csrr _ r) => some (.csrRead (csrAddress s.params r) 64)
    | _ => none

/-- The access the next step makes, if it makes one: the step semantics of R322 (log 5). -/
def nextAccess (s : State) : Option Access :=
  match s.turns with
  | [] => if s.busy then none else hostAccess s
  | .bus acc :: _ => some acc
  | .host :: _ => hostAccess s
  | .engine :: _ => none
  | .reset :: _ => none

/-! ### Byte formats -/

/-- Σ_j B_j[6:0] · 2^(7j) (R101). -/
def leb128Sum : List Byte → Nat
  | [] => 0
  | b :: bs => b.toNat % 128 + 128 * leb128Sum bs

/-- The continuation bit is set in every byte but the last, and clear in the last (R101). -/
def leb128Chained : List Byte → Prop
  | [] => False
  | [b] => b.toNat < 128
  | b :: bs => 128 ≤ b.toNat ∧ leb128Chained bs

/-- A LEB128 group of value v, canonical or not (R101, R108). -/
def Leb128Group (g : List Byte) (v : Word) : Prop :=
  leb128Chained g ∧ g.length ≤ 10 ∧ v = BitVec.ofNat 64 (leb128Sum g)

/-- A PrefixVarint group of value v (R102, R105, R108): k is one more than the trailing ones of the first byte. -/
def PrefixGroup (g : List Byte) (v : Word) : Prop :=
  ∃ b0 rest, g = b0 :: rest ∧
    ((trailingOnes8 b0 = 8 ∧ rest.length = 8 ∧ v = BitVec.ofNat 64 (leNat rest)) ∨
     (trailingOnes8 b0 < 8 ∧ rest.length = trailingOnes8 b0 ∧
       v = BitVec.ofNat 64 (leNat (b0 :: rest) >>> (trailingOnes8 b0 + 1))))

/-- A leSQLite-family group of value v under table T (R103, R108). -/
def BucketGroup (T : List BucketRow) (g : List Byte) (v : Word) : Prop :=
  ∃ b0 rest r, g = b0 :: rest ∧ rowOf T b0.toNat = some r ∧ rest.length = r.p ∧
    v = BitVec.ofNat 64 (((b0.toNat - r.lo) <<< (8 * r.p)) ||| leNat rest)

/-- A NanoLog pair group of values a and b (R104, R108). -/
def PairGroup (g : List Byte) (a b : Word) : Prop :=
  ∃ h xs ys, g = h :: (xs ++ ys) ∧ hiNib h = xs.length ∧ loNib h = ys.length ∧
    1 ≤ xs.length ∧ xs.length ≤ 8 ∧ 1 ≤ ys.length ∧ ys.length ≤ 8 ∧
    a = BitVec.ofNat 64 (leNat xs) ∧ b = BitVec.ofNat 64 (leNat ys)

/-- A NanoLog singleton group of value a: the low nibble is ignored (R104, R245). -/
def SingleGroup (g : List Byte) (a : Word) : Prop :=
  ∃ h xs, g = h :: xs ∧ hiNib h = xs.length ∧ 1 ≤ xs.length ∧ xs.length ≤ 8 ∧ a = BitVec.ofNat 64 (leNat xs)

/-- A group of one element in the four codecs that have one group per element (R100). -/
def ElementGroup (p : Params) : Codec → List Byte → Word → Prop
  | .leb128 => Leb128Group
  | .prefixVarint => PrefixGroup
  | .lesqlite => BucketGroup p.lesqliteTable
  | .lesqlite2 => BucketGroup p.lesqlite2Table
  | .nanolog => fun _ _ => False

/-- An encoded buffer and its elements: the concatenation of groups, in element order (R100); for NANOLOG pairs, then
the odd element's singleton (R240). -/
inductive Buffer (p : Params) : Codec → List Byte → List Word → Prop
  | nil (c : Codec) : Buffer p c [] []
  | element (c : Codec) (g bs : List Byte) (v : Word) (vs : List Word) :
      ElementGroup p c g v → Buffer p c bs vs → Buffer p c (g ++ bs) (v :: vs)
  | pair (g bs : List Byte) (a b : Word) (vs : List Word) :
      PairGroup g a b → Buffer p .nanolog bs vs → Buffer p .nanolog (g ++ bs) (a :: b :: vs)
  | single (g : List Byte) (a : Word) : SingleGroup g a → Buffer p .nanolog g [a]

/-- The canonical NanoLog buffer of a sequence (R240 to R242). -/
def nanologBuffer (pad : Nat) : List Word → List Byte
  | [] => []
  | [a] => encSingle pad a
  | a :: b :: vs => encPair a b ++ nanologBuffer pad vs

/-- The canonical group of an element in the four codecs that have one group per element (R132, R141). -/
def canonicalGroup (p : Params) : Codec → Word → List Byte
  | .leb128 => encGroupLeb128
  | .prefixVarint => encGroupPrefixVarint
  | .lesqlite => encGroupBucket p.lesqliteTable
  | .lesqlite2 => encGroupBucket p.lesqlite2Table
  | .nanolog => encSingle p.nanologPad

/-- The canonical encoded buffer of a sequence: what an encode command writes (R100, R107, R132, R243). -/
def canonicalBuffer (p : Params) (c : Codec) (vs : List Word) : List Byte :=
  match c with
  | .nanolog => nanologBuffer p.nanologPad vs
  | c => vs.flatMap (canonicalGroup p c)

/-- The n elements from element e of the integer sequence at base a (R63). -/
def elementsFrom (m : Memory) (a e : Nat) : Nat → List Word
  | 0 => []
  | n + 1 => m.element a e :: elementsFrom m a (e + 1) n

/-! ### Conditions under which a command runs to its end -/

/-- Every byte of the n from a answers engine accesses (R60). -/
def AllAccessible (p : Params) (a n : Nat) : Prop := ∀ j, j < n → p.accessibleAt (a + j) = true

/-- A command has been accepted, no race or device is in its way, and it passes every start check (R120, R123). -/
structure Startable (d : Dir) (s : State) : Prop where
  legal : s.params.legal = true
  unraced : s.raced d = false
  fresh : Fresh s.eng
  src : pastTop s.params (srcRegion d s.eng.latch) = false
  dst : pastTop s.params (dstRegion s.eng.latch) = false
  apart : (srcRegion d s.eng.latch).meets (dstRegion s.eng.latch) = false
  room : d = .dec → 8 * s.eng.latch.cnt.toNat ≤ s.eng.latch.cap.toNat

/-- The source region of a decode starts with these bytes, and they answer (R64, R125). -/
structure SourceStarts (s : State) (bs : List Byte) : Prop where
  fits : bs.length ≤ s.eng.latch.slen.toNat
  accessible : AllAccessible s.params s.eng.latch.src.toNat bs.length
  bytes : s.mem.readBytes s.eng.latch.src.toNat bs.length = bs

/-- A decode has work left after the elements `vs`: fewer than COUNT of them, and for NANOLOG whole pairs (R240). -/
def MoreToDecode (c : Codec) (s : State) (vs : List Word) : Prop :=
  vs.length < s.eng.latch.cnt.toNat ∧ (c = .nanolog → vs.length % 2 = 0)

/-- The element after `n` elements is the last one, so NANOLOG has a singleton there (R240, R245). -/
def lastAfter (s : State) (n : Nat) : Bool := decide (n + 1 = s.eng.latch.cnt.toNat)

/-! ### How a group fails (R275, R276) -/

/-- A length nibble outside 1 to 8 (R244). -/
def badNibble (n : Nat) : Prop := n < 1 ∨ 8 < n

/-- The first bytes of a group, all of them good so far, that does not end with them: the next byte is needed. -/
def Incomplete (p : Params) (c : Codec) (last : Bool) (part : List Byte) : Prop :=
  match c, part with
  | .leb128, part => part.length < 10 ∧ ∀ b ∈ part, 128 ≤ b.toNat
  | _, [] => True
  | .prefixVarint, b :: rest => rest.length < trailingOnes8 b
  | .lesqlite, b :: rest => ∃ r, rowOf p.lesqliteTable b.toNat = some r ∧ rest.length < r.p
  | .lesqlite2, b :: rest => ∃ r, rowOf p.lesqlite2Table b.toNat = some r ∧ rest.length < r.p
  | .nanolog, h :: rest =>
    ¬ badNibble (hiNib h) ∧
      (if last then rest.length < hiNib h
       else ¬ badNibble (loNib h) ∧ rest.length < hiNib h + loNib h)

/-- The first bytes of a group, the last of which no well-formed group can hold there (R276). -/
def Malformed (p : Params) (c : Codec) (last : Bool) (part : List Byte) : Prop :=
  match c with
  | .leb128 => part.length = 10 ∧ ∀ b ∈ part, 128 ≤ b.toNat
  | .prefixVarint => False
  | .lesqlite => ∃ b, part = [b] ∧ rowOf p.lesqliteTable b.toNat = none
  | .lesqlite2 => ∃ b, part = [b] ∧ rowOf p.lesqlite2Table b.toNat = none
  | .nanolog => ∃ h, part = [h] ∧ (badNibble (hiNib h) ∨ (last = false ∧ badNibble (loNib h)))

/-- One group and the elements it holds: for NANOLOG a pair, or the singleton where it stands last (R240). -/
def OneGroup (p : Params) (c : Codec) (last : Bool) (g : List Byte) (xs : List Word) : Prop :=
  match c with
  | .nanolog => if last then ∃ a, xs = [a] ∧ SingleGroup g a else ∃ a b, xs = [a, b] ∧ PairGroup g a b
  | c => ∃ v, xs = [v] ∧ ElementGroup p c g v

/-- The canonical group an encode emits first for these elements (R132, R243). -/
def firstGroup (p : Params) (c : Codec) (vs : List Word) : List Byte :=
  match c, vs with
  | _, [] => []
  | .nanolog, [a] => encSingle p.nanologPad a
  | .nanolog, a :: b :: _ => encPair a b
  | c, v :: _ => canonicalGroup p c v

/-- How many of `n` elements an encode reads for its next group (R132, R243). -/
def groupElements (c : Codec) (n : Nat) : Nat :=
  match c with
  | .nanolog => min n 2
  | _ => min n 1

/-! ### How a command ends -/

/-- What no command changes, whatever its outcome: of the CSRs all but the five that completion writes (R45, R130), the
latches (R41), i.RACE, the parameters, the host, the turns. Its destination region joins those the host may not yet rely
on (R321 item 3; log 25). -/
structure CommandFrame (s t : State) : Prop where
  csr : t.csr = { s.csr with
    done := t.csr.done, err := t.csr.err, resultBytes := t.csr.resultBytes,
    resultCount := t.csr.resultCount, errAddr := t.csr.errAddr }
  latch : t.eng.latch = s.eng.latch
  race : t.eng.race = s.eng.race
  params : t.params = s.params
  host : t.host = s.host
  unseen : t.unseen = dstRegion s.eng.latch :: s.unseen
  turns : t.turns = s.turns

/-- The command has ended with this code, exact error address and progress, and changed nothing else outside data
memory but the engine's cursors and datapath (R130, R131, R282). Where the exact address is 2^64 or more, nothing is
said of ERR_ADDR (log 8). -/
structure Ended (s t : State) (code : ErrCode) (addr bytes count : Nat) : Prop where
  frame : CommandFrame s t
  draws : t.draws = s.draws
  phase : t.eng.phase = .idle
  done : t.csr.done = true
  err : t.csr.err = code
  errAddr : addr < 2 ^ 64 → t.csr.errAddr = BitVec.ofNat 64 addr
  resultBytes : t.csr.resultBytes = BitVec.ofNat 64 bytes
  resultCount : t.csr.resultCount = BitVec.ofNat 64 count

/-- Data memory has these bytes from `a` upward, and every other byte as before. -/
structure Wrote (s t : State) (a : Nat) (bs : List Byte) : Prop where
  bytes : s.mem.wf = true → t.mem.readBytes a bs.length = bs
  rest : ∀ x, x < a ∨ a + bs.length ≤ x → t.mem.read x = s.mem.read x

/-! ### What a host does -/

/-- The host writes the five operand CSRs and then CMD (R313 items 3 and 4). -/
def commanded (i : Instr) (src slen dst cap cnt : Word) (s : State) : State :=
  writeCsr .cmd (encode i) (writeCsr .count cnt (writeCsr .dstCap cap (writeCsr .dstAddr dst
    (writeCsr .srcLen slen (writeCsr .srcAddr src s)))))

/-- The statement writes no byte outside data memory (R60). -/
def stmtInSpace (p : Params) : HostStmt → Bool
  | .memw a bs => decide (a + bs.length ≤ p.memTop)
  | .memw64 a vs => decide (a + 8 * vs.length ≤ p.memTop)
  | _ => true

/-- Every access that is still to come names bytes data memory has (R60): of the turns, and of the host's program. -/
def allInSpace (s : State) : Bool :=
  s.turns.all (fun t => match t with | .bus acc => accessInSpace s.params acc | _ => true)
    && s.host.pending.all (accessInSpace s.params) && s.host.prog.all (stmtInSpace s.params)

namespace Machine

/-- The bytes stand in the source region from the group read position on, and answer (R125). -/
structure SourceHas (p : Params) (bs : List Byte) (w : Work) : Prop where
  fits : w.eng.p.toNat + bs.length ≤ w.eng.latch.slen.toNat
  accessible : AllAccessible p (w.eng.latch.src.toNat + w.eng.p.toNat) bs.length
  bytes : w.mem.readBytes (w.eng.latch.src.toNat + w.eng.p.toNat) bs.length = bs

end Machine

end Sys2Proof
end

