-- ==== Sys2Proof/Certificates/Slice0/Obligations.lean ====
section
/-! DEFINITION. The statements for the provers. Each docstring names the rule of spec/ it formalises; "log <n>" is the
model's own choice of notes/assumptions/<n>.md. -/

open Sys2Proof Sys2Proof.Machine

/-! ### Command words -/

/-- R93: the ten words of the opcode map decode to their commands. -/
def Obligations.OpcodeMapDecodes : Prop :=
  (decode 0x00).toOption = some .encLeb128 ∧ (decode 0x10).toOption = some .decLeb128 ∧
  (decode 0x01).toOption = some .encPrefixVarint ∧ (decode 0x11).toOption = some .decPrefixVarint ∧
  (decode 0x02).toOption = some .encLesqlite ∧ (decode 0x12).toOption = some .decLesqlite ∧
  (decode 0x03).toOption = some .encLesqlite2 ∧ (decode 0x13).toOption = some .decLesqlite2 ∧
  (decode 0x04).toOption = some .encNanolog ∧ (decode 0x14).toOption = some .decNanolog

/-- R91, R92, R93: a word selects a command exactly when it is that command's word, so decode and encode agree in both
directions; a word selects some command exactly when w[63:5] = 0 and w[3:0] ≤ 4; and the command has the codec and the
direction of the word's fields. -/
def Obligations.DecodeAndEncodeAgree : Prop :=
  (∀ i : Instr, decode (encode i) = .ok i) ∧
  (∀ (w : Word) (i : Instr), decode w = .ok i → w = encode i) ∧
  (∀ w : Word, (∃ i, decode w = .ok i) ↔ (w.toNat / 32 = 0 ∧ w.toNat % 16 ≤ 4)) ∧
  (∀ i : Instr, (encode i).toNat % 16 = (codecNumber i.codec).toNat ∧ ((encode i).getLsbD 4 = true ↔ i.dir = .dec))

/-- R121, R141, R322: when the latched command word decodes to a command, a step that is the engine's turn, or that
finds no turn scheduled, is that command's meaning at that state (with the turn taken off the schedule; log 5, log 6). -/
def Obligations.StepRunsDecodedCommand : Prop :=
  ∀ (s : State) (i : Instr), s.params.legal = true → s.eng.phase = .run → decode (fetchCommand s) = .ok i →
    (s.turns = [] → step s = exec i s) ∧
    (∀ rest, s.turns = .engine :: rest → step s = exec i { s with turns := rest })

/-- R271, R92: an illegal word ends with BAD_COMMAND, address 0 and no progress, and changes no memory; even where another
start check would fail as well. That the very next step is the completion rests on the order when no turn is scheduled
(log 5) and on a command being one step (log 6). -/
def Obligations.IllegalWordEndsBadCommand : Prop :=
  ∀ (s : State), s.params.legal = true → s.eng.phase = .run → s.turns = [] → Fresh s.eng →
    s.raced (dirOf (fetchCommand s)) = false →
    ((fetchCommand s).toNat / 32 ≠ 0 ∨ 5 ≤ (fetchCommand s).toNat % 16) →
    ∃ t, step s = .next t ∧ Ended s t .badCommand 0 0 0 ∧ t.mem = s.mem

/-! ### Parameters -/

/-- R10, R192: what makes parameter values legal, clause by clause. -/
def Obligations.LegalParametersMeaning : Prop :=
  (∀ p : Params, p.legal = true ↔
    (1 ≤ p.addrBits ∧ p.addrBits ≤ 64 ∧ tableLegal p.lesqliteTable = true ∧ tableLegal p.lesqlite2Table = true ∧
      p.nanologPad ≤ 15)) ∧
  ∀ T : List BucketRow, tableLegal T = true ↔
    (T ≠ [] ∧
     (∀ r ∈ T, r.lo ≤ r.hi ∧ r.hi ≤ 255 ∧ r.p ≤ 8) ∧
     T.Pairwise (fun r r' => r.hi < r'.lo ∨ r'.hi < r.lo) ∧
     (∀ r ∈ T, (r.hi - r.lo + 1) * 2 ^ (8 * r.p) ≤ 2 ^ 64) ∧
     T.Pairwise (fun r r' => (r.hi - r.lo + 1) * 2 ^ (8 * r.p) - 1 < (r'.hi - r'.lo + 1) * 2 ^ (8 * r'.p) - 1) ∧
     (∀ r, T.getLast? = some r → (r.hi - r.lo + 1) * 2 ^ (8 * r.p) = 2 ^ 64) ∧
     (∀ r, T.head? = some r → r.p = 0))

/-- R197, R221, R9: the two default tables, row by row, are legal, and so are the default parameters. -/
def Obligations.DefaultTablesLegal : Prop :=
  tableLegal lesqliteDefault = true ∧ tableLegal lesqlite2Default = true ∧
  lesqliteDefault.map (fun r => (r.lo, r.hi, r.p, r.max)) =
    [(0, 240, 0, 240), (241, 248, 1, 2047), (249, 249, 2, 65535), (250, 250, 3, 16777215),
     (251, 251, 5, 1099511627775), (252, 252, 7, 72057594037927935), (253, 253, 8, 2 ^ 64 - 1)] ∧
  lesqlite2Default.map (fun r => (r.lo, r.hi, r.p, r.max)) =
    [(0, 191, 0, 191), (192, 239, 1, 12287), (240, 247, 2, 524287), (248, 248, 3, 16777215),
     (249, 249, 4, 4294967295), (250, 250, 5, 2 ^ 40 - 1), (251, 251, 6, 281474976710655),
     (252, 252, 7, 2 ^ 56 - 1), (253, 253, 8, 2 ^ 64 - 1)] ∧
  Params.default.legal = true

/-- R10: under illegal parameter values no step and no command has a meaning (log 19). -/
def Obligations.IllegalParametersRefused : Prop :=
  ∀ s : State, s.params.legal = false →
    step s = .refused .illegalParameters ∧ ∀ i, exec i s = .refused .illegalParameters

/-! ### The CSR file -/

/-- R22: the CSR map: each register's offset, and what it reads as after reset. -/
def Obligations.CsrMap : Prop :=
  csrNames.map (fun n => (csrOffset n, csrValue State.reset n)) =
    [(0x00, 0x56434531001F0001), (0x08, 2), (0x10, 0), (0x18, 0), (0x20, 0), (0x28, 0), (0x30, 0), (0x38, 0),
     (0x40, 0), (0x48, 0), (0x50, 0), (0x58, 0)] ∧
  ∀ n : CsrName, n ∈ csrNames

/-- R23: a 64-bit access at the address of a CSR reaches it; every other access to the window reads 0 and changes
nothing; a write to a read-only register changes nothing; a read changes nothing of the VCE: the host receives the value
(log 22), and where it is a read of STATUS that returns DONE = 1 the host may from then on rely on every completed
command's bytes (R74; log 25). -/
def Obligations.CsrAccessRule : Prop :=
  ∀ (s : State) (addr width : Nat) (v : Word),
    (∀ n : CsrName, width = 64 → addr = s.params.csrBase + csrOffset n →
      csrRead s addr width = csrValue s n ∧ csrWrite addr width v s = writeCsr n v s) ∧
    (s.params.csrBase ≤ addr → addr < s.params.csrBase + 256 →
      (width ≠ 64 ∨ ∀ n : CsrName, addr ≠ s.params.csrBase + csrOffset n) →
      csrRead s addr width = 0 ∧ csrWrite addr width v s = s) ∧
    (∀ n : CsrName, n = .id ∨ n = .resultBytes ∨ n = .resultCount ∨ n = .errAddr → writeCsr n v s = s) ∧
    access (.csrRead addr width) s = .next { s with
      host := { s.host with rdata := csrRead s addr width }
      unseen := if width = 64 ∧ addr = s.params.csrBase + csrOffset .status ∧ s.csr.done = true then []
        else s.unseen }

/-- R38, R21: an operand CSR reads back the last value written, at any time; no other CSR and nothing else changes, the
running command's latches included. -/
def Obligations.OperandCsrReadsBack : Prop :=
  ∀ (s : State) (n : CsrName) (v : Word),
    n = .srcAddr ∨ n = .srcLen ∨ n = .dstAddr ∨ n = .dstCap ∨ n = .count →
    csrValue (writeCsr n v s) n = v ∧
    (∀ m : CsrName, m ≠ n → csrValue (writeCsr n v s) m = csrValue s m) ∧
    writeCsr n v s = { s with csr := (writeCsr n v s).csr }

/-- R27, R270: STATUS as read, bit by bit, and the numbers of the nine error codes. -/
def Obligations.StatusWordFields : Prop :=
  (∀ (s : State),
    (csrValue s .status).getLsbD 0 = decide (s.eng.phase = .run) ∧
    (csrValue s .status).getLsbD 1 = s.csr.done ∧
    (csrValue s .status).getLsbD 2 = s.csr.drop ∧
    (∀ k, 3 ≤ k → k ≤ 7 → (csrValue s .status).getLsbD k = false) ∧
    (csrValue s .status).extractLsb' 8 8 = BitVec.ofNat 8 (errNumber s.csr.err) ∧
    ∀ k, 16 ≤ k → (csrValue s .status).getLsbD k = false) ∧
  errNumber .ok = 0 ∧ errNumber .badCommand = 1 ∧ errNumber .badRegion = 2 ∧ errNumber .overlap = 3 ∧
  errNumber .bufferTooSmall = 4 ∧ errNumber .truncatedInput = 5 ∧ errNumber .malformedInput = 6 ∧
  errNumber .countMismatch = 7 ∧ errNumber .busError = 8

/-- R28: a write of w to STATUS clears DONE where w[1] = 1 and DROP where w[2] = 1, and changes no other bit of STATUS and
nothing else. -/
def Obligations.StatusWriteOneToClear : Prop :=
  ∀ (s : State) (w : Word),
    csrValue (writeCsr .status w s) .status = csrValue s .status &&& ~~~(w &&& 6#64) ∧
    (∀ m : CsrName, m ≠ .status → csrValue (writeCsr .status w s) m = csrValue s m) ∧
    writeCsr .status w s = { s with csr := { s.csr with
      done := (writeCsr .status w s).csr.done, drop := (writeCsr .status w s).csr.drop } }

/-- R25, R26: CTRL keeps bits 1:0 of what is written and reads 0 above; the running command keeps its latched STRICT. -/
def Obligations.CtrlWriteKeepsTwoBits : Prop :=
  ∀ (s : State) (w : Word),
    csrValue (writeCsr .ctrl w s) .ctrl = w &&& 3#64 ∧
    (∀ m : CsrName, m ≠ .ctrl → csrValue (writeCsr .ctrl w s) m = csrValue s m) ∧
    writeCsr .ctrl w s = { s with csr := { s.csr with ie := w.getLsbD 0, strict := w.getLsbD 1 } }

/-- R120: the accepted CMD write, register by register. The datapath registers, DROP, CTRL, the operand CSRs, memory
and all else are unchanged. -/
def Obligations.AcceptedCmdWrite : Prop :=
  ∀ (s : State) (w : Word), s.eng.phase = .idle →
    writeCsr .cmd w s =
      { s with
        csr := { s.csr with cmd := w, done := false, err := .ok, resultBytes := 0, resultCount := 0, errAddr := 0 }
        eng := { s.eng with
          phase := .run, rc := 0, wc := 0, ei := 0, race := false
          latch := ⟨w, s.csr.srcAddr, s.csr.srcLen, s.csr.dstAddr, s.csr.dstCap, s.csr.count, s.csr.strict⟩ } } ∧
    (writeCsr .cmd w s).irq = false

/-- R124: a CMD write while a command runs changes STATUS.DROP to 1 and nothing else. -/
def Obligations.DroppedCmdWrite : Prop :=
  ∀ (s : State) (w : Word), s.eng.phase = .run →
    writeCsr .cmd w s = { s with csr := { s.csr with drop := true } }

/-- R39, R281: the interrupt output is the level CTRL.IE & STATUS.DONE; it is cleared by the acknowledgement and by an
accepted CMD write, and masked by CTRL.IE = 0, which keeps DONE; a dropped CMD write does not change it. -/
def Obligations.InterruptLevel : Prop :=
  ∀ (s : State) (w : Word),
    s.irq = (s.csr.ie && s.csr.done) ∧
    (w.getLsbD 1 = true → (writeCsr .status w s).irq = false) ∧
    (s.eng.phase = .idle → (writeCsr .cmd w s).irq = false) ∧
    (w.getLsbD 0 = false → (writeCsr .ctrl w s).irq = false) ∧
    (w.getLsbD 0 = true → (writeCsr .ctrl w s).irq = s.csr.done) ∧
    (writeCsr .ctrl w s).csr.done = s.csr.done ∧
    (s.eng.phase = .run → (writeCsr .cmd w s).irq = s.irq)

/-- R283: the host's return from a completion, with or without error: acknowledging clears DONE and so irq, and keeps the
error code, the error address, the results and everything else. -/
def Obligations.AcknowledgeReturns : Prop :=
  ∀ s : State, acknowledge s = writeCsr .status 2 s ∧ (acknowledge s).irq = false ∧
    acknowledge s = { s with csr := { s.csr with done := false } }

/-! ### Reset -/

/-- R311: the machine right after its first reset since power-on, with any parameters and any data memory. That
`State.reset` holds the default parameters and nothing listed in memory is the model's choice (log 1, log 2). -/
def Obligations.ResetValues : Prop :=
  (∀ (p : Params) (m : Memory),
    let s := State.powerOn p m
    s.csr.ie = false ∧ s.csr.strict = p.strictReset ∧ csrValue s .id = 0x56434531001F0001 ∧ csrValue s .status = 0 ∧
    (∀ n : CsrName, n ≠ .id → n ≠ .ctrl → csrValue s n = 0) ∧
    (∀ off, 0x60 ≤ off → off ≤ 0xF8 → csrRead s (p.csrBase + off) 64 = 0) ∧
    s.irq = false ∧ s.eng.phase = .idle ∧ s.eng.race = false ∧ s.mem = m ∧ s.params = p) ∧
  State.reset = State.powerOn Params.default []

/-- R310, R46: reset at any time: every CSR at its reset value, the engine idle, no race, irq low; no byte of data memory
changes, but for the destination region of a command it abandons, each byte of which that data memory has is a free value
(log 21). Reset comes as a scheduled turn (log 5), and which bytes the host may rely on stays as it was (log 25). -/
def Obligations.ResetStep : Prop :=
  ∀ (s : State) (rest : List Turn), s.params.legal = true → s.turns = .reset :: rest →
    ∃ t, step s = .next t ∧ t.csr = Csrs.reset s.params.strictReset ∧ t.irq = false ∧
      t.eng.phase = .idle ∧ t.eng.race = false ∧ t.host = s.host ∧ t.unseen = s.unseen ∧ t.params = s.params ∧ t.turns = rest ∧
      (s.eng.phase = .idle → t.mem = s.mem) ∧
      (s.eng.phase = .run →
        (∀ a, a < s.eng.latch.dst.toNat ∨ s.eng.latch.dst.toNat + s.eng.latch.cap.toNat ≤ a →
          t.mem.read a = s.mem.read a) ∧
        (s.mem.wf = true → ∀ j, j < s.eng.latch.cap.toNat → s.eng.latch.dst.toNat + j < s.params.memTop →
          t.mem.read (s.eng.latch.dst.toNat + j) = Config.freeByte (s.draws + j)))

/-! ### Data memory -/

/-- R60, R16: in canonical form a written byte reads back and every other byte keeps its value, and the form is kept; two
memories in this form that read alike are equal. -/
def Obligations.MemoryReadAfterWrite : Prop :=
  (∀ (m : Memory) (a a' : Nat) (b : Byte), m.wf = true →
    (m.write a b).read a' = (if a' = a then b else m.read a') ∧ (m.write a b).wf = true) ∧
  ∀ m m' : Memory, m.wf = true → m'.wf = true → (∀ a, m.read a = m'.read a) → m = m'

/-- R63: a sequence written as 8 little-endian bytes per element, in order, at any address, reads back element by
element. -/
def Obligations.ElementLayout : Prop :=
  ∀ (m : Memory) (a : Nat) (vs : List Word), m.wf = true →
    let m' := m.writeBytes a (elementBytes vs)
    elementsFrom m' a 0 vs.length = vs ∧
    ∀ e j, j < 8 → (h : e < vs.length) → (m'.read (a + 8 * e + j)).toNat = (vs[e]).toNat / 256 ^ j % 256

/-- R14, R138: bytes_n and LE are inverse on values below 2^(8n), and LE is the sum of the bytes by place. -/
def Obligations.BytesAndLittleEndianInverse : Prop :=
  (∀ n v, v < 2 ^ (8 * n) → leNat (bytesLE n v) = v) ∧
  (∀ bs : List Byte, bytesLE bs.length (leNat bs) = bs) ∧
  (∀ n v j, j < n → (bytesLE n v)[j]? = some (BitVec.ofNat 8 (v / 256 ^ j))) ∧
  ∀ bs : List Byte, leNat bs = ((List.range bs.length).map (fun j => (bs.getD j 0).toNat * 256 ^ j)).sum

/-! ### Shared bit primitives -/

/-- R135: the minimal byte length of a 64-bit value: 1 for 0, else the n with 2^(8(n-1)) ≤ v < 2^(8n), at most 8. -/
def Obligations.ByteLenMinimal : Prop :=
  ∀ v : Word, 1 ≤ byteLen v.toNat ∧ byteLen v.toNat ≤ 8 ∧ v.toNat < 2 ^ (8 * byteLen v.toNat) ∧
    (byteLen v.toNat = 1 ∨ 2 ^ (8 * (byteLen v.toNat - 1)) ≤ v.toNat)

/-- R136: the trailing ones of a byte: bits below it are ones, the bit at it (if any) is zero, and it is 8 exactly for
0xFF. -/
def Obligations.TrailingOnesOfByte : Prop :=
  ∀ b : Byte, trailingOnes8 b ≤ 8 ∧ (∀ k, k < trailingOnes8 b → b.getLsbD k = true) ∧
    b.getLsbD (trailingOnes8 b) = false ∧ (trailingOnes8 b = 8 ↔ b = 0xFF)

/-- R137: a packed byte is 16 times the high nibble plus the low one; the nibbles of a byte are its quotient and remainder
by 16; so the nibbles of a packed byte are the two that were packed, and every byte is the packing of its nibbles. -/
def Obligations.NibblesPackAndUnpack : Prop :=
  (∀ h l, h ≤ 15 → l ≤ 15 →
    (packNibbles h l).toNat = 16 * h + l ∧ hiNib (packNibbles h l) = h ∧ loNib (packNibbles h l) = l) ∧
  ∀ b : Byte, hiNib b = b.toNat / 16 ∧ loNib b = b.toNat % 16 ∧ packNibbles (hiNib b) (loNib b) = b

/-! ### Groups -/

/-- R150, R101: the canonical LEB128 group of v: n bytes, n the least with v < 2^(7n), from 1 to 10; byte j holds bits
7j+6 to 7j of v, and bit 7 set but in the last. -/
def Obligations.Leb128GroupBytes : Prop :=
  ∀ v : Word, let g := encGroupLeb128 v
    1 ≤ g.length ∧ g.length ≤ 10 ∧ v.toNat < 2 ^ (7 * g.length) ∧
    (∀ m, 1 ≤ m → m < g.length → 2 ^ (7 * m) ≤ v.toNat) ∧
    ∀ j, j < g.length →
      g[j]? = some (BitVec.ofNat 8 (v.toNat / 2 ^ (7 * j) % 128 + (if j + 1 < g.length then 128 else 0)))

/-- R155: a value has a 10-byte LEB128 group exactly when it is 2^63 or more, and no group of another codec is that long
under legal parameters (per element: a NANOLOG singleton). -/
def Obligations.Leb128AloneHasTenByteGroups : Prop :=
  (∀ v : Word, (encGroupLeb128 v).length = 10 ↔ 2 ^ 63 ≤ v.toNat) ∧
  ∀ (p : Params) (c : Codec) (v : Word), p.legal = true → c ≠ .leb128 → (canonicalGroup p c v).length ≤ 9

/-- R170: the canonical PrefixVarint group: for v < 2^56 the k bytes of (v << k) | (2^(k-1) - 1), k the least from 1
with v < 2^(7k); else 0xFF and the 8 bytes of v. -/
def Obligations.PrefixVarintGroupBytes : Prop :=
  ∀ v : Word, let g := encGroupPrefixVarint v
    (v.toNat < 2 ^ 56 → 1 ≤ g.length ∧ g.length ≤ 8 ∧ v.toNat < 2 ^ (7 * g.length) ∧
      (∀ m, 1 ≤ m → m < g.length → 2 ^ (7 * m) ≤ v.toNat) ∧
      leNat g = v.toNat * 2 ^ g.length + (2 ^ (g.length - 1) - 1)) ∧
    (2 ^ 56 ≤ v.toNat → ∃ rest, g = 0xFF :: rest ∧ rest.length = 8 ∧ leNat rest = v.toNat)

/-- R175: against LEB128, the PrefixVarint group has the same length below 2^63 and is one byte shorter from there. -/
def Obligations.PrefixVarintNeverLongerThanLeb128 : Prop :=
  ∀ v : Word,
    (v.toNat < 2 ^ 63 → (encGroupPrefixVarint v).length = (encGroupLeb128 v).length) ∧
    (2 ^ 63 ≤ v.toNat → (encGroupPrefixVarint v).length = 9 ∧ (encGroupLeb128 v).length = 10)

/-- R194: under a legal table the canonical group of v is in the first row whose Max is at least v: one byte in the row's
codes, then the payload; and no later row has a shorter group. -/
def Obligations.BucketGroupBytes : Prop :=
  ∀ (T : List BucketRow) (v : Word), tableLegal T = true →
    ∃ r before after, T = before ++ r :: after ∧ v.toNat ≤ r.max ∧ (∀ r' ∈ before, r'.max < v.toNat) ∧
      (∀ r' ∈ after, r.p ≤ r'.p) ∧
      ∃ b0 rest, encGroupBucket T v = b0 :: rest ∧ rest.length = r.p ∧ r.lo ≤ b0.toNat ∧ b0.toNat ≤ r.hi ∧
        b0.toNat = r.lo + v.toNat / 2 ^ (8 * r.p) ∧ leNat rest = v.toNat % 2 ^ (8 * r.p)

/-- R198: the group lengths under the default LESQLITE_TABLE. -/
def Obligations.LesqliteGroupLengths : Prop :=
  ∀ v : Word, (encGroupBucket lesqliteDefault v).length =
    if v.toNat ≤ 240 then 1 else if v.toNat ≤ 2047 then 2 else if v.toNat ≤ 65535 then 3
    else if v.toNat < 2 ^ 24 then 4 else if v.toNat < 2 ^ 40 then 6 else if v.toNat < 2 ^ 56 then 8 else 9

/-- R224: the group lengths under the two default tables compared, value by value. -/
def Obligations.LesqliteTablesCompared : Prop :=
  ∀ v : Word,
    let a := (encGroupBucket lesqliteDefault v).length
    let b := (encGroupBucket lesqlite2Default v).length
    let n := v.toNat
    if 192 ≤ n ∧ n ≤ 240 then a = 1 ∧ b = 2
    else if 2048 ≤ n ∧ n ≤ 12287 then a = 3 ∧ b = 2
    else if 65536 ≤ n ∧ n ≤ 524287 then a = 4 ∧ b = 3
    else if 2 ^ 24 ≤ n ∧ n < 2 ^ 32 then a = 6 ∧ b = 5
    else if 2 ^ 40 ≤ n ∧ n < 2 ^ 48 then a = 8 ∧ b = 7
    else a = b

/-- R241, R242: the NanoLog groups: the header's nibbles are the two byte lengths (or the one and NANOLOG_PAD), then the
minimal little-endian bytes. -/
def Obligations.NanologGroupBytes : Prop :=
  (∀ a b : Word, ∃ h xs ys, encPair a b = h :: (xs ++ ys) ∧ hiNib h = byteLen a.toNat ∧ loNib h = byteLen b.toNat ∧
    xs.length = byteLen a.toNat ∧ ys.length = byteLen b.toNat ∧ leNat xs = a.toNat ∧ leNat ys = b.toNat ∧
    3 ≤ (encPair a b).length ∧ (encPair a b).length ≤ 17) ∧
  ∀ (pad : Nat) (a : Word), pad ≤ 15 → ∃ h xs, encSingle pad a = h :: xs ∧ hiNib h = byteLen a.toNat ∧ loNib h = pad ∧
    xs.length = byteLen a.toNat ∧ leNat xs = a.toNat ∧ 2 ≤ (encSingle pad a).length ∧ (encSingle pad a).length ≤ 9

/-- R154, R174, R196: reading back a canonical group of a codec with one group per element gives the value, consumes
exactly the group's bytes, raises nothing and touches no memory. -/
def Obligations.CanonicalGroupsReadBack : Prop :=
  ∀ (p : Params) (v : Word) (w : Work), p.legal = true →
    let readsBack := fun (r : Res Word) (g : List Byte) =>
      ∃ w', r = .ok v w' ∧ w'.mem = w.mem ∧ w'.eng.p = BitVec.ofNat 64 (w.eng.p.toNat + g.length)
    (SourceHas p (encGroupLeb128 v) w → readsBack (decGroupLeb128 p w) (encGroupLeb128 v)) ∧
    (SourceHas p (encGroupPrefixVarint v) w → readsBack (decGroupPrefixVarint p w) (encGroupPrefixVarint v)) ∧
    ∀ T, tableLegal T = true → SourceHas p (encGroupBucket T v) w →
      readsBack (decGroupBucket T p w) (encGroupBucket T v)

/-- R106: no canonical buffer has more than 10 bytes an element (9 but for LEB128), so an encode with the source's twice
the input's size, 16 bytes an element, always has room (R274, R321 item 6). -/
def Obligations.CanonicalBufferBounds : Prop :=
  ∀ (p : Params) (c : Codec) (vs : List Word), p.legal = true →
    (canonicalBuffer p c vs).length ≤ 10 * vs.length ∧
    (c ≠ .leb128 → (canonicalBuffer p c vs).length ≤ 9 * vs.length) ∧
    vs.length ≤ (canonicalBuffer p c vs).length

/-! ### Commands that complete -/

/-- R132, R243, R151, R171, R199, R222: ENC.LEB128, ENC.PREFIXVARINT, ENC.LESQLITE, ENC.LESQLITE2 and ENC.NANOLOG complete
with OK where every check passes, the canonical buffer of the elements fits and every byte answers: the buffer stands
from DST on, RESULT_BYTES is its length, RESULT_COUNT is COUNT, and nothing else changes. -/
def Obligations.EncodeCompletes : Prop :=
  ∀ (i : Instr) (s : State), i.dir = .enc → Startable .enc s →
    let l := s.eng.latch
    let out := canonicalBuffer s.params i.codec (elementsFrom s.mem l.src.toNat 0 l.cnt.toNat)
    AllAccessible s.params l.src.toNat (8 * l.cnt.toNat) →
    out.length ≤ l.cap.toNat → AllAccessible s.params l.dst.toNat out.length →
    ∃ t, exec i s = .next t ∧ Ended s t .ok 0 out.length l.cnt.toNat ∧ Wrote s t l.dst.toNat out

/-- R133, R245, R153, R173, R200, R223, R108: DEC.LEB128, DEC.PREFIXVARINT, DEC.LESQLITE, DEC.LESQLITE2 and DEC.NANOLOG
complete with OK where every check passes, the source holds a buffer, canonical or not, of COUNT elements (all of it when
STRICT is latched) and every byte answers: the elements stand from DST on, RESULT_BYTES is what was consumed, RESULT_COUNT
is COUNT, and nothing else changes. -/
def Obligations.DecodeCompletes : Prop :=
  ∀ (i : Instr) (s : State) (bs : List Byte) (vs : List Word), i.dir = .dec → Startable .dec s →
    Buffer s.params i.codec bs vs → vs.length = s.eng.latch.cnt.toNat → SourceStarts s bs →
    (s.eng.latch.strict = true → bs.length = s.eng.latch.slen.toNat) →
    AllAccessible s.params s.eng.latch.dst.toNat (8 * vs.length) →
    ∃ t, exec i s = .next t ∧ Ended s t .ok 0 bs.length vs.length ∧
      Wrote s t s.eng.latch.dst.toNat (elementBytes vs)

/-- R139, R246: the round trip. From an idle machine in any state, the host encodes n elements at a into b and decodes the
result into d. The regions of each command share no byte (R123: an empty region shares none), each that is not empty lies
in data memory, none shares a byte with a device, and every byte involved is accessible. Both commands complete with OK;
the decode consumes exactly the bytes the encode wrote, and leaves the elements at d. Each command is one step (log 6),
the next one as no turn is scheduled (log 5); that a device elsewhere is no hindrance is log 9, and that an empty region
may stand anywhere is log 24. -/
def Obligations.RoundTrip : Prop :=
  ∀ (c : Codec) (s : State) (a b d n cap cap' len' : Word),
    s.params.legal = true → s.eng.phase = .idle → s.turns = [] → s.mem.wf = true →
    let vs := elementsFrom s.mem a.toNat 0 n.toNat
    let m := (canonicalBuffer s.params c vs).length
    let i := instrOf c .enc
    let i' := instrOf c .dec
    let inside := fun (base size : Nat) => 0 < size → base + size ≤ 2 ^ s.params.addrBits
    let overlap := fun (x xs y ys : Nat) => 0 < xs ∧ 0 < ys ∧ x < y + ys ∧ y < x + xs
    m ≤ cap.toNat → 8 * n.toNat ≤ cap'.toNat →
    AllAccessible s.params a.toNat (8 * n.toNat) → AllAccessible s.params b.toNat m →
    AllAccessible s.params d.toNat (8 * n.toNat) →
    inside a.toNat (8 * n.toNat) → inside b.toNat cap.toNat → inside d.toNat cap'.toNat →
    ¬ overlap a.toNat (8 * n.toNat) b.toNat cap.toNat → ¬ overlap b.toNat m d.toNat cap'.toNat →
    (∀ r ∈ s.params.sideEffects, ¬ overlap r.base r.size a.toNat (8 * n.toNat) ∧
      ¬ overlap r.base r.size b.toNat cap.toNat ∧ ¬ overlap r.base r.size d.toNat cap'.toNat) →
    ∃ t t', step (commanded i a len' b cap n s) = .next t ∧
      t.csr.err = .ok ∧ t.csr.resultBytes = BitVec.ofNat 64 m ∧ t.csr.done = true ∧
      step (commanded i' b t.csr.resultBytes d cap' n t) = .next t' ∧
      t'.csr.err = .ok ∧ t'.csr.resultBytes = BitVec.ofNat 64 m ∧ t'.csr.resultCount = n ∧ t'.csr.done = true ∧
      elementsFrom t'.mem d.toNat 0 n.toNat = vs

/-! ### Start checks -/

/-- R123, R272, R273, R274 item 1: the start checks of every command, in their order, each with its code and address, no
progress and no memory access. Regions that touch do not overlap, and an empty region fails no region check
(log 24). -/
def Obligations.StartChecksInOrder : Prop :=
  ∀ (i : Instr) (s : State), s.params.legal = true → s.raced i.dir = false → Fresh s.eng →
    let l := s.eng.latch
    let top := 2 ^ s.params.addrBits
    let len := (if i.dir = .enc then 8 * l.cnt.toNat else l.slen.toNat)
    let fails := fun (code : ErrCode) (addr : Nat) => ∃ t, exec i s = .next t ∧ Ended s t code addr 0 0 ∧ t.mem = s.mem
    let srcOut := 0 < len ∧ top < l.src.toNat + len
    let dstOut := 0 < l.cap.toNat ∧ top < l.dst.toNat + l.cap.toNat
    let overlap := 0 < len ∧ 0 < l.cap.toNat ∧ l.src.toNat < l.dst.toNat + l.cap.toNat ∧ l.dst.toNat < l.src.toNat + len
    let noRoom := i.dir = .dec ∧ l.cap.toNat < 8 * l.cnt.toNat
    (srcOut → fails .badRegion l.src.toNat) ∧
    (¬ srcOut → dstOut → fails .badRegion l.dst.toNat) ∧
    (¬ srcOut → ¬ dstOut → overlap → fails .overlap l.dst.toNat) ∧
    (¬ srcOut → ¬ dstOut → ¬ overlap → noRoom → fails .bufferTooSmall l.dst.toNat) ∧
    (¬ srcOut → ¬ dstOut → ¬ overlap → ¬ noRoom → Startable i.dir s)

/-! ### Commands that end with an error after some groups -/

/-- R127, R131, R274 item 2: an encode whose next group does not fit ends with BUFFER_TOO_SMALL at the first byte the group
would have used; no byte of it is written and every earlier group stays. Where that byte's address is 2^64 (the region is
full and ends at the top of a 64-bit space) nothing is said of ERR_ADDR (log 8). -/
def Obligations.EncodeBufferTooSmall : Prop :=
  ∀ (i : Instr) (s : State) (j : Nat), i.dir = .enc → Startable .enc s →
    let l := s.eng.latch
    let n := l.cnt.toNat
    let out := canonicalBuffer s.params i.codec (elementsFrom s.mem l.src.toNat 0 j)
    let g := firstGroup s.params i.codec (elementsFrom s.mem l.src.toNat j (n - j))
    j < n → (i.codec = .nanolog → j % 2 = 0) →
    AllAccessible s.params l.src.toNat (8 * (j + groupElements i.codec (n - j))) →
    out.length ≤ l.cap.toNat → AllAccessible s.params l.dst.toNat out.length →
    l.cap.toNat < out.length + g.length →
    ∃ t, exec i s = .next t ∧ Ended s t .bufferTooSmall (l.dst.toNat + out.length) out.length j ∧
      Wrote s t l.dst.toNat out

/-- R278, R279 item 3: an encode stopped by the bus at a byte of its next group, which fits, reports that byte; the bytes
of the group before it are written, and the progress counts the earlier groups alone. -/
def Obligations.EncodeBusErrorOnWrite : Prop :=
  ∀ (i : Instr) (s : State) (j k : Nat), i.dir = .enc → Startable .enc s →
    let l := s.eng.latch
    let n := l.cnt.toNat
    let out := canonicalBuffer s.params i.codec (elementsFrom s.mem l.src.toNat 0 j)
    let g := firstGroup s.params i.codec (elementsFrom s.mem l.src.toNat j (n - j))
    j < n → (i.codec = .nanolog → j % 2 = 0) →
    AllAccessible s.params l.src.toNat (8 * (j + groupElements i.codec (n - j))) →
    out.length + g.length ≤ l.cap.toNat → k < g.length →
    AllAccessible s.params l.dst.toNat (out.length + k) →
    s.params.accessibleAt (l.dst.toNat + out.length + k) = false →
    ∃ t, exec i s = .next t ∧ Ended s t .busError (l.dst.toNat + out.length + k) out.length j ∧
      Wrote s t l.dst.toNat (out ++ g.take k)

/-- R278, R279 item 3: an encode stopped by the bus at a byte of the elements of its next group reports that byte, before
the group's capacity is looked at; the earlier groups stay, and nothing of this one is written. -/
def Obligations.EncodeBusErrorOnRead : Prop :=
  ∀ (i : Instr) (s : State) (j k : Nat), i.dir = .enc → Startable .enc s →
    let l := s.eng.latch
    let n := l.cnt.toNat
    let out := canonicalBuffer s.params i.codec (elementsFrom s.mem l.src.toNat 0 j)
    j < n → (i.codec = .nanolog → j % 2 = 0) →
    k < 8 * groupElements i.codec (n - j) →
    AllAccessible s.params l.src.toNat (8 * j + k) →
    s.params.accessibleAt (l.src.toNat + 8 * j + k) = false →
    out.length ≤ l.cap.toNat → AllAccessible s.params l.dst.toNat out.length →
    ∃ t, exec i s = .next t ∧ Ended s t .busError (l.src.toNat + 8 * j + k) out.length j ∧
      Wrote s t l.dst.toNat out

/-- R275, R131: a decode whose buffer ends inside a group, or before it, ends with TRUNCATED_INPUT at SRC + SLEN; the
group is not stored, the earlier elements are, and the progress counts the earlier groups alone. Where SRC + SLEN is
2^64 nothing is said of ERR_ADDR (log 8). -/
def Obligations.DecodeTruncated : Prop :=
  ∀ (i : Instr) (s : State) (bs part : List Byte) (vs : List Word), i.dir = .dec → Startable .dec s →
    Buffer s.params i.codec bs vs → MoreToDecode i.codec s vs → SourceStarts s (bs ++ part) →
    Incomplete s.params i.codec (lastAfter s vs.length) part →
    bs.length + part.length = s.eng.latch.slen.toNat →
    AllAccessible s.params s.eng.latch.dst.toNat (8 * vs.length) →
    ∃ t, exec i s = .next t ∧
      Ended s t .truncatedInput (s.eng.latch.src.toNat + s.eng.latch.slen.toNat) bs.length vs.length ∧
      Wrote s t s.eng.latch.dst.toNat (elementBytes vs)

/-- R278, R279 item 4: a decode stopped by the bus at a byte a group still needs, before the buffer's end, reports that
byte. -/
def Obligations.DecodeBusErrorOnRead : Prop :=
  ∀ (i : Instr) (s : State) (bs part : List Byte) (vs : List Word), i.dir = .dec → Startable .dec s →
    Buffer s.params i.codec bs vs → MoreToDecode i.codec s vs → SourceStarts s (bs ++ part) →
    Incomplete s.params i.codec (lastAfter s vs.length) part →
    bs.length + part.length < s.eng.latch.slen.toNat →
    s.params.accessibleAt (s.eng.latch.src.toNat + bs.length + part.length) = false →
    AllAccessible s.params s.eng.latch.dst.toNat (8 * vs.length) →
    ∃ t, exec i s = .next t ∧
      Ended s t .busError (s.eng.latch.src.toNat + bs.length + part.length) bs.length vs.length ∧
      Wrote s t s.eng.latch.dst.toNat (elementBytes vs)

/-- R276: a decode that reads a byte no well-formed group holds there ends with MALFORMED_INPUT at that byte: a tenth
LEB128 byte with bit 7 set, a reserved leSQLite first byte, a NanoLog length nibble outside 1 to 8 (the low nibble of a
singleton is not looked at). The group is not stored. -/
def Obligations.DecodeMalformed : Prop :=
  ∀ (i : Instr) (s : State) (bs part : List Byte) (vs : List Word), i.dir = .dec → Startable .dec s →
    Buffer s.params i.codec bs vs → MoreToDecode i.codec s vs → SourceStarts s (bs ++ part) →
    Malformed s.params i.codec (lastAfter s vs.length) part →
    AllAccessible s.params s.eng.latch.dst.toNat (8 * vs.length) →
    ∃ t, exec i s = .next t ∧
      Ended s t .malformedInput (s.eng.latch.src.toNat + bs.length + part.length - 1) bs.length vs.length ∧
      Wrote s t s.eng.latch.dst.toNat (elementBytes vs)

/-- R278: a decode stopped by the bus at a byte of an element it stores reports that byte; the bytes of its group's
elements before it are written, and the progress counts the earlier groups alone. -/
def Obligations.DecodeBusErrorOnWrite : Prop :=
  ∀ (i : Instr) (s : State) (bs g : List Byte) (vs xs : List Word) (k : Nat), i.dir = .dec → Startable .dec s →
    Buffer s.params i.codec bs vs → MoreToDecode i.codec s vs → SourceStarts s (bs ++ g) →
    OneGroup s.params i.codec (lastAfter s vs.length) g xs → k < 8 * xs.length →
    AllAccessible s.params s.eng.latch.dst.toNat (8 * vs.length + k) →
    s.params.accessibleAt (s.eng.latch.dst.toNat + 8 * vs.length + k) = false →
    ∃ t, exec i s = .next t ∧
      Ended s t .busError (s.eng.latch.dst.toNat + 8 * vs.length + k) bs.length vs.length ∧
      Wrote s t s.eng.latch.dst.toNat (elementBytes vs ++ (elementBytes xs).take k)

/-- R277, R134: a strict decode that leaves source bytes unconsumed ends with COUNT_MISMATCH at the first of them, with
every element stored. -/
def Obligations.DecodeCountMismatch : Prop :=
  ∀ (i : Instr) (s : State) (bs : List Byte) (vs : List Word), i.dir = .dec → Startable .dec s →
    Buffer s.params i.codec bs vs → vs.length = s.eng.latch.cnt.toNat → SourceStarts s bs →
    s.eng.latch.strict = true → bs.length < s.eng.latch.slen.toNat →
    AllAccessible s.params s.eng.latch.dst.toNat (8 * vs.length) →
    ∃ t, exec i s = .next t ∧
      Ended s t .countMismatch (s.eng.latch.src.toNat + bs.length) bs.length vs.length ∧
      Wrote s t s.eng.latch.dst.toNat (elementBytes vs)

/-! ### Every command -/

/-- R130, R279: under legal parameters every command, whatever its operands, ends in one completion: the engine idle, DONE
set, irq following CTRL.IE. Unraced, it reports the cursors: i.WC or i.RC, and i.EI; and it draws nothing free. -/
def Obligations.EveryCommandCompletes : Prop :=
  ∀ (i : Instr) (s : State), s.params.legal = true →
    ∃ t, exec i s = .next t ∧ t.eng.phase = .idle ∧ t.csr.done = true ∧ t.irq = s.csr.ie ∧ CommandFrame s t ∧
      (s.raced i.dir = false →
        t.csr.resultBytes = (if i.dir = .enc then t.eng.wc else t.eng.rc) ∧ t.csr.resultCount = t.eng.ei ∧
        t.draws = s.draws ∧ (t.csr.err = .ok → t.csr.errAddr = 0))

/-- R42, R43: of the engine's cursors and datapath an unraced command changes only those its loop uses: an encode leaves
i.RC and i.P, a decode leaves i.WC, no command but DEC.LEB128 changes i.ACC or i.SH, and none but DEC.NANOLOG changes
i.HDR. -/
def Obligations.DatapathFrame : Prop :=
  ∀ (i : Instr) (s t : State), s.raced i.dir = false → exec i s = .next t →
    (i.dir = .enc → t.eng.rc = s.eng.rc ∧ t.eng.p = s.eng.p) ∧
    (i.dir = .dec → t.eng.wc = s.eng.wc) ∧
    (i ≠ .decLeb128 → t.eng.acc = s.eng.acc ∧ t.eng.sh = s.eng.sh) ∧
    (i ≠ .decNanolog → t.eng.hdr = s.eng.hdr)

/-- R70, R33: no command writes outside its destination region [DST, DST + CAP); one that is not raced writes no byte of
its source region either, and changes nothing but what completion writes. -/
def Obligations.EngineWritesOnlyDestination : Prop :=
  ∀ (i : Instr) (s t : State), exec i s = .next t →
    CommandFrame s t ∧
    (∀ a, a < s.eng.latch.dst.toNat ∨ s.eng.latch.dst.toNat + s.eng.latch.cap.toNat ≤ a →
      t.mem.read a = s.mem.read a) ∧
    (s.raced i.dir = false → ∀ a, (srcRegion i.dir s.eng.latch).has a = true → t.mem.read a = s.mem.read a)

/-- R121: a command is a function of its inputs. Two unraced commands with equal latches, on machines whose memories agree
on the source region and whatever else they hold, end with the same code, results and error address; and every byte either
is the same in both afterwards or was written by neither. -/
def Obligations.CommandIsFunctionOfInputs : Prop :=
  ∀ (i : Instr) (s s' : State), s.params = s'.params → s.params.legal = true → s.eng.latch = s'.eng.latch →
    Fresh s.eng → Fresh s'.eng → s.raced i.dir = false → s'.raced i.dir = false →
    s.mem.wf = true → s'.mem.wf = true →
    (∀ a, (srcRegion i.dir s.eng.latch).has a = true → s.mem.read a = s'.mem.read a) →
    ∃ t t', exec i s = .next t ∧ exec i s' = .next t' ∧
      t.csr.err = t'.csr.err ∧ t.csr.errAddr = t'.csr.errAddr ∧ t.csr.resultBytes = t'.csr.resultBytes ∧
      t.csr.resultCount = t'.csr.resultCount ∧
      ∀ a, t.mem.read a = t'.mem.read a ∨ (t.mem.read a = s.mem.read a ∧ t'.mem.read a = s'.mem.read a)

/-! ### Races -/

/-- R72, R44, R68: a host write of a byte sets i.RACE exactly if it is a byte of a running command's source or destination
region. A raced command, or one whose region shares a byte with a device whose reads have side effects (log 9), still
completes, with every byte of its destination region that data memory has (log 21), the error code and the three results
free (log 7) and no byte outside the region changed. R321 item 3, R74: a host read returns a fresh free byte (log 14)
where the byte is in the destination region of the running command, or of one that has completed since the host last read
STATUS with DONE = 1 (every completion puts its region there, as `CommandFrame` says; log 25), and else the byte of
memory; and after a read of STATUS that returns DONE = 1, with the engine idle, every host read returns the byte of
memory. -/
def Obligations.RaceRule : Prop :=
  (∀ (s : State) (a : Nat) (b : Byte), a < 2 ^ s.params.addrBits →
    access (.memWrite a b) s = .next { s with
      mem := s.mem.write a b
      eng := { s.eng with race := s.eng.race || (decide (s.eng.phase = .run) &&
        ((srcRegion (dirOf s.eng.latch.cmd) s.eng.latch).has a || (dstRegion s.eng.latch).has a)) } }) ∧
  (∀ (i : Instr) (s : State), s.params.legal = true →
    (s.eng.race = true ∨ ∃ r ∈ s.params.sideEffects,
      r.meets (srcRegion i.dir s.eng.latch) = true ∨ r.meets (dstRegion s.eng.latch) = true) →
    ∃ t, exec i s = .next t ∧ t.eng.phase = .idle ∧ t.csr.done = true ∧ CommandFrame s t ∧
      t.csr.err = errOfNumber (Config.freeErrCode s.draws).val ∧ t.csr.resultBytes = Config.freeWord s.draws ∧
      t.csr.resultCount = Config.freeWord (s.draws + 1) ∧ t.csr.errAddr = Config.freeWord (s.draws + 2) ∧
      (∀ a, a < s.eng.latch.dst.toNat ∨ s.eng.latch.dst.toNat + s.eng.latch.cap.toNat ≤ a →
        t.mem.read a = s.mem.read a) ∧
      (s.mem.wf = true → ∀ j, j < s.eng.latch.cap.toNat → s.eng.latch.dst.toNat + j < 2 ^ s.params.addrBits →
        t.mem.read (s.eng.latch.dst.toNat + j) = Config.freeByte (s.draws + j))) ∧
  (∀ (s : State) (a : Nat), a < 2 ^ s.params.addrBits →
    let hidden := (s.eng.phase = .run ∧ s.eng.latch.dst.toNat ≤ a ∧
        a < s.eng.latch.dst.toNat + s.eng.latch.cap.toNat) ∨
      ∃ r ∈ s.unseen, r.base ≤ a ∧ a < r.base + r.size
    (hidden → access (.memRead a) s = .next { s with
      host := { s.host with rdata := BitVec.ofNat 64 (Config.freeByte s.draws).toNat }
      draws := s.draws + 1 }) ∧
    (¬ hidden → access (.memRead a) s = .next { s with
      host := { s.host with rdata := BitVec.ofNat 64 (s.mem.read a).toNat } })) ∧
  ∀ (s : State) (a : Nat), s.eng.phase = .idle → s.csr.done = true → a < 2 ^ s.params.addrBits →
    ∃ t, access (.csrRead (s.params.csrBase + csrOffset .status) 64) s = .next t ∧ t.mem = s.mem ∧
      access (.memRead a) t = .next { t with
        host := { t.host with rdata := BitVec.ofNat 64 (s.mem.read a).toNat } }

/-- R321 item 2, R75: a step of an agent that writes no byte of a running command's regions starts no race. Which access
the next step makes is the schedule's (log 5). -/
def Obligations.RespectfulAccessStartsNoRace : Prop :=
  ∀ s t : State, s.eng.race = false → (∀ acc, nextAccess s = some acc → accessRespects s acc = true) →
    step s = .next t → t.eng.race = false

/-! ### Steps of the machine -/

/-- The invariant holds right after reset, with the memory and the engine registers that are the model's choice there
(log 2, log 3). -/
def Obligations.InvariantHoldsAtReset : Prop := Inv State.reset

/-- Every step of every agent keeps the invariant: memory in canonical form and inside data memory (R60), the shift offset
at most 63 and the group at most 17 bytes (R43), and while a command runs DONE, ERR and the results clear, the cursors at 0
(log 6) and CMD the word that runs (R321 item 8, R29). -/
def Obligations.StepKeepsInvariant : Prop :=
  ∀ s t : State, Inv s → step s = .next t → Inv t

/-- R292, R311: an idle engine takes no step of its own. That its turn is then a next state which only takes the turn off
the schedule is the model's choice (log 5, log 20). -/
def Obligations.IdleEngineTakesNoStep : Prop :=
  ∀ (s : State) (rest : List Turn), s.params.legal = true → s.eng.phase = .idle → s.turns = .engine :: rest →
    step s = .next { s with turns := rest }

/-- R320: a running command leaves RUN within as many steps as turns are scheduled, and one more, whatever the other
agents do meanwhile with bytes that data memory has. The schedule and the order after it are the model's (log 5). -/
def Obligations.RunningCommandEnds : Prop :=
  ∀ s : State, s.params.legal = true → s.eng.phase = .run → allInSpace s = true →
    ∃ k t, k ≤ s.turns.length + 1 ∧ core.run k s = .next t ∧ t.eng.phase = .idle

/-- R96, R322: the host's step, whenever the host moves: its turn is scheduled, in either phase of the engine, or no turn
is and the engine is idle (log 5). It makes the next byte write of a `memw` or `memw64`, else runs the next statement of
its program (log 12), else does nothing (log 20). So a `csrr STATUS` polls a running command and a `csrw CMD` may be
dropped (R124). A `csrr STATUS` that returns DONE = 1 is the host's acquire (R74; log 25). -/
def Obligations.HostStatementSteps : Prop :=
  ∀ (s : State) (rest : List Turn), s.params.legal = true →
    (s.turns = .host :: rest ∨ (s.turns = [] ∧ rest = [] ∧ s.eng.phase = .idle)) →
    let u := { s with turns := rest }
    (∀ acc more, s.host.pending = acc :: more →
      step s = access acc { u with host := { s.host with pending := more } }) ∧
    (s.host.pending = [] → s.host.prog[s.host.pc]? = none → step s = .next u) ∧
    ∀ st, s.host.pending = [] → s.host.prog[s.host.pc]? = some st →
      match st with
      | .csrw r v => step s = .next (writeCsr r v { u with host := { s.host with pc := s.host.pc + 1 } })
      | .csrr t r => ∃ s', step s = .next s' ∧ getVar s'.host.vars t = csrValue s r ∧ s'.host.rdata = csrValue s r ∧
          (∀ v, v ≠ t → getVar s'.host.vars v = getVar s.host.vars v) ∧ s'.host.pc = s.host.pc + 1 ∧
          s' = { u with
            host := { s.host with pc := s'.host.pc, vars := s'.host.vars, rdata := s'.host.rdata }
            unseen := if r = .status ∧ s.csr.done = true then [] else s.unseen }
      | .bz t k target => step s = .next { u with host := { s.host with
          pc := if (getVar s.host.vars t).getLsbD k = false then target else s.host.pc + 1 } }
      | .memw a bs => step s = .next { u with host := { s.host with
          pc := s.host.pc + 1, pending := byteWrites a bs } }
      | .memw64 a vs => step s = .next { u with host := { s.host with
          pc := s.host.pc + 1, pending := byteWrites a (elementBytes vs) } }
      | .halt => step s = .next { u with host := { s.host with pc := s.host.prog.length } }

/-- R96, R63: `memw` and `memw64` write their bytes, in one step to start them and one a byte (log 12), and nothing else.
The host moves as no turn is scheduled (log 5). -/
def Obligations.HostMemoryStatements : Prop :=
  ∀ (s : State) (a : Nat) (bs : List Byte) (vs : List Word), s.params.legal = true → s.eng.phase = .idle →
    s.turns = [] → s.host.pending = [] → a + bs.length ≤ s.params.memTop →
    (s.host.prog[s.host.pc]? = some (.memw a bs) ∨
      (s.host.prog[s.host.pc]? = some (.memw64 a vs) ∧ bs = elementBytes vs)) →
    ∃ t, core.run (1 + bs.length) s = .next t ∧ Wrote s t a bs ∧
      t = { s with mem := t.mem, host := { s.host with pc := s.host.pc + 1 } }

/-- R97: wherever it stands in a program, each pseudo-instruction assembles to its expansion, followed by what the rest
of the program assembles to. That the fresh label of `wait_done` is the index of its own first statement, and that the
polled variable is named, is log 23. -/
def Obligations.PseudoInstructionsExpand : Prop :=
  ∀ (env : List (Nat × Nat)) (i : Nat) (rest : List HostLine) (out : List HostStmt)
    (c : Codec) (src len n dst cap : Word) (t : Nat),
    (assembleFrom env (i + 2) rest = some out →
      assembleFrom env i (.waitDone t :: rest) = some ([.csrr t .status, .bz t 1 i] ++ out)) ∧
    (assembleFrom env (i + 1) rest = some out →
      assembleFrom env i (.vceAck :: rest) = some ([.csrw .status 2] ++ out)) ∧
    (assembleFrom env (i + 7) rest = some out →
      assembleFrom env i (.vceEnc c src n dst cap t :: rest) = some ([.csrw .srcAddr src, .csrw .count n,
        .csrw .dstAddr dst, .csrw .dstCap cap, .csrw .cmd (encode (instrOf c .enc)), .csrr t .status, .bz t 1 (i + 5)]
        ++ out)) ∧
    (assembleFrom env (i + 8) rest = some out →
      assembleFrom env i (.vceDec c src len dst cap n t :: rest) = some ([.csrw .srcAddr src, .csrw .srcLen len,
        .csrw .dstAddr dst, .csrw .dstCap cap, .csrw .count n, .csrw .cmd (encode (instrOf c .dec)), .csrr t .status,
        .bz t 1 (i + 6)] ++ out))
end

