-- ==== Sys2Proof/Laws/State.lean ====
section
/-! SUPPORT. One lemma per field per update of the state and of a command's work, true by rfl. -/

namespace Sys2Proof.Machine

section

variable (s : State) (w : Work) (v : Word) (d : Dir) (c : ErrCode) (a n : Nat) (b : Byte) (l : List Access)

@[simp] theorem startCommand_mem : (startCommand v s).mem = s.mem := rfl
@[simp] theorem startCommand_params : (startCommand v s).params = s.params := rfl
@[simp] theorem startCommand_host : (startCommand v s).host = s.host := rfl
@[simp] theorem startCommand_turns : (startCommand v s).turns = s.turns := rfl
@[simp] theorem startCommand_unseen : (startCommand v s).unseen = s.unseen := rfl
@[simp] theorem startCommand_draws : (startCommand v s).draws = s.draws := rfl

@[simp] theorem startCommand_csr_ie : (startCommand v s).csr.ie = s.csr.ie := rfl
@[simp] theorem startCommand_csr_strict : (startCommand v s).csr.strict = s.csr.strict := rfl
@[simp] theorem startCommand_csr_done : (startCommand v s).csr.done = false := rfl
@[simp] theorem startCommand_csr_drop : (startCommand v s).csr.drop = s.csr.drop := rfl
@[simp] theorem startCommand_csr_err : (startCommand v s).csr.err = .ok := rfl
@[simp] theorem startCommand_csr_cmd : (startCommand v s).csr.cmd = v := rfl
@[simp] theorem startCommand_csr_srcAddr : (startCommand v s).csr.srcAddr = s.csr.srcAddr := rfl
@[simp] theorem startCommand_csr_srcLen : (startCommand v s).csr.srcLen = s.csr.srcLen := rfl
@[simp] theorem startCommand_csr_dstAddr : (startCommand v s).csr.dstAddr = s.csr.dstAddr := rfl
@[simp] theorem startCommand_csr_dstCap : (startCommand v s).csr.dstCap = s.csr.dstCap := rfl
@[simp] theorem startCommand_csr_count : (startCommand v s).csr.count = s.csr.count := rfl
@[simp] theorem startCommand_csr_resultBytes : (startCommand v s).csr.resultBytes = 0 := rfl
@[simp] theorem startCommand_csr_resultCount : (startCommand v s).csr.resultCount = 0 := rfl
@[simp] theorem startCommand_csr_errAddr : (startCommand v s).csr.errAddr = 0 := rfl
@[simp] theorem startCommand_eng_phase : (startCommand v s).eng.phase = .run := rfl
@[simp] theorem startCommand_eng_latch : (startCommand v s).eng.latch = latchOperands s.csr v := rfl
@[simp] theorem startCommand_eng_rc : (startCommand v s).eng.rc = 0 := rfl
@[simp] theorem startCommand_eng_wc : (startCommand v s).eng.wc = 0 := rfl
@[simp] theorem startCommand_eng_ei : (startCommand v s).eng.ei = 0 := rfl
@[simp] theorem startCommand_eng_acc : (startCommand v s).eng.acc = s.eng.acc := rfl
@[simp] theorem startCommand_eng_sh : (startCommand v s).eng.sh = s.eng.sh := rfl
@[simp] theorem startCommand_eng_hdr : (startCommand v s).eng.hdr = s.eng.hdr := rfl
@[simp] theorem startCommand_eng_p : (startCommand v s).eng.p = s.eng.p := rfl
@[simp] theorem startCommand_eng_g : (startCommand v s).eng.g = s.eng.g := rfl
@[simp] theorem startCommand_eng_race : (startCommand v s).eng.race = false := rfl

@[simp] theorem dropCommand_eng : (dropCommand s).eng = s.eng := rfl
@[simp] theorem dropCommand_mem : (dropCommand s).mem = s.mem := rfl
@[simp] theorem dropCommand_params : (dropCommand s).params = s.params := rfl
@[simp] theorem dropCommand_host : (dropCommand s).host = s.host := rfl
@[simp] theorem dropCommand_turns : (dropCommand s).turns = s.turns := rfl
@[simp] theorem dropCommand_unseen : (dropCommand s).unseen = s.unseen := rfl
@[simp] theorem dropCommand_draws : (dropCommand s).draws = s.draws := rfl

@[simp] theorem dropCommand_csr_drop : (dropCommand s).csr.drop = true := rfl

@[simp] theorem withWork_csr : (withWork w s).csr = s.csr := rfl
@[simp] theorem withWork_params : (withWork w s).params = s.params := rfl
@[simp] theorem withWork_host : (withWork w s).host = s.host := rfl
@[simp] theorem withWork_turns : (withWork w s).turns = s.turns := rfl
@[simp] theorem withWork_unseen : (withWork w s).unseen = s.unseen := rfl
@[simp] theorem withWork_draws : (withWork w s).draws = s.draws := rfl

@[simp] theorem withWork_eng : (withWork w s).eng = w.eng := rfl
@[simp] theorem withWork_mem : (withWork w s).mem = w.mem := rfl

@[simp] theorem complete_mem : (complete d c a s).mem = s.mem := rfl
@[simp] theorem complete_params : (complete d c a s).params = s.params := rfl
@[simp] theorem complete_host : (complete d c a s).host = s.host := rfl
@[simp] theorem complete_turns : (complete d c a s).turns = s.turns := rfl
@[simp] theorem complete_unseen : (complete d c a s).unseen = dstRegion s.eng.latch :: s.unseen := rfl
@[simp] theorem complete_draws : (complete d c a s).draws = s.draws := rfl

@[simp] theorem complete_csr_ie : (complete d c a s).csr.ie = s.csr.ie := rfl
@[simp] theorem complete_csr_strict : (complete d c a s).csr.strict = s.csr.strict := rfl
@[simp] theorem complete_csr_done : (complete d c a s).csr.done = true := rfl
@[simp] theorem complete_csr_drop : (complete d c a s).csr.drop = s.csr.drop := rfl
@[simp] theorem complete_csr_err : (complete d c a s).csr.err = c := rfl
@[simp] theorem complete_csr_cmd : (complete d c a s).csr.cmd = s.csr.cmd := rfl
@[simp] theorem complete_csr_srcAddr : (complete d c a s).csr.srcAddr = s.csr.srcAddr := rfl
@[simp] theorem complete_csr_srcLen : (complete d c a s).csr.srcLen = s.csr.srcLen := rfl
@[simp] theorem complete_csr_dstAddr : (complete d c a s).csr.dstAddr = s.csr.dstAddr := rfl
@[simp] theorem complete_csr_dstCap : (complete d c a s).csr.dstCap = s.csr.dstCap := rfl
@[simp] theorem complete_csr_count : (complete d c a s).csr.count = s.csr.count := rfl
@[simp] theorem complete_csr_resultBytes : (complete d c a s).csr.resultBytes = progressBytes d s.eng := rfl
@[simp] theorem complete_csr_resultCount : (complete d c a s).csr.resultCount = s.eng.ei := rfl
@[simp] theorem complete_csr_errAddr : (complete d c a s).csr.errAddr = errAddrWord d c a s.eng := rfl
@[simp] theorem complete_eng_phase : (complete d c a s).eng.phase = .idle := rfl
@[simp] theorem complete_eng_latch : (complete d c a s).eng.latch = s.eng.latch := rfl
@[simp] theorem complete_eng_rc : (complete d c a s).eng.rc = s.eng.rc := rfl
@[simp] theorem complete_eng_wc : (complete d c a s).eng.wc = s.eng.wc := rfl
@[simp] theorem complete_eng_ei : (complete d c a s).eng.ei = s.eng.ei := rfl
@[simp] theorem complete_eng_acc : (complete d c a s).eng.acc = s.eng.acc := rfl
@[simp] theorem complete_eng_sh : (complete d c a s).eng.sh = s.eng.sh := rfl
@[simp] theorem complete_eng_hdr : (complete d c a s).eng.hdr = s.eng.hdr := rfl
@[simp] theorem complete_eng_p : (complete d c a s).eng.p = s.eng.p := rfl
@[simp] theorem complete_eng_g : (complete d c a s).eng.g = s.eng.g := rfl
@[simp] theorem complete_eng_race : (complete d c a s).eng.race = s.eng.race := rfl

@[simp] theorem acknowledge_eng : (acknowledge s).eng = s.eng := rfl
@[simp] theorem acknowledge_mem : (acknowledge s).mem = s.mem := rfl
@[simp] theorem acknowledge_params : (acknowledge s).params = s.params := rfl
@[simp] theorem acknowledge_host : (acknowledge s).host = s.host := rfl
@[simp] theorem acknowledge_turns : (acknowledge s).turns = s.turns := rfl
@[simp] theorem acknowledge_unseen : (acknowledge s).unseen = s.unseen := rfl
@[simp] theorem acknowledge_draws : (acknowledge s).draws = s.draws := rfl

@[simp] theorem completeRaced_params : (completeRaced s).params = s.params := rfl
@[simp] theorem completeRaced_host : (completeRaced s).host = s.host := rfl
@[simp] theorem completeRaced_turns : (completeRaced s).turns = s.turns := rfl
@[simp] theorem completeRaced_unseen : (completeRaced s).unseen = dstRegion s.eng.latch :: s.unseen := rfl

@[simp] theorem completeRaced_csr_ie : (completeRaced s).csr.ie = s.csr.ie := rfl
@[simp] theorem completeRaced_csr_strict : (completeRaced s).csr.strict = s.csr.strict := rfl
@[simp] theorem completeRaced_csr_drop : (completeRaced s).csr.drop = s.csr.drop := rfl
@[simp] theorem completeRaced_csr_cmd : (completeRaced s).csr.cmd = s.csr.cmd := rfl
@[simp] theorem completeRaced_csr_srcAddr : (completeRaced s).csr.srcAddr = s.csr.srcAddr := rfl
@[simp] theorem completeRaced_csr_srcLen : (completeRaced s).csr.srcLen = s.csr.srcLen := rfl
@[simp] theorem completeRaced_csr_dstAddr : (completeRaced s).csr.dstAddr = s.csr.dstAddr := rfl
@[simp] theorem completeRaced_csr_dstCap : (completeRaced s).csr.dstCap = s.csr.dstCap := rfl
@[simp] theorem completeRaced_csr_count : (completeRaced s).csr.count = s.csr.count := rfl
@[simp] theorem completeRaced_csr_done : (completeRaced s).csr.done = true := rfl
@[simp] theorem completeRaced_mem : (completeRaced s).mem = scrambleDst s.params s.eng.latch s.draws s.mem := rfl
@[simp] theorem completeRaced_eng_phase : (completeRaced s).eng.phase = .idle := rfl
@[simp] theorem completeRaced_eng_latch : (completeRaced s).eng.latch = s.eng.latch := rfl
@[simp] theorem completeRaced_eng_race : (completeRaced s).eng.race = s.eng.race := rfl

@[simp] theorem resetStep_params : (resetStep s).params = s.params := rfl
@[simp] theorem resetStep_host : (resetStep s).host = s.host := rfl
@[simp] theorem resetStep_turns : (resetStep s).turns = s.turns := rfl
@[simp] theorem resetStep_unseen : (resetStep s).unseen = s.unseen := rfl

@[simp] theorem resetStep_csr : (resetStep s).csr = Csrs.reset s.params.strictReset := rfl
@[simp] theorem resetStep_mem : (resetStep s).mem = resetMemory s := rfl
@[simp] theorem resetStep_eng_phase : (resetStep s).eng.phase = .idle := rfl
@[simp] theorem resetStep_eng_race : (resetStep s).eng.race = false := rfl

@[simp] theorem memWrite_csr : (memWrite a b s).csr = s.csr := rfl
@[simp] theorem memWrite_params : (memWrite a b s).params = s.params := rfl
@[simp] theorem memWrite_host : (memWrite a b s).host = s.host := rfl
@[simp] theorem memWrite_turns : (memWrite a b s).turns = s.turns := rfl
@[simp] theorem memWrite_unseen : (memWrite a b s).unseen = s.unseen := rfl
@[simp] theorem memWrite_draws : (memWrite a b s).draws = s.draws := rfl

@[simp] theorem memWrite_mem : (memWrite a b s).mem = s.mem.write a b := rfl
@[simp] theorem memWrite_eng_phase : (memWrite a b s).eng.phase = s.eng.phase := rfl
@[simp] theorem memWrite_eng_latch : (memWrite a b s).eng.latch = s.eng.latch := rfl
@[simp] theorem memWrite_eng_rc : (memWrite a b s).eng.rc = s.eng.rc := rfl
@[simp] theorem memWrite_eng_wc : (memWrite a b s).eng.wc = s.eng.wc := rfl
@[simp] theorem memWrite_eng_ei : (memWrite a b s).eng.ei = s.eng.ei := rfl
@[simp] theorem memWrite_eng_acc : (memWrite a b s).eng.acc = s.eng.acc := rfl
@[simp] theorem memWrite_eng_sh : (memWrite a b s).eng.sh = s.eng.sh := rfl
@[simp] theorem memWrite_eng_hdr : (memWrite a b s).eng.hdr = s.eng.hdr := rfl
@[simp] theorem memWrite_eng_p : (memWrite a b s).eng.p = s.eng.p := rfl
@[simp] theorem memWrite_eng_g : (memWrite a b s).eng.g = s.eng.g := rfl
@[simp] theorem memWrite_eng_race : (memWrite a b s).eng.race = (s.eng.race || (s.busy && inRegions s a)) := rfl

@[simp] theorem nextStatement_csr : (nextStatement s).csr = s.csr := rfl
@[simp] theorem nextStatement_eng : (nextStatement s).eng = s.eng := rfl
@[simp] theorem nextStatement_mem : (nextStatement s).mem = s.mem := rfl
@[simp] theorem nextStatement_params : (nextStatement s).params = s.params := rfl
@[simp] theorem nextStatement_turns : (nextStatement s).turns = s.turns := rfl
@[simp] theorem nextStatement_unseen : (nextStatement s).unseen = s.unseen := rfl
@[simp] theorem nextStatement_draws : (nextStatement s).draws = s.draws := rfl

@[simp] theorem readCsr_csr : (readCsr a n s).csr = s.csr := rfl
@[simp] theorem readCsr_eng : (readCsr a n s).eng = s.eng := rfl
@[simp] theorem readCsr_mem : (readCsr a n s).mem = s.mem := rfl
@[simp] theorem readCsr_params : (readCsr a n s).params = s.params := rfl
@[simp] theorem readCsr_turns : (readCsr a n s).turns = s.turns := rfl
@[simp] theorem readCsr_draws : (readCsr a n s).draws = s.draws := rfl
@[simp] theorem readCsr_rdata : (readCsr a n s).host.rdata = csrRead s a n := rfl
@[simp] theorem readCsr_vars : (readCsr a n s).host.vars = s.host.vars := rfl
@[simp] theorem readCsr_unseen : (readCsr a n s).unseen = unseenAfterRead s a n := rfl

@[simp] theorem setHostVar_csr : (setHostVar n v s).csr = s.csr := rfl
@[simp] theorem setHostVar_eng : (setHostVar n v s).eng = s.eng := rfl
@[simp] theorem setHostVar_mem : (setHostVar n v s).mem = s.mem := rfl
@[simp] theorem setHostVar_params : (setHostVar n v s).params = s.params := rfl
@[simp] theorem setHostVar_turns : (setHostVar n v s).turns = s.turns := rfl
@[simp] theorem setHostVar_draws : (setHostVar n v s).draws = s.draws := rfl
@[simp] theorem setHostVar_rdata : (setHostVar n v s).host.rdata = s.host.rdata := rfl
@[simp] theorem setHostVar_vars : (setHostVar n v s).host.vars = setVar s.host.vars n v := rfl
@[simp] theorem setHostVar_unseen : (setHostVar n v s).unseen = s.unseen := rfl

@[simp] theorem queueWrites_csr : (queueWrites l s).csr = s.csr := rfl
@[simp] theorem queueWrites_eng : (queueWrites l s).eng = s.eng := rfl
@[simp] theorem queueWrites_mem : (queueWrites l s).mem = s.mem := rfl
@[simp] theorem queueWrites_params : (queueWrites l s).params = s.params := rfl
@[simp] theorem queueWrites_turns : (queueWrites l s).turns = s.turns := rfl
@[simp] theorem queueWrites_unseen : (queueWrites l s).unseen = s.unseen := rfl
@[simp] theorem queueWrites_draws : (queueWrites l s).draws = s.draws := rfl

@[simp] theorem startGroup_mem : (startGroup w).mem = w.mem := rfl
@[simp] theorem startGroup_phase : (startGroup w).eng.phase = w.eng.phase := rfl
@[simp] theorem startGroup_latch : (startGroup w).eng.latch = w.eng.latch := rfl
@[simp] theorem startGroup_rc : (startGroup w).eng.rc = w.eng.rc := rfl
@[simp] theorem startGroup_wc : (startGroup w).eng.wc = w.eng.wc := rfl
@[simp] theorem startGroup_ei : (startGroup w).eng.ei = w.eng.ei := rfl
@[simp] theorem startGroup_acc : (startGroup w).eng.acc = w.eng.acc := rfl
@[simp] theorem startGroup_sh : (startGroup w).eng.sh = w.eng.sh := rfl
@[simp] theorem startGroup_hdr : (startGroup w).eng.hdr = w.eng.hdr := rfl
@[simp] theorem startGroup_p : (startGroup w).eng.p = w.eng.rc := rfl
@[simp] theorem startGroup_g : (startGroup w).eng.g = [] := rfl
@[simp] theorem startGroup_race : (startGroup w).eng.race = w.eng.race := rfl

@[simp] theorem setElements_mem : (setElements n w).mem = w.mem := rfl
@[simp] theorem setElements_phase : (setElements n w).eng.phase = w.eng.phase := rfl
@[simp] theorem setElements_latch : (setElements n w).eng.latch = w.eng.latch := rfl
@[simp] theorem setElements_rc : (setElements n w).eng.rc = w.eng.rc := rfl
@[simp] theorem setElements_wc : (setElements n w).eng.wc = w.eng.wc := rfl
@[simp] theorem setElements_ei : (setElements n w).eng.ei = BitVec.ofNat 64 n := rfl
@[simp] theorem setElements_acc : (setElements n w).eng.acc = w.eng.acc := rfl
@[simp] theorem setElements_sh : (setElements n w).eng.sh = w.eng.sh := rfl
@[simp] theorem setElements_hdr : (setElements n w).eng.hdr = w.eng.hdr := rfl
@[simp] theorem setElements_p : (setElements n w).eng.p = w.eng.p := rfl
@[simp] theorem setElements_g : (setElements n w).eng.g = w.eng.g := rfl
@[simp] theorem setElements_race : (setElements n w).eng.race = w.eng.race := rfl

@[simp] theorem commitGroup_mem : (commitGroup w).mem = w.mem := rfl
@[simp] theorem commitGroup_phase : (commitGroup w).eng.phase = w.eng.phase := rfl
@[simp] theorem commitGroup_latch : (commitGroup w).eng.latch = w.eng.latch := rfl
@[simp] theorem commitGroup_rc : (commitGroup w).eng.rc = w.eng.p := rfl
@[simp] theorem commitGroup_wc : (commitGroup w).eng.wc = w.eng.wc := rfl
@[simp] theorem commitGroup_ei : (commitGroup w).eng.ei = w.eng.ei := rfl
@[simp] theorem commitGroup_acc : (commitGroup w).eng.acc = w.eng.acc := rfl
@[simp] theorem commitGroup_sh : (commitGroup w).eng.sh = w.eng.sh := rfl
@[simp] theorem commitGroup_hdr : (commitGroup w).eng.hdr = w.eng.hdr := rfl
@[simp] theorem commitGroup_p : (commitGroup w).eng.p = w.eng.p := rfl
@[simp] theorem commitGroup_g : (commitGroup w).eng.g = w.eng.g := rfl
@[simp] theorem commitGroup_race : (commitGroup w).eng.race = w.eng.race := rfl

@[simp] theorem lebAccumulate_mem : (lebAccumulate b w).mem = w.mem := rfl
@[simp] theorem lebAccumulate_phase : (lebAccumulate b w).eng.phase = w.eng.phase := rfl
@[simp] theorem lebAccumulate_latch : (lebAccumulate b w).eng.latch = w.eng.latch := rfl
@[simp] theorem lebAccumulate_rc : (lebAccumulate b w).eng.rc = w.eng.rc := rfl
@[simp] theorem lebAccumulate_wc : (lebAccumulate b w).eng.wc = w.eng.wc := rfl
@[simp] theorem lebAccumulate_ei : (lebAccumulate b w).eng.ei = w.eng.ei := rfl
@[simp] theorem lebAccumulate_acc : (lebAccumulate b w).eng.acc = (w.eng.acc ||| (BitVec.ofNat 64 (b.toNat &&& 0x7F) <<< w.eng.sh.toNat)) := rfl
@[simp] theorem lebAccumulate_sh : (lebAccumulate b w).eng.sh = w.eng.sh := rfl
@[simp] theorem lebAccumulate_hdr : (lebAccumulate b w).eng.hdr = w.eng.hdr := rfl
@[simp] theorem lebAccumulate_p : (lebAccumulate b w).eng.p = w.eng.p := rfl
@[simp] theorem lebAccumulate_g : (lebAccumulate b w).eng.g = w.eng.g := rfl
@[simp] theorem lebAccumulate_race : (lebAccumulate b w).eng.race = w.eng.race := rfl

@[simp] theorem lebShift_mem : (lebShift w).mem = w.mem := rfl
@[simp] theorem lebShift_phase : (lebShift w).eng.phase = w.eng.phase := rfl
@[simp] theorem lebShift_latch : (lebShift w).eng.latch = w.eng.latch := rfl
@[simp] theorem lebShift_rc : (lebShift w).eng.rc = w.eng.rc := rfl
@[simp] theorem lebShift_wc : (lebShift w).eng.wc = w.eng.wc := rfl
@[simp] theorem lebShift_ei : (lebShift w).eng.ei = w.eng.ei := rfl
@[simp] theorem lebShift_acc : (lebShift w).eng.acc = w.eng.acc := rfl
@[simp] theorem lebShift_sh : (lebShift w).eng.sh = w.eng.sh + 7 := rfl
@[simp] theorem lebShift_hdr : (lebShift w).eng.hdr = w.eng.hdr := rfl
@[simp] theorem lebShift_p : (lebShift w).eng.p = w.eng.p := rfl
@[simp] theorem lebShift_g : (lebShift w).eng.g = w.eng.g := rfl
@[simp] theorem lebShift_race : (lebShift w).eng.race = w.eng.race := rfl

@[simp] theorem setHeader_mem : (setHeader b w).mem = w.mem := rfl
@[simp] theorem setHeader_phase : (setHeader b w).eng.phase = w.eng.phase := rfl
@[simp] theorem setHeader_latch : (setHeader b w).eng.latch = w.eng.latch := rfl
@[simp] theorem setHeader_rc : (setHeader b w).eng.rc = w.eng.rc := rfl
@[simp] theorem setHeader_wc : (setHeader b w).eng.wc = w.eng.wc := rfl
@[simp] theorem setHeader_ei : (setHeader b w).eng.ei = w.eng.ei := rfl
@[simp] theorem setHeader_acc : (setHeader b w).eng.acc = w.eng.acc := rfl
@[simp] theorem setHeader_sh : (setHeader b w).eng.sh = w.eng.sh := rfl
@[simp] theorem setHeader_hdr : (setHeader b w).eng.hdr = b := rfl
@[simp] theorem setHeader_p : (setHeader b w).eng.p = w.eng.p := rfl
@[simp] theorem setHeader_g : (setHeader b w).eng.g = w.eng.g := rfl
@[simp] theorem setHeader_race : (setHeader b w).eng.race = w.eng.race := rfl

end

end Sys2Proof.Machine
end

