-- ==== Sys2Proof/Laws/Memory.lean ====
section
/-! SUPPORT. The laws of data memory: a read after a write, the canonical form, and the runs of bytes. -/

namespace Sys2Proof.Machine

/-! ### One byte -/

@[simp] theorem Memory.read_nil (a : Nat) : Memory.read [] a = Memory.initByte := rfl

theorem Memory.read_cons (k : Nat) (b : Byte) (rest : Memory) (a : Nat) :
    Memory.read ((k, b) :: rest) a = if a = k then b else Memory.read rest a := rfl

/-- A write leaves every other byte alone, whatever the form of the list. -/
theorem Memory.read_write_other (m : Memory) (a a' : Nat) (b : Byte) (h : a' ≠ a) :
    (Memory.write m a b).read a' = m.read a' := by
  induction m with
  | nil => by_cases hb : b = initByte <;> simp [write, read, hb, h]
  | cons c rest ih =>
    obtain ⟨k, x⟩ := c
    by_cases h1 : a < k
    · by_cases hb : b = initByte <;> simp [write, read, h1, hb, h]
    · by_cases h2 : a = k
      · subst h2
        by_cases hb : b = initByte <;> simp [write, read, hb, h]
      · simp [write, read, h1, h2, ih]

/-- The bound of `wfFrom` on every listed address. -/
theorem Memory.read_of_wfFrom_le (m : Memory) (l a : Nat) (h : Memory.wfFrom (some l) m = true) (ha : a ≤ l) :
    m.read a = initByte := by
  induction m generalizing l with
  | nil => rfl
  | cons c rest ih =>
    obtain ⟨k, x⟩ := c
    simp only [wfFrom, Bool.and_eq_true, decide_eq_true_eq] at h
    have hk : a ≠ k := by omega
    simp only [read, if_neg hk]
    exact ih k h.2 (by omega)

theorem Memory.wfFrom_weaken (m : Memory) (l l' : Nat) (h : Memory.wfFrom (some l) m = true) (hl : l' ≤ l) :
    Memory.wfFrom (some l') m = true := by
  cases m with
  | nil => rfl
  | cons c rest =>
    simp only [wfFrom, Bool.and_eq_true, decide_eq_true_eq] at h ⊢
    exact ⟨⟨by omega, h.1.2⟩, h.2⟩

theorem Memory.wf_of_wfFrom (m : Memory) (l : Nat) (h : Memory.wfFrom (some l) m = true) : m.wf = true := by
  cases m with
  | nil => rfl
  | cons c rest =>
    simp only [wf, wfFrom, Bool.and_eq_true, decide_eq_true_eq] at h ⊢
    exact ⟨⟨trivial, h.1.2⟩, h.2⟩

/-- In canonical form a read of the written byte gives the value written. -/
theorem Memory.read_write_same (m : Memory) (a : Nat) (b : Byte) (hw : m.wf = true) :
    (Memory.write m a b).read a = b := by
  induction m with
  | nil => by_cases h : b = initByte <;> simp [write, read, h]
  | cons c rest ih =>
    obtain ⟨k, x⟩ := c
    have hr : Memory.wfFrom (some k) rest = true := by
      simp only [wf, wfFrom, Bool.and_eq_true] at hw; exact hw.2
    by_cases h1 : a < k
    · by_cases hb : b = initByte
      · have hk : a ≠ k := by omega
        simp [write, read, h1, hb, hk, read_of_wfFrom_le rest k a hr (by omega)]
      · simp [write, read, h1, hb]
    · by_cases h2 : a = k
      · subst h2
        by_cases hb : b = initByte
        · simp [write, hb, read_of_wfFrom_le rest a a hr le_rfl]
        · simp [write, read, hb]
      · simp [write, read, h1, h2, ih (wf_of_wfFrom rest k hr)]

theorem Memory.wfFrom_write (m : Memory) (l a : Nat) (b : Byte) (h : Memory.wfFrom (some l) m = true)
    (hl : l < a) : Memory.wfFrom (some l) (Memory.write m a b) = true := by
  induction m generalizing l with
  | nil => by_cases hb : b = initByte <;> simp [write, wfFrom, hb, hl]
  | cons c rest ih =>
    obtain ⟨k, x⟩ := c
    have h0 := h
    simp only [wfFrom, Bool.and_eq_true, decide_eq_true_eq] at h
    by_cases h1 : a < k
    · by_cases hb : b = initByte
      · simpa [write, h1, hb] using h0
      · simp [write, h1, hb, wfFrom, hl, h.1.2, h.2]
    · by_cases h2 : a = k
      · subst h2
        by_cases hb : b = initByte
        · simpa [write, hb] using wfFrom_weaken rest a l h.2 (by omega)
        · simp [write, hb, wfFrom, hl, h.2]
      · simp only [write, h1, h2, if_false, wfFrom, Bool.and_eq_true, decide_eq_true_eq]
        exact ⟨h.1, ih k h.2 (by omega)⟩

/-- A write keeps the canonical form. -/
theorem Memory.wf_write (m : Memory) (a : Nat) (b : Byte) (h : m.wf = true) : (Memory.write m a b).wf = true := by
  cases m with
  | nil => by_cases hb : b = initByte <;> simp [write, wf, wfFrom, hb]
  | cons c rest =>
    obtain ⟨k, x⟩ := c
    have h0 := h
    simp only [wf, wfFrom, Bool.and_eq_true, decide_eq_true_eq] at h
    by_cases h1 : a < k
    · by_cases hb : b = initByte
      · simpa [write, h1, hb] using h0
      · simp [write, h1, hb, wf, wfFrom, h.1.2, h.2]
    · by_cases h2 : a = k
      · subst h2
        by_cases hb : b = initByte
        · simpa [write, hb] using wf_of_wfFrom rest a h.2
        · simp [write, hb, wf, wfFrom, h.2]
      · simp only [write, h1, h2, if_false, wf, wfFrom, Bool.and_eq_true, decide_eq_true_eq]
        exact ⟨⟨trivial, h.1.2⟩, wfFrom_write rest k a b h.2 (by omega)⟩

/-- A write inside data memory keeps every listed address inside it. -/
theorem Memory.inSpace_write (m : Memory) (a top : Nat) (b : Byte) (h : m.inSpace top = true) (ha : a < top) :
    (Memory.write m a b).inSpace top = true := by
  induction m with
  | nil => by_cases hb : b = initByte <;> simp [write, inSpace, hb, ha]
  | cons c rest ih =>
    obtain ⟨k, x⟩ := c
    simp only [inSpace, List.all_cons, Bool.and_eq_true, decide_eq_true_eq] at h ih
    by_cases h1 : a < k
    · by_cases hb : b = initByte <;> simp [write, inSpace, h1, hb, ha, h.1] <;> simpa using h.2
    · by_cases h2 : a = k
      · subst h2
        by_cases hb : b = initByte <;> simp [write, inSpace, hb, ha] <;> simpa using h.2
      · simp only [write, h1, h2, if_false, inSpace, List.all_cons, Bool.and_eq_true, decide_eq_true_eq]
        exact ⟨h.1, ih h.2⟩

/-! ### Runs of bytes -/

theorem Memory.wf_writeBytes (m : Memory) (a : Nat) (bs : List Byte) (h : m.wf = true) :
    (Memory.writeBytes m a bs).wf = true := by
  induction bs generalizing m a with
  | nil => exact h
  | cons b bs ih => exact ih _ _ (wf_write m a b h)

theorem Memory.read_writeBytes_other (m : Memory) (a a' : Nat) (bs : List Byte)
    (h : a' < a ∨ a + bs.length ≤ a') : (Memory.writeBytes m a bs).read a' = m.read a' := by
  induction bs generalizing m a with
  | nil => rfl
  | cons b bs ih =>
    simp only [List.length_cons] at h
    rw [writeBytes, ih _ _ (by omega), read_write_other _ _ _ _ (by omega)]

theorem Memory.inSpace_writeBytes (m : Memory) (a top : Nat) (bs : List Byte) (h : m.inSpace top = true)
    (ha : a + bs.length ≤ top ∨ bs = []) : (Memory.writeBytes m a bs).inSpace top = true := by
  induction bs generalizing m a with
  | nil => exact h
  | cons b bs ih =>
    simp only [List.length_cons, reduceCtorEq, or_false] at ha
    exact ih _ _ (inSpace_write m a top b h (by omega)) (Or.inl (by omega))

theorem Memory.writeBytes_append (m : Memory) (a : Nat) (xs ys : List Byte) :
    Memory.writeBytes m a (xs ++ ys) = Memory.writeBytes (Memory.writeBytes m a xs) (a + xs.length) ys := by
  induction xs generalizing m a with
  | nil => simp [writeBytes]
  | cons x xs ih =>
    simp only [List.cons_append, writeBytes, ih, List.length_cons]
    congr 1
    omega

@[simp] theorem Memory.readBytes_length (m : Memory) (a n : Nat) : (Memory.readBytes m a n).length = n := by
  induction n generalizing a with
  | zero => rfl
  | succ n ih => simp [readBytes, ih]

theorem Memory.readBytes_append (m : Memory) (a i j : Nat) :
    Memory.readBytes m a (i + j) = Memory.readBytes m a i ++ Memory.readBytes m (a + i) j := by
  induction i generalizing a with
  | zero => simp [readBytes]
  | succ i ih =>
    rw [show i + 1 + j = (i + j) + 1 by omega]
    simp only [readBytes, ih, List.cons_append]
    rw [show a + 1 + i = a + (i + 1) by omega]

/-- Equal bytes at the addresses of a run give equal runs. -/
theorem Memory.readBytes_congr (m m' : Memory) (a n : Nat) (h : ∀ j, j < n → m.read (a + j) = m'.read (a + j)) :
    Memory.readBytes m a n = Memory.readBytes m' a n := by
  induction n generalizing a with
  | zero => rfl
  | succ n ih =>
    simp only [readBytes]
    have h0 : m.read a = m'.read a := by simpa using h 0 (by omega)
    have h1 : readBytes m (a + 1) n = readBytes m' (a + 1) n :=
      ih (a + 1) fun j hj => by
        have := h (j + 1) (by omega)
        rwa [show a + (j + 1) = a + 1 + j by omega] at this
    rw [h0, h1]

theorem Memory.readBytes_writeBytes_same (m : Memory) (a : Nat) (bs : List Byte) (h : m.wf = true) :
    (Memory.writeBytes m a bs).readBytes a bs.length = bs := by
  induction bs generalizing m a with
  | nil => rfl
  | cons b bs ih =>
    simp only [writeBytes, List.length_cons, readBytes]
    rw [ih _ _ (wf_write m a b h), read_writeBytes_other _ _ _ _ (Or.inl (by omega)), read_write_same _ _ _ h]

theorem Memory.read_eq_of_readBytes_eq (m m' : Memory) (a n j : Nat)
    (h : Memory.readBytes m a n = Memory.readBytes m' a n) (hj : j < n) : m.read (a + j) = m'.read (a + j) := by
  induction n generalizing a j with
  | zero => omega
  | succ n ih =>
    simp only [readBytes, List.cons.injEq] at h
    cases j with
    | zero => simpa using h.1
    | succ j =>
      have := ih (a + 1) j h.2 (by omega)
      rwa [show a + 1 + j = a + (j + 1) by omega] at this

theorem Memory.readBytes_writeBytes_other (m : Memory) (a a' n : Nat) (bs : List Byte)
    (h : a' + n ≤ a ∨ a + bs.length ≤ a') : (Memory.writeBytes m a bs).readBytes a' n = m.readBytes a' n :=
  readBytes_congr _ _ _ _ fun j hj => read_writeBytes_other m a (a' + j) bs (by omega)

/-! ### Free bytes -/

theorem Memory.wf_scramble (m : Memory) (a n k : Nat) (h : m.wf = true) : (Memory.scramble m a n k).wf = true := by
  induction n generalizing m a k with
  | zero => exact h
  | succ n ih => exact ih _ _ _ (wf_write m a _ h)

theorem Memory.read_scramble_other (m : Memory) (a n k a' : Nat) (h : a' < a ∨ a + n ≤ a') :
    (Memory.scramble m a n k).read a' = m.read a' := by
  induction n generalizing m a k with
  | zero => rfl
  | succ n ih => rw [scramble, ih _ _ _ (by omega), read_write_other _ _ _ _ (by omega)]

theorem Memory.inSpace_scramble (m : Memory) (a n k top : Nat) (h : m.inSpace top = true)
    (ha : a + n ≤ top ∨ n = 0) : (Memory.scramble m a n k).inSpace top = true := by
  induction n generalizing m a k with
  | zero => exact h
  | succ n ih => exact ih _ _ _ (inSpace_write m a top _ h (by omega)) (Or.inl (by omega))

/-- What a region's byte reads as once it is free: the draw of its place in the region. -/
theorem Memory.read_scramble_in (m : Memory) (a n k j : Nat) (h : m.wf = true) (hj : j < n) :
    (Memory.scramble m a n k).read (a + j) = Config.freeByte (k + j) := by
  induction n generalizing m a k j with
  | zero => omega
  | succ n ih =>
    cases j with
    | zero =>
      simp only [Nat.add_zero]
      rw [scramble, read_scramble_other _ _ _ _ _ (Or.inl (by omega)), read_write_same _ _ _ h]
    | succ j =>
      have := ih (m.write a (Config.freeByte k)) (a + 1) (k + 1) j (wf_write _ _ _ h) (by omega)
      rw [show a + 1 + j = a + (j + 1) by omega, show k + 1 + j = k + (j + 1) by omega] at this
      exact this

end Sys2Proof.Machine
end

