-- ==== Sys2Proof/Laws/Bytes.lean ====
section
/-! SUPPORT. The laws of the byte and bit primitives (R14, R135 to R137). -/

namespace Sys2Proof.Machine

@[simp] theorem bytesLE_length (n v : Nat) : (bytesLE n v).length = n := by
  induction n generalizing v with
  | zero => rfl
  | succ n ih => simp [bytesLE, ih]

theorem leNat_lt (bs : List Byte) : leNat bs < 256 ^ bs.length := by
  induction bs with
  | nil => simp [leNat]
  | cons b bs ih =>
    have hb := b.isLt
    simp only [leNat, List.length_cons, pow_succ]
    omega

theorem leNat_append (xs ys : List Byte) : leNat (xs ++ ys) = leNat xs + 256 ^ xs.length * leNat ys := by
  induction xs with
  | nil => simp [leNat]
  | cons x xs ih => simp only [List.cons_append, leNat, ih, List.length_cons, pow_succ]; ring

/-- The two are inverse: LE(bytes_n(v)) = v mod 2^(8n). -/
theorem leNat_bytesLE (n v : Nat) : leNat (bytesLE n v) = v % 256 ^ n := by
  induction n generalizing v with
  | zero => simp [bytesLE, leNat, Nat.mod_one]
  | succ n ih =>
    simp only [bytesLE, leNat, ih, BitVec.toNat_ofNat]
    rw [show (256 : Nat) ^ (n + 1) = 256 * 256 ^ n from Nat.pow_succ', Nat.mod_mul]

theorem leNat_bytesLE_of_lt (n v : Nat) (h : v < 256 ^ n) : leNat (bytesLE n v) = v := by
  rw [leNat_bytesLE, Nat.mod_eq_of_lt h]

theorem bytesLE_leNat (bs : List Byte) : bytesLE bs.length (leNat bs) = bs := by
  induction bs with
  | nil => rfl
  | cons b bs ih =>
    have hb := b.isLt
    have h1 : (b.toNat + 256 * leNat bs) / 256 = leNat bs := by omega
    simp only [List.length_cons, bytesLE, leNat, h1, ih, List.cons.injEq, and_true]
    apply BitVec.eq_of_toNat_eq
    rw [BitVec.toNat_ofNat]
    omega

@[simp] theorem elementBytes_length (vs : List Word) : (elementBytes vs).length = 8 * vs.length := by
  induction vs with
  | nil => rfl
  | cons v vs ih => simp [elementBytes, ih]; omega

theorem elementBytes_append (xs ys : List Word) : elementBytes (xs ++ ys) = elementBytes xs ++ elementBytes ys := by
  induction xs with
  | nil => rfl
  | cons x xs ih => simp [elementBytes, ih]

theorem word_of_le8 (v : Word) : BitVec.ofNat 64 (leNat (bytesLE 8 v.toNat)) = v := by
  rw [leNat_bytesLE_of_lt 8 v.toNat (by have := v.isLt; norm_num; omega), BitVec.ofNat_toNat, BitVec.setWidth_eq]

/-! ### Byte lengths (R135) -/

theorem byteLen_pos (v : Nat) : 1 ≤ byteLen v := by
  unfold byteLen; split <;> omega

theorem lt_pow_byteLen (v : Nat) : v < 256 ^ byteLen v := by
  unfold byteLen
  split
  · next h => subst h; norm_num
  · next h =>
    have h1 : v < 2 ^ (Nat.log2 v + 1) := Nat.lt_log2_self
    have h2 : Nat.log2 v + 1 ≤ 8 * ((Nat.log2 v + 8) / 8) := by omega
    calc v < 2 ^ (Nat.log2 v + 1) := h1
      _ ≤ 2 ^ (8 * ((Nat.log2 v + 8) / 8)) := Nat.pow_le_pow_right (by norm_num) h2
      _ = 256 ^ ((Nat.log2 v + 8) / 8) := by rw [pow_mul]; norm_num

theorem byteLen_le_of_lt (v n : Nat) (hn : 1 ≤ n) (h : v < 256 ^ n) : byteLen v ≤ n := by
  unfold byteLen
  split
  · exact hn
  · next hv =>
    have h1 : 2 ^ Nat.log2 v ≤ v := Nat.log2_self_le hv
    have h2 : (2 : Nat) ^ Nat.log2 v < 2 ^ (8 * n) := by
      rw [pow_mul]; exact lt_of_le_of_lt h1 (by simpa using h)
    have h3 := (Nat.pow_lt_pow_iff_right (by norm_num : 1 < 2)).1 h2
    omega

theorem byteLen_word_le (v : Word) : byteLen v.toNat ≤ 8 :=
  byteLen_le_of_lt _ 8 (by norm_num) (by have := v.isLt; norm_num; omega)

theorem word_of_minimal (v : Word) : BitVec.ofNat 64 (leNat (bytesLE (byteLen v.toNat) v.toNat)) = v := by
  rw [leNat_bytesLE_of_lt _ _ (lt_pow_byteLen _), BitVec.ofNat_toNat, BitVec.setWidth_eq]

/-! ### Nibbles (R137) -/

theorem packNibbles_toNat (hi lo : Nat) (h1 : hi ≤ 15) (h2 : lo ≤ 15) :
    (packNibbles hi lo).toNat = 16 * hi + lo := by
  unfold packNibbles
  interval_cases hi <;> interval_cases lo <;> rfl

theorem hiNib_packNibbles (hi lo : Nat) (h1 : hi ≤ 15) (h2 : lo ≤ 15) : hiNib (packNibbles hi lo) = hi := by
  rw [hiNib, packNibbles_toNat hi lo h1 h2]; omega

theorem loNib_packNibbles (hi lo : Nat) (h1 : hi ≤ 15) (h2 : lo ≤ 15) : loNib (packNibbles hi lo) = lo := by
  rw [loNib, packNibbles_toNat hi lo h1 h2]; omega

/-! ### Trailing ones (R136) -/

theorem trailingOnes_le (k n : Nat) : trailingOnes k n ≤ k := by
  induction k generalizing n with
  | zero => simp [trailingOnes]
  | succ k ih => simp only [trailingOnes]; split <;> [(have := ih (n / 2); omega); omega]

theorem trailingOnes8_le (b : Byte) : trailingOnes8 b ≤ 8 := trailingOnes_le 8 b.toNat

/-- A number whose low bits are t ones and a zero has t trailing ones. -/
theorem trailingOnes_of_tag (k t n : Nat) (ht : t < k) (h : n % 2 ^ (t + 1) = 2 ^ t - 1) : trailingOnes k n = t := by
  induction t generalizing k n with
  | zero =>
    cases k with
    | zero => omega
    | succ k =>
      have : n % 2 = 0 := by simpa using h
      simp [trailingOnes, this]
  | succ t ih =>
    cases k with
    | zero => omega
    | succ k =>
      have hp : 2 ^ (t + 1 + 1) = 2 * 2 ^ (t + 1) := by ring
      have hp' : 2 ^ (t + 1) = 2 * 2 ^ t := by ring
      have hpos : 0 < 2 ^ t := by positivity
      rw [hp, Nat.mod_mul] at h
      have h1 : n % 2 = 1 := by omega
      have h2 : n / 2 % 2 ^ (t + 1) = 2 ^ t - 1 := by omega
      simp only [trailingOnes, h1, if_true]
      rw [ih k (n / 2) (by omega) h2]
      omega

end Sys2Proof.Machine
end

