-- ==== Sys2Proof/Laws/Ops.lean ====
section
/-! SUPPORT. One lemma per shared operation of a command: what it does when every byte answers, how it fails, and what
it never touches. -/

namespace Sys2Proof.Machine

/-! ### Ranges -/

theorem Range.has_iff (r : Range) (a : Nat) : r.has a = true ↔ r.base ≤ a ∧ a < r.base + r.size := by
  simp only [Range.has, Bool.and_eq_true, decide_eq_true_eq]

theorem Range.meets_iff (r r' : Range) : r.meets r' = true ↔
    0 < r.size ∧ 0 < r'.size ∧ r.base < r'.base + r'.size ∧ r'.base < r.base + r.size := by
  simp only [Range.meets, Bool.and_eq_true, decide_eq_true_eq]
  tauto

theorem pastTop_iff (p : Params) (r : Range) : pastTop p r = true ↔ 0 < r.size ∧ p.memTop < r.base + r.size := by
  simp only [pastTop, Bool.and_eq_true, decide_eq_true_eq]

theorem pastTop_false_iff (p : Params) (r : Range) : pastTop p r = false ↔ r.size = 0 ∨ r.base + r.size ≤ p.memTop := by
  rw [← Bool.not_eq_true, pastTop_iff]; omega

/-! ### Results -/

/-- The work a result leaves, whether the piece went on or raised an error. -/
def Res.after {α : Type} : Res α → Work
  | .ok _ w => w
  | .raise _ _ w => w

@[simp] theorem Res.after_ok {α : Type} (a : α) (w : Work) : (Res.ok a w).after = w := rfl

@[simp] theorem Res.after_raise {α : Type} (c : ErrCode) (n : Nat) (w : Work) :
    (Res.raise c n w : Res α).after = w := rfl

@[simp] theorem Res.bind_ok {α β : Type} (a : α) (w : Work) (f : α → Work → Res β) :
    (Res.ok a w).bind f = f a w := rfl

@[simp] theorem Res.bind_raise {α β : Type} (c : ErrCode) (n : Nat) (w : Work) (f : α → Work → Res β) :
    (Res.raise c n w : Res α).bind f = .raise c n w := rfl

theorem Res.bind_ok_right {α : Type} (x : Res α) : x.bind Res.ok = x := by cases x <;> rfl

theorem Res.bind_assoc {α β γ : Type} (x : Res α) (f : α → Work → Res β) (g : β → Work → Res γ) :
    (x.bind f).bind g = x.bind fun a w => (f a w).bind g := by
  cases x <;> rfl

/-- Two pieces in a row give a value exactly when both do. -/
theorem Res.bind_eq_ok {α β : Type} {x : Res α} {f : α → Work → Res β} {b : β} {w : Work}
    (h : x.bind f = .ok b w) : ∃ a w', x = .ok a w' ∧ f a w' = .ok b w := by
  cases x with
  | ok a w' => exact ⟨a, w', rfl, h⟩
  | raise c n w' => simp at h

/-! ### Memory primitives -/

theorem busReads_ok (p : Params) (a n : Nat) (w : Work) (h : AllAccessible p a n) :
    busReads p a n w = .ok (w.mem.readBytes a n) w := by
  induction n generalizing a with
  | zero => rfl
  | succ n ih =>
    have h0 : p.accessibleAt a = true := by simpa using h 0 (by omega)
    have h1 : AllAccessible p (a + 1) n := fun j hj => by
      have := h (j + 1) (by omega)
      rwa [show a + (j + 1) = a + 1 + j by omega] at this
    simp [busReads, busRead, h0, ih (a + 1) h1, Memory.readBytes]

/-- A read stops at the lowest failing address (R16). -/
theorem busReads_fails (p : Params) (a n j : Nat) (w : Work) (hj : j < n) (h : AllAccessible p a j)
    (hf : p.accessibleAt (a + j) = false) : busReads p a n w = .raise .busError (a + j) w := by
  induction n generalizing a j with
  | zero => omega
  | succ n ih =>
    cases j with
    | zero => simp at hf; simp [busReads, busRead, hf]
    | succ j =>
      have h0 : p.accessibleAt a = true := by simpa using h 0 (by omega)
      have h1 : AllAccessible p (a + 1) j := fun i hi => by
        have := h (i + 1) (by omega)
        rwa [show a + (i + 1) = a + 1 + i by omega] at this
      have h2 : p.accessibleAt (a + 1 + j) = false := by
        rwa [show a + (j + 1) = a + 1 + j by omega] at hf
      simp [busReads, busRead, h0, ih (a + 1) j (by omega) h1 h2]
      omega

theorem busReads_after (p : Params) (a n : Nat) (w : Work) : (busReads p a n w).after = w := by
  induction n generalizing a with
  | zero => rfl
  | succ n ih =>
    simp only [busReads, busRead]
    split
    · have := ih (a + 1)
      simp only [Res.bind_ok]
      cases hx : busReads p (a + 1) n w <;> rw [hx] at this <;> simpa using this
    · rfl

theorem busWrites_ok (p : Params) (a : Nat) (bs : List Byte) (w : Work) (h : AllAccessible p a bs.length) :
    busWrites p a bs w = .ok () { w with mem := w.mem.writeBytes a bs } := by
  induction bs generalizing a w with
  | nil => rfl
  | cons b bs ih =>
    have h0 : p.accessibleAt a = true := by simpa using h 0 (by simp)
    have h1 : AllAccessible p (a + 1) bs.length := fun j hj => by
      have := h (j + 1) (by simpa using hj)
      rwa [show a + (j + 1) = a + 1 + j by omega] at this
    simp [busWrites, h0, ih _ _ h1, Memory.writeBytes]

/-- A write that fails leaves exactly the bytes before the failing address (R16, R278). -/
theorem busWrites_fails (p : Params) (a j : Nat) (bs : List Byte) (w : Work) (hj : j < bs.length)
    (h : AllAccessible p a j) (hf : p.accessibleAt (a + j) = false) :
    busWrites p a bs w = .raise .busError (a + j) { w with mem := w.mem.writeBytes a (bs.take j) } := by
  induction bs generalizing a j w with
  | nil => simp at hj
  | cons b bs ih =>
    cases j with
    | zero => simp at hf; simp [busWrites, hf, Memory.writeBytes]
    | succ j =>
      have h0 : p.accessibleAt a = true := by simpa using h 0 (by omega)
      have h1 : AllAccessible p (a + 1) j := fun i hi => by
        have := h (i + 1) (by omega)
        rwa [show a + (i + 1) = a + 1 + i by omega] at this
      have h2 : p.accessibleAt (a + 1 + j) = false := by
        rwa [show a + (j + 1) = a + 1 + j by omega] at hf
      simp only [List.length_cons, Nat.add_lt_add_iff_right] at hj
      simp [busWrites, h0, ih (a + 1) j _ hj h1 h2, Memory.writeBytes]
      omega

/-- Whatever happens, a write leaves the work with some first bytes of it written. -/
theorem busWrites_after (p : Params) (a : Nat) (bs : List Byte) (w : Work) :
    ∃ j, j ≤ bs.length ∧ (busWrites p a bs w).after = { w with mem := w.mem.writeBytes a (bs.take j) } := by
  induction bs generalizing a w with
  | nil => exact ⟨0, le_rfl, rfl⟩
  | cons b bs ih =>
    simp only [busWrites]
    split
    · obtain ⟨j, hj, h⟩ := ih (a + 1) { w with mem := w.mem.write a b }
      exact ⟨j + 1, by simpa using hj, by simpa [Memory.writeBytes] using h⟩
    · exact ⟨0, by simp, by simp [Memory.writeBytes]⟩

/-! ### What a piece of a command keeps -/

/-- Nothing but the engine's cursors and datapath, and bytes at addresses `lo` to `hi - 1`, differs. -/
structure Within (lo hi : Nat) (w w' : Work) : Prop where
  latch : w'.eng.latch = w.eng.latch
  phase : w'.eng.phase = w.eng.phase
  race : w'.eng.race = w.eng.race
  read : ∀ a, a < lo ∨ hi ≤ a → w'.mem.read a = w.mem.read a
  wf : w.mem.wf = true → w'.mem.wf = true
  inSpace : ∀ top, hi ≤ top → w.mem.inSpace top = true → w'.mem.inSpace top = true

theorem Within.refl (lo hi : Nat) (w : Work) : Within lo hi w w :=
  ⟨rfl, rfl, rfl, fun _ _ => rfl, id, fun _ _ => id⟩

theorem Within.trans {lo hi : Nat} {w w' w'' : Work} (h : Within lo hi w w') (h' : Within lo hi w' w'') :
    Within lo hi w w'' :=
  ⟨h'.latch.trans h.latch, h'.phase.trans h.phase, h'.race.trans h.race,
    fun a ha => (h'.read a ha).trans (h.read a ha), fun hw => h'.wf (h.wf hw),
    fun top ht hs => h'.inSpace top ht (h.inSpace top ht hs)⟩

/-- A change of the engine's cursors and datapath alone stays within any range. -/
theorem Within.of_eng {lo hi : Nat} {w w' : Work} (hm : w'.mem = w.mem) (hl : w'.eng.latch = w.eng.latch)
    (hp : w'.eng.phase = w.eng.phase) (hr : w'.eng.race = w.eng.race) : Within lo hi w w' :=
  ⟨hl, hp, hr, fun _ _ => by rw [hm], fun h => by rwa [hm], fun _ _ h => by rwa [hm]⟩

theorem Within.writeBytes {lo hi a : Nat} {bs : List Byte} {w w' : Work} (he : w'.eng = w.eng)
    (hm : w'.mem = w.mem.writeBytes a bs) (h1 : lo ≤ a) (h2 : a + bs.length ≤ hi) : Within lo hi w w' := by
  refine ⟨by rw [he], by rw [he], by rw [he], fun x hx => ?_, fun h => ?_, fun top ht h => ?_⟩
  · rw [hm]; exact Memory.read_writeBytes_other _ _ _ _ (by omega)
  · rw [hm]; exact Memory.wf_writeBytes _ _ _ h
  · rw [hm]; exact Memory.inSpace_writeBytes _ _ _ _ h (Or.inl (by omega))

/-- Pieces that stay within a range stay within it in a row. -/
theorem Within.bind {α β : Type} {lo hi : Nat} {w : Work} {x : Res α} {f : α → Work → Res β}
    (hx : Within lo hi w x.after) (hf : ∀ a w', x = .ok a w' → Within lo hi w' (f a w').after) :
    Within lo hi w (x.bind f).after := by
  cases x with
  | ok a w' => exact hx.trans (hf a w' rfl)
  | raise c n w' => exact hx

theorem busWrites_within (p : Params) (lo hi a : Nat) (bs : List Byte) (w : Work) (h1 : lo ≤ a)
    (h2 : a + bs.length ≤ hi) : Within lo hi w (busWrites p a bs w).after := by
  obtain ⟨j, hj, h⟩ := busWrites_after p a bs w
  rw [h]
  exact Within.writeBytes (a := a) (bs := bs.take j) rfl rfl h1 (by simp; omega)

/-! ### Cursor primitives -/

/-- The work after the bytes have been read: i.P past them, i.G longer by them. -/
def advance (bs : List Byte) (w : Work) : Work :=
  { w with eng := { w.eng with p := BitVec.ofNat 64 (w.eng.p.toNat + bs.length), g := w.eng.g ++ bs } }

@[simp] theorem advance_mem (bs : List Byte) (w : Work) : (advance bs w).mem = w.mem := rfl
@[simp] theorem advance_latch (bs : List Byte) (w : Work) : (advance bs w).eng.latch = w.eng.latch := rfl
@[simp] theorem advance_g (bs : List Byte) (w : Work) : (advance bs w).eng.g = w.eng.g ++ bs := rfl
@[simp] theorem advance_acc (bs : List Byte) (w : Work) : (advance bs w).eng.acc = w.eng.acc := rfl
@[simp] theorem advance_sh (bs : List Byte) (w : Work) : (advance bs w).eng.sh = w.eng.sh := rfl
@[simp] theorem advance_p (bs : List Byte) (w : Work) :
    (advance bs w).eng.p = BitVec.ofNat 64 (w.eng.p.toNat + bs.length) := rfl

@[simp] theorem advance_nil (w : Work) : advance [] w = w := by simp [advance]

theorem advance_append (xs ys : List Byte) (w : Work) (h : w.eng.p.toNat + xs.length < 2 ^ 64) :
    advance ys (advance xs w) = advance (xs ++ ys) w := by
  simp only [advance, BitVec.toNat_ofNat, Nat.mod_eq_of_lt h, List.append_assoc, List.length_append, Nat.add_assoc]

theorem SourceHas.split {p : Params} {xs ys : List Byte} {w : Work} (h : SourceHas p (xs ++ ys) w) :
    SourceHas p xs w ∧ SourceHas p ys (advance xs w) := by
  have hf := h.fits
  have hb := h.bytes
  have hs := w.eng.latch.slen.isLt
  simp only [List.length_append] at hf hb
  rw [Memory.readBytes_append] at hb
  have hpair := List.append_inj hb (by simp)
  have hp : (advance xs w).eng.p.toNat = w.eng.p.toNat + xs.length := by
    simp only [advance_p, BitVec.toNat_ofNat]; exact Nat.mod_eq_of_lt (by omega)
  refine ⟨⟨by omega, fun j hj => h.accessible j (by simp; omega), hpair.1⟩, ⟨?_, ?_, ?_⟩⟩
  · rw [hp]; simp only [advance_latch]; omega
  · intro j hj
    have := h.accessible (xs.length + j) (by simp; omega)
    rw [hp]; simp only [advance_latch]
    rwa [show w.eng.latch.src.toNat + (w.eng.p.toNat + xs.length) + j
      = w.eng.latch.src.toNat + w.eng.p.toNat + (xs.length + j) by omega]
  · rw [hp]; simp only [advance_latch, advance_mem]
    rw [show w.eng.latch.src.toNat + (w.eng.p.toNat + xs.length)
      = w.eng.latch.src.toNat + w.eng.p.toNat + xs.length by omega]
    exact hpair.2

theorem SourceHas.no_wrap {p : Params} {bs : List Byte} {w : Work} (h : SourceHas p bs w) :
    w.eng.p.toNat + bs.length < 2 ^ 64 := by
  have := h.fits; have := w.eng.latch.slen.isLt; omega

theorem SourceHas.p_after {p : Params} {bs : List Byte} {w : Work} (h : SourceHas p bs w) :
    (advance bs w).eng.p.toNat = w.eng.p.toNat + bs.length := by
  simp only [advance_p, BitVec.toNat_ofNat]; exact Nat.mod_eq_of_lt h.no_wrap

theorem rdByte_ok (p : Params) (b : Byte) (w : Work) (h : SourceHas p [b] w) :
    rdByte p w = .ok b (advance [b] w) := by
  have hf := h.fits
  have hb := h.bytes
  have ha : p.accessibleAt (w.eng.latch.src.toNat + w.eng.p.toNat) = true := by
    simpa using h.accessible 0 (by simp)
  simp only [List.length_singleton] at hf
  simp only [List.length_singleton, Memory.readBytes, List.cons.injEq, and_true] at hb
  have hlt : ¬ w.eng.latch.slen ≤ w.eng.p := by
    rw [BitVec.le_def]; omega
  simp only [rdByte, if_neg hlt, busRead, ha, if_true, Res.bind_ok, hb, advance, List.length_singleton]
  congr 3

theorem rdBytes_ok (p : Params) (bs : List Byte) (w : Work) (h : SourceHas p bs w) :
    rdBytes p bs.length w = .ok bs (advance bs w) := by
  induction bs generalizing w with
  | nil => simp [rdBytes]
  | cons b bs ih =>
    obtain ⟨h1, h2⟩ := SourceHas.split (xs := [b]) (ys := bs) h
    simp only [List.length_cons, rdBytes, rdByte_ok p b w h1, Res.bind_ok, ih _ h2]
    rw [advance_append _ _ _ h1.no_wrap]
    rfl

/-- RdByte at or past the end of the buffer reads nothing (R125, R275). -/
theorem rdByte_truncated (p : Params) (w : Work) (h : w.eng.latch.slen.toNat ≤ w.eng.p.toNat) :
    rdByte p w = .raise .truncatedInput (w.eng.latch.src.toNat + w.eng.latch.slen.toNat) w := by
  have : w.eng.latch.slen ≤ w.eng.p := by rw [BitVec.le_def]; exact h
  simp [rdByte, this]

/-- A read past the end of the buffer reads the bytes there are, then raises TRUNCATED_INPUT (R126, R275). -/
theorem rdBytes_truncated (p : Params) (bs : List Byte) (n : Nat) (w : Work) (h : SourceHas p bs w)
    (hend : w.eng.p.toNat + bs.length = w.eng.latch.slen.toNat) (hn : bs.length < n) :
    rdBytes p n w
      = .raise .truncatedInput (w.eng.latch.src.toNat + w.eng.latch.slen.toNat) (advance bs w) := by
  induction bs generalizing w n with
  | nil =>
    cases n with
    | zero => simp at hn
    | succ n =>
      simp only [List.length_nil, Nat.add_zero] at hend
      simp [rdBytes, rdByte_truncated p w (by omega)]
  | cons b bs ih =>
    cases n with
    | zero => simp at hn
    | succ n =>
      obtain ⟨h1, h2⟩ := SourceHas.split (xs := [b]) (ys := bs) h
      simp only [List.length_cons] at hend hn
      have hp := h1.p_after
      simp only [List.length_singleton] at hp
      simp only [rdBytes, rdByte_ok p b w h1, Res.bind_ok]
      rw [ih n _ h2 (by rw [hp, advance_latch]; omega) (by omega), advance_append _ _ _ h1.no_wrap]
      rfl

/-- RdByte changes only i.P and i.G. -/
theorem rdByte_after (p : Params) (w : Work) :
    (rdByte p w).after = w ∨ ∃ b, (rdByte p w).after = { w with eng := { w.eng with p := w.eng.p + 1, g := w.eng.g ++ [b] } } := by
  simp only [rdByte]
  split
  · exact Or.inl rfl
  · simp only [busRead]
    split
    · exact Or.inr ⟨_, rfl⟩
    · exact Or.inl rfl

theorem emitGroup_ok (p : Params) (g : List Byte) (w : Work)
    (hc : w.eng.wc.toNat + g.length ≤ w.eng.latch.cap.toNat)
    (ha : AllAccessible p (w.eng.latch.dst.toNat + w.eng.wc.toNat) g.length) :
    emitGroup p g w = .ok ()
      { eng := { w.eng with g := g, wc := BitVec.ofNat 64 (w.eng.wc.toNat + g.length) }
        mem := w.mem.writeBytes (w.eng.latch.dst.toNat + w.eng.wc.toNat) g } := by
  have h : ¬ w.eng.latch.cap.toNat < w.eng.wc.toNat + g.length := by omega
  simp only [emitGroup, if_neg h]
  rw [busWrites_ok p _ g _ ha]
  rfl

/-- A group that does not fit writes nothing (R127, R274). -/
theorem emitGroup_too_small (p : Params) (g : List Byte) (w : Work)
    (hc : w.eng.latch.cap.toNat < w.eng.wc.toNat + g.length) :
    emitGroup p g w = .raise .bufferTooSmall (w.eng.latch.dst.toNat + w.eng.wc.toNat)
      { w with eng := { w.eng with g := g } } := by
  simp [emitGroup, hc]

/-- A group stopped by the bus leaves its bytes before the failing address, and i.WC without it (R127, R278). -/
theorem emitGroup_bus_error (p : Params) (g : List Byte) (j : Nat) (w : Work)
    (hc : w.eng.wc.toNat + g.length ≤ w.eng.latch.cap.toNat) (hj : j < g.length)
    (ha : AllAccessible p (w.eng.latch.dst.toNat + w.eng.wc.toNat) j)
    (hf : p.accessibleAt (w.eng.latch.dst.toNat + w.eng.wc.toNat + j) = false) :
    emitGroup p g w = .raise .busError (w.eng.latch.dst.toNat + w.eng.wc.toNat + j)
      { eng := { w.eng with g := g }
        mem := w.mem.writeBytes (w.eng.latch.dst.toNat + w.eng.wc.toNat) (g.take j) } := by
  have h : ¬ w.eng.latch.cap.toNat < w.eng.wc.toNat + g.length := by omega
  simp only [emitGroup, if_neg h]
  rw [busWrites_fails p _ j g _ hj ha hf]
  rfl

theorem emitGroup_within (p : Params) (g : List Byte) (w : Work) :
    Within w.eng.latch.dst.toNat (w.eng.latch.dst.toNat + w.eng.latch.cap.toNat) w (emitGroup p g w).after := by
  simp only [emitGroup]
  split
  · exact Within.of_eng rfl rfl rfl rfl
  · refine Within.bind (Within.trans (w' := { w with eng := { w.eng with g := g } }) (Within.of_eng rfl rfl rfl rfl)
      (busWrites_within p _ _ _ g _ (by omega) (by omega))) ?_
    intro _ w' _
    exact Within.of_eng rfl rfl rfl rfl

theorem readElem_ok (p : Params) (e : Nat) (w : Work)
    (h : AllAccessible p (w.eng.latch.src.toNat + 8 * e) 8) :
    readElem p e w = .ok (w.mem.element w.eng.latch.src.toNat e) w := by
  simp [readElem, busReads_ok p _ 8 w h, Memory.element]

theorem readElem_fails (p : Params) (e j : Nat) (w : Work) (hj : j < 8)
    (h : AllAccessible p (w.eng.latch.src.toNat + 8 * e) j)
    (hf : p.accessibleAt (w.eng.latch.src.toNat + 8 * e + j) = false) :
    readElem p e w = .raise .busError (w.eng.latch.src.toNat + 8 * e + j) w := by
  simp [readElem, busReads_fails p _ 8 j w hj h hf]

theorem readElem_after (p : Params) (e : Nat) (w : Work) : (readElem p e w).after = w := by
  have := busReads_after p (w.eng.latch.src.toNat + 8 * e) 8 w
  simp only [readElem]
  cases hx : busReads p (w.eng.latch.src.toNat + 8 * e) 8 w <;> rw [hx] at this <;> simpa using this

theorem storeElem_ok (p : Params) (e : Nat) (v : Word) (w : Work)
    (h : AllAccessible p (w.eng.latch.dst.toNat + 8 * e) 8) :
    storeElem p e v w
      = .ok () { w with mem := w.mem.writeBytes (w.eng.latch.dst.toNat + 8 * e) (bytesLE 8 v.toNat) } :=
  busWrites_ok p _ _ w (by simpa using h)

theorem storeElem_within (p : Params) (e : Nat) (v : Word) (w : Work)
    (h : 8 * e + 8 ≤ w.eng.latch.cap.toNat) :
    Within w.eng.latch.dst.toNat (w.eng.latch.dst.toNat + w.eng.latch.cap.toNat) w (storeElem p e v w).after :=
  busWrites_within p _ _ _ _ w (by omega) (by simp; omega)

theorem strictCheck_after (w : Work) : (strictCheck w).after = w := by
  simp only [strictCheck]; split <;> rfl

/-! ### Start checks and completion -/

theorem startChecks_after (p : Params) (legal : Bool) (d : Dir) (w : Work) : (startChecks p legal d w).after = w := by
  simp only [startChecks]; split_ifs <;> rfl

/-- The start checks let a command through exactly under the conditions of R123. -/
theorem startChecks_eq_ok (p : Params) (legal : Bool) (d : Dir) (w w' : Work)
    (h : startChecks p legal d w = .ok () w') :
    w' = w ∧ legal = true ∧ pastTop p (srcRegion d w.eng.latch) = false ∧ pastTop p (dstRegion w.eng.latch) = false ∧
      (srcRegion d w.eng.latch).meets (dstRegion w.eng.latch) = false ∧
      (d = .dec → 8 * w.eng.latch.cnt.toNat ≤ w.eng.latch.cap.toNat) := by
  simp only [startChecks] at h
  split_ifs at h with h1 h2 h3 h4 h5
  simp only [Res.ok.injEq, true_and] at h
  simp only [Bool.not_eq_false, Bool.not_eq_true, not_and, not_lt] at h1 h2 h3 h4 h5
  exact ⟨h.symm, h1, h2, h3, h4, h5⟩

theorem startChecks_ok (p : Params) (d : Dir) (w : Work) (h2 : pastTop p (srcRegion d w.eng.latch) = false)
    (h3 : pastTop p (dstRegion w.eng.latch) = false)
    (h4 : (srcRegion d w.eng.latch).meets (dstRegion w.eng.latch) = false)
    (h5 : d = .dec → 8 * w.eng.latch.cnt.toNat ≤ w.eng.latch.cap.toNat) :
    startChecks p true d w = .ok () w := by
  have : ¬ (d = .dec ∧ w.eng.latch.cap.toNat < 8 * w.eng.latch.cnt.toNat) := fun ⟨a, b⟩ => by have := h5 a; omega
  simp [startChecks, h2, h3, h4, this]

/-- What a command answers: its completion, whatever its work (R130, R279). -/
theorem runCommand_eq (legal : Bool) (d : Dir) (body : Params → Work → Res Unit) (s : State)
    (hl : s.params.legal = true) :
    runCommand legal d body s = .next (if s.raced d then completeRaced s else finish d
      ((startChecks s.params legal d ⟨s.eng, s.mem⟩).bind fun _ w => body s.params w) s) := by
  simp only [runCommand, hl, Bool.true_eq_false, if_false]
  split <;> rfl

/-- A command's answer, by cases: refused, raced, or its completion with a code and an address (R130). -/
theorem runCommand_cases (legal : Bool) (d : Dir) (body : Params → Work → Res Unit) (s t : State)
    (h : runCommand legal d body s = .next t) :
    s.params.legal = true ∧ ((s.raced d = true ∧ t = completeRaced s) ∨
      (s.raced d = false ∧ ∃ c a, t = complete d c a
        (withWork ((startChecks s.params legal d ⟨s.eng, s.mem⟩).bind fun _ w => body s.params w).after s))) := by
  by_cases hl : s.params.legal = true
  · refine ⟨hl, ?_⟩
    rw [runCommand_eq legal d body s hl] at h
    by_cases hr : s.raced d = true
    · simp only [hr, if_true, Host.Outcome.next.injEq] at h
      exact Or.inl ⟨hr, h.symm⟩
    · simp only [Bool.not_eq_true] at hr
      simp only [hr, Bool.false_eq_true, if_false, Host.Outcome.next.injEq] at h
      refine Or.inr ⟨hr, ?_⟩
      rw [← h]
      cases (startChecks s.params legal d ⟨s.eng, s.mem⟩).bind fun _ w => body s.params w with
      | ok a w => exact ⟨.ok, 0, rfl⟩
      | raise c a w => exact ⟨c, a, rfl⟩
  · simp only [Bool.not_eq_true] at hl
    simp [runCommand, hl] at h

end Sys2Proof.Machine
end

