-- ==== Sys2Proof/Laws/Groups.lean ====
section
/-! SUPPORT. The groups of the codecs: every canonical group is a group of its value, and every decoder reads every
group (R100 to R108, R150 to R154, R170 to R174, R194 to R196, R241 to R246). -/

namespace Sys2Proof.Machine

/-- The work after a group of a decode has been read: i.P past it, nothing but the datapath changed with it. -/
structure Consumed (g : List Byte) (w w' : Work) : Prop where
  mem : w'.mem = w.mem
  latch : w'.eng.latch = w.eng.latch
  phase : w'.eng.phase = w.eng.phase
  race : w'.eng.race = w.eng.race
  rc : w'.eng.rc = w.eng.rc
  wc : w'.eng.wc = w.eng.wc
  ei : w'.eng.ei = w.eng.ei
  p : w'.eng.p = BitVec.ofNat 64 (w.eng.p.toNat + g.length)

theorem consumed_advance (g : List Byte) (w : Work) : Consumed g w (advance g w) :=
  ⟨rfl, rfl, rfl, rfl, rfl, rfl, rfl, rfl⟩

/-! ### LEB128 -/

theorem leb128Bytes_toNat_low (v : Nat) :
    (BitVec.ofNat 8 ((v &&& 0x7F) ||| 0x80)).toNat = v % 128 + 128 := by
  have h1 : v &&& 0x7F = v % 128 := Nat.and_two_pow_sub_one_eq_mod v 7
  have h2 : (v % 128) ||| 0x80 = v % 128 + 128 := by
    rw [Nat.lor_comm]
    have := Nat.two_pow_add_eq_or_of_lt (show v % 128 < 2 ^ 7 by omega) 1
    simpa [Nat.add_comm] using this.symm
  rw [h1, h2, BitVec.toNat_ofNat, Nat.mod_eq_of_lt (by omega)]

/-- The encoder's loop writes a chained group that sums to its value. -/
theorem leb128Bytes_group (k v : Nat) (h : v < 128 ^ (k + 1)) :
    leb128Chained (leb128Bytes k v) ∧ leb128Sum (leb128Bytes k v) = v ∧
      1 ≤ (leb128Bytes k v).length ∧ (leb128Bytes k v).length ≤ k + 1 := by
  induction k generalizing v with
  | zero =>
    have hv : v % 256 = v := Nat.mod_eq_of_lt (by omega)
    simp only [zero_add, pow_one] at h
    simp [leb128Bytes, leb128Chained, leb128Sum, BitVec.toNat_ofNat, hv]
    omega
  | succ k ih =>
    simp only [leb128Bytes]
    split
    · have hs : v >>> 7 = v / 128 := Nat.shiftRight_eq_div_pow v 7
      have hlt : v / 128 < 128 ^ (k + 1) := by
        rw [Nat.div_lt_iff_lt_mul (by norm_num), ← pow_succ]; exact h
      obtain ⟨h1, h2, h3, h4⟩ := ih (v / 128) hlt
      rw [hs]
      refine ⟨?_, ?_, by simp, by simpa using h4⟩
      · cases hb : leb128Bytes k (v / 128) with
        | nil => rw [hb] at h3; simp at h3
        | cons b bs =>
          rw [hb] at h1
          refine ⟨?_, h1⟩
          rw [leb128Bytes_toNat_low]; omega
      · simp only [leb128Sum, h2, leb128Bytes_toNat_low]; omega
    · have hv : v % 256 = v := Nat.mod_eq_of_lt (by omega)
      simp [leb128Chained, leb128Sum, BitVec.toNat_ofNat, hv]
      omega

theorem canonical_leb128 (v : Word) : Leb128Group (encGroupLeb128 v) v := by
  have hv := v.isLt
  obtain ⟨h1, h2, _, h4⟩ := leb128Bytes_group 9 v.toNat (by norm_num; omega)
  exact ⟨h1, h4, by rw [encGroupLeb128, h2, BitVec.ofNat_toNat, BitVec.setWidth_eq]⟩

theorem leb128Chained_ne_nil {g : List Byte} (h : leb128Chained g) : g ≠ [] := by
  rintro rfl; exact h

/-- A 7-bit group joins the rest of the sum as bits do. -/
theorem leb128_join (b : Byte) (n : Nat) :
    BitVec.ofNat 64 (b.toNat &&& 0x7F) ||| (BitVec.ofNat 64 n <<< 7)
      = BitVec.ofNat 64 (b.toNat % 128 + 128 * n) := by
  have h1 : b.toNat &&& 0x7F = b.toNat % 128 := Nat.and_two_pow_sub_one_eq_mod _ 7
  have h2 : b.toNat % 128 + 128 * n = (n <<< 7) ||| (b.toNat % 128) := by
    rw [← Nat.shiftLeft_add_eq_or_of_lt (show b.toNat % 128 < 2 ^ 7 by omega), Nat.shiftLeft_eq]; omega
  rw [h1, h2]
  apply BitVec.eq_of_getLsbD_eq
  intro i hi
  simp only [BitVec.getLsbD_or, BitVec.getLsbD_shiftLeft, BitVec.getLsbD_ofNat, Nat.testBit_or, Nat.testBit_shiftLeft, hi,
    decide_true, Bool.true_and]
  by_cases h7 : i < 7
  · simp [h7]
  · have : i - 7 < 64 := by omega
    simp [h7, this, show 7 ≤ i by omega, Bool.or_comm]

/-- The decoder's loop reads any chained group that is not too long, from shift offset 7·i on (R152). -/
theorem decLebLoop_ok (p : Params) (g : List Byte) (more i : Nat) (w : Work) (hc : leb128Chained g)
    (hlen : g.length ≤ more + 1) (hi : i + more = 9) (hsh : w.eng.sh.toNat = 7 * i) (h : SourceHas p g w) :
    ∃ w', decLebLoop p more w = .ok (w.eng.acc ||| (BitVec.ofNat 64 (leb128Sum g) <<< (7 * i))) w' ∧
      Consumed g w w' ∧ w'.eng.sh.toNat ≤ 63 ∧ w'.eng.g = w.eng.g ++ g := by
  induction g generalizing more i w with
  | nil => exact absurd rfl (leb128Chained_ne_nil hc)
  | cons b bs ih =>
    obtain ⟨h1, h2⟩ := SourceHas.split (xs := [b]) (ys := bs) h
    have hmsb : b.getLsbD 7 = decide (128 ≤ b.toNat) := by
      rw [← BitVec.msb_eq_getLsbD_last, BitVec.msb_eq_decide]
    cases bs with
    | nil =>
      have hlt : b.toNat < 128 := hc
      have hb : b.getLsbD 7 = false := by rw [hmsb]; simpa using hlt
      have hand : b.toNat &&& 0x7F = leb128Sum [b] := by
        have := Nat.and_two_pow_sub_one_eq_mod b.toNat 7
        simp only [leb128Sum]; omega
      refine ⟨lebAccumulate b (advance [b] w), ?_, ⟨rfl, rfl, rfl, rfl, rfl, rfl, rfl, rfl⟩, ?_, rfl⟩
      · unfold decLebLoop
        simp only [rdByte_ok p b w h1, Res.bind_ok, hb, if_true, lebAccumulate_acc, advance_acc, advance_sh, hsh, hand]
      · simp only [lebAccumulate_sh, advance_sh, hsh]; omega
    | cons b' bs =>
      obtain ⟨hge, hrest⟩ := hc
      have hb : b.getLsbD 7 = true := by rw [hmsb]; simpa using hge
      cases more with
      | zero => simp at hlen
      | succ k =>
        have hsh' : (lebShift (lebAccumulate b (advance [b] w))).eng.sh.toNat = 7 * (i + 1) := by
          have h7 : (7 : BitVec 7).toNat = 7 := rfl
          simp only [lebShift_sh, lebAccumulate_sh, advance_sh, BitVec.toNat_add, hsh, h7]
          omega
        have hsrc : SourceHas p (b' :: bs) (lebShift (lebAccumulate b (advance [b] w))) :=
          ⟨h2.fits, h2.accessible, h2.bytes⟩
        obtain ⟨w', hw, hcons, hs, hg⟩ := ih k (i + 1) _ hrest (by simpa using hlen) (by omega) hsh' hsrc
        refine ⟨w', ?_, ⟨hcons.mem, hcons.latch, hcons.phase, hcons.race, hcons.rc, hcons.wc, hcons.ei, ?_⟩, hs, ?_⟩
        · unfold decLebLoop
          simp only [rdByte_ok p b w h1, Res.bind_ok, hb, Bool.true_eq_false, if_false, hw, lebShift_acc,
            lebAccumulate_acc, advance_acc, advance_sh, hsh]
          rw [show leb128Sum (b :: b' :: bs) = b.toNat % 128 + 128 * leb128Sum (b' :: bs) from rfl, ← leb128_join, BitVec.shiftLeft_or_distrib, BitVec.or_assoc, ← BitVec.shiftLeft_add,
            show 7 + 7 * i = 7 * (i + 1) by omega]
        · have hp := h1.p_after
          rw [hcons.p]
          show BitVec.ofNat 64 ((advance [b] w).eng.p.toNat + _) = _
          rw [hp]
          simp only [List.length_cons, List.length_nil]
          congr 1; omega
        · rw [hg]; simp

theorem decGroupLeb128_ok (p : Params) (g : List Byte) (v : Word) (w : Work) (hg : Leb128Group g v)
    (h : SourceHas p g w) : ∃ w', decGroupLeb128 p w = .ok v w' ∧ Consumed g w w' := by
  obtain ⟨hc, hlen, hv⟩ := hg
  obtain ⟨w', hw, hcons, _, _⟩ := decLebLoop_ok p g 9 0 { w with eng := { w.eng with acc := 0, sh := 0 } } hc hlen
    rfl rfl ⟨h.fits, h.accessible, h.bytes⟩
  refine ⟨w', ?_, hcons.mem, hcons.latch, hcons.phase, hcons.race, hcons.rc, hcons.wc, hcons.ei, hcons.p⟩
  rw [decGroupLeb128, hw, hv]
  simp

/-! ### PrefixVarint -/

/-- The search finds the first length that holds the value, if one of those tried does. -/
theorem prefixLength_eq_some (tries k v n : Nat) (h : prefixLength tries k v = some n) :
    k ≤ n ∧ n < k + tries ∧ v < 2 ^ (7 * n) ∧ ∀ j, k ≤ j → j < n → 2 ^ (7 * j) ≤ v := by
  induction tries generalizing k with
  | zero => simp [prefixLength] at h
  | succ t ih =>
    simp only [prefixLength] at h
    split at h
    · next hlt =>
      simp only [Option.some.injEq] at h
      subst h
      exact ⟨le_rfl, by omega, hlt, fun j h1 h2 => by omega⟩
    · next hge =>
      obtain ⟨h1, h2, h3, h4⟩ := ih (k + 1) h
      refine ⟨by omega, by omega, h3, fun j hj hj' => ?_⟩
      rcases Nat.eq_or_lt_of_le hj with rfl | hlt
      · omega
      · exact h4 j hlt hj'

theorem prefixLength_eq_none (tries k v : Nat) (h : prefixLength tries k v = none) :
    ∀ j, k ≤ j → j < k + tries → 2 ^ (7 * j) ≤ v := by
  induction tries generalizing k with
  | zero => intro j h1 h2; omega
  | succ t ih =>
    simp only [prefixLength] at h
    split at h
    · simp at h
    · next hge =>
      intro j h1 h2
      rcases Nat.eq_or_lt_of_le h1 with rfl | hlt
      · omega
      · exact ih (k + 1) h j hlt (by omega)

/-- The tag and the value share the group's bits (R102, R170). -/
theorem prefix_join (v k : Nat) (hk : 1 ≤ k) : (v <<< k) ||| (2 ^ (k - 1) - 1) = v * 2 ^ k + (2 ^ (k - 1) - 1) := by
  have h2 : 2 ^ (k - 1) - 1 < 2 ^ k := by
    have : 2 ^ (k - 1) < 2 ^ k := Nat.pow_lt_pow_right (by norm_num) (by omega)
    exact lt_of_le_of_lt (Nat.sub_le _ _) this
  rw [← Nat.shiftLeft_add_eq_or_of_lt h2, Nat.shiftLeft_eq]

theorem canonical_prefix (v : Word) : PrefixGroup (encGroupPrefixVarint v) v := by
  unfold encGroupPrefixVarint
  cases hk : prefixLength 8 1 v.toNat with
  | none =>
    refine ⟨0xFF, bytesLE 8 v.toNat, rfl, Or.inl ⟨by decide, by simp, ?_⟩⟩
    exact (word_of_le8 v).symm
  | some k =>
    obtain ⟨h1, h2, h3, _⟩ := prefixLength_eq_some 8 1 v.toNat k hk
    simp only []
    rw [prefix_join v.toNat k h1]
    obtain ⟨n, rfl⟩ : ∃ n, k = n + 1 := ⟨k - 1, by omega⟩
    simp only [Nat.add_sub_cancel]
    have hpos : 0 < 2 ^ n := by positivity
    have hpow : 2 ^ (n + 1) = 2 * 2 ^ n := by ring
    set E := v.toNat * 2 ^ (n + 1) + (2 ^ n - 1) with hE
    have hmod : E % 2 ^ (n + 1) = 2 ^ n - 1 := by
      rw [hE, Nat.add_comm, Nat.add_mul_mod_self_right, Nat.mod_eq_of_lt (by omega)]
    have hdiv : E >>> (n + 1) = v.toNat := by
      rw [Nat.shiftRight_eq_div_pow, hE, Nat.add_comm, Nat.add_mul_div_right _ _ (by positivity),
        Nat.div_eq_of_lt (by omega), Nat.zero_add]
    have hlt : E < 256 ^ (n + 1) := by
      have e1 : (256 : Nat) ^ (n + 1) = 2 ^ (7 * (n + 1)) * 2 ^ (n + 1) := by
        rw [show (256 : Nat) = 2 ^ 8 by norm_num, ← pow_mul, ← pow_add]; congr 1; omega
      rw [e1, hE]
      have : (v.toNat + 1) * 2 ^ (n + 1) ≤ 2 ^ (7 * (n + 1)) * 2 ^ (n + 1) := Nat.mul_le_mul_right _ h3
      have e2 : (v.toNat + 1) * 2 ^ (n + 1) = v.toNat * 2 ^ (n + 1) + 2 ^ (n + 1) := by ring
      omega
    have htag : trailingOnes8 (BitVec.ofNat 8 E) = n := by
      refine trailingOnes_of_tag 8 n _ (by omega) ?_
      rw [BitVec.toNat_ofNat, Nat.mod_mod_of_dvd _ (pow_dvd_pow 2 (by omega)), hmod]
    refine ⟨BitVec.ofNat 8 E, bytesLE n (E / 256), rfl, Or.inr ⟨by omega, by simp [htag], ?_⟩⟩
    have : BitVec.ofNat 8 E :: bytesLE n (E / 256) = bytesLE (n + 1) E := rfl
    rw [this, leNat_bytesLE_of_lt _ _ hlt, htag, hdiv, BitVec.ofNat_toNat, BitVec.setWidth_eq]

theorem decGroupPrefixVarint_ok (p : Params) (g : List Byte) (v : Word) (w : Work) (hg : PrefixGroup g v)
    (h : SourceHas p g w) : decGroupPrefixVarint p w = .ok v (advance g w) := by
  obtain ⟨b0, rest, rfl, hcase⟩ := hg
  obtain ⟨h1, h2⟩ := SourceHas.split (xs := [b0]) (ys := rest) h
  have hadv := advance_append [b0] rest w h1.no_wrap
  rcases hcase with ⟨ht, hl, hv⟩ | ⟨ht, hl, hv⟩
  · have := rdBytes_ok p rest _ h2
    rw [hl] at this
    simp [decGroupPrefixVarint, rdByte_ok p b0 w h1, ht, this, hv, hadv]
  · have := rdBytes_ok p rest _ h2
    rw [hl] at this
    have hne : trailingOnes8 b0 ≠ 8 := by omega
    simp [decGroupPrefixVarint, rdByte_ok p b0 w h1, hne, this, hv, hadv]

/-! ### The bucket engine -/

theorem row_legal_of_mem {T : List BucketRow} {r : BucketRow} (hT : tableLegal T = true) (hr : r ∈ T) :
    r.lo ≤ r.hi ∧ r.hi ≤ 255 ∧ r.p ≤ 8 ∧ (r.hi - r.lo + 1) <<< (8 * r.p) ≤ 2 ^ 64 := by
  simp only [tableLegal, Bool.and_eq_true, List.all_eq_true] at hT
  have := hT.1.1.1 r hr
  simp only [BucketRow.legal, Bool.and_eq_true, decide_eq_true_eq] at this
  exact ⟨this.1.1.1, this.1.1.2, this.1.2, this.2⟩

/-- In an ordered table a first byte of a row selects that row (R192 item 2, R193). -/
theorem rowOf_of_mem (T : List BucketRow) (hT : tableOrdered T = true) (r : BucketRow) (hr : r ∈ T) (b0 : Nat)
    (h1 : r.lo ≤ b0) (h2 : b0 ≤ r.hi) : rowOf T b0 = some r := by
  induction T with
  | nil => simp at hr
  | cons r' T ih =>
    simp only [tableOrdered, Bool.and_eq_true, List.all_eq_true] at hT
    simp only [rowOf, List.find?_cons]
    rcases List.mem_cons.1 hr with rfl | hmem
    · simp [BucketRow.holds, h1, h2]
    · have hd := (hT.1 r hmem).1
      simp only [BucketRow.disjoint, Bool.or_eq_true, decide_eq_true_eq] at hd
      have : r'.holds b0 = false := by
        simp only [BucketRow.holds, Bool.and_eq_false_iff, decide_eq_false_iff_not]; omega
      rw [this]
      exact ih hT.2 hmem

theorem bucket_find (T : List BucketRow) (hT : tableLegal T = true) (v : Word) :
    ∃ r, T.find? (fun r => decide (v.toNat ≤ r.max)) = some r := by
  have hlast : tableLastFull T = true := by
    simp only [tableLegal, Bool.and_eq_true] at hT; exact hT.1.2
  unfold tableLastFull at hlast
  cases hg : T.getLast? with
  | none => rw [hg] at hlast; simp at hlast
  | some r =>
    rw [hg] at hlast
    simp only [decide_eq_true_eq] at hlast
    have hmem : r ∈ T := List.mem_of_getLast? hg
    have hv := v.isLt
    rw [← Option.isSome_iff_exists, List.find?_isSome]
    exact ⟨r, hmem, by simp only [decide_eq_true_eq]; omega⟩

theorem canonical_bucket (T : List BucketRow) (hT : tableLegal T = true) (v : Word) :
    BucketGroup T (encGroupBucket T v) v ∧ (encGroupBucket T v).length ≤ 9 := by
  obtain ⟨r, hr⟩ := bucket_find T hT v
  have hmem := List.mem_of_find?_eq_some hr
  have hmax := List.find?_some hr
  simp only [decide_eq_true_eq] at hmax
  obtain ⟨h1, h2, h3, _⟩ := row_legal_of_mem hT hmem
  have hord : tableOrdered T = true := by
    simp only [tableLegal, Bool.and_eq_true] at hT; exact hT.1.1.2
  have hpos : 0 < 2 ^ (8 * r.p) := by positivity
  have hq : v.toNat / 2 ^ (8 * r.p) < r.hi - r.lo + 1 := by
    rw [Nat.div_lt_iff_lt_mul hpos]
    simp only [BucketRow.max, Nat.shiftLeft_eq] at hmax
    have : 0 < (r.hi - r.lo + 1) * 2 ^ (8 * r.p) := by positivity
    omega
  have hb0 : (BitVec.ofNat 8 (r.lo + v.toNat >>> (8 * r.p))).toNat = r.lo + v.toNat / 2 ^ (8 * r.p) := by
    rw [BitVec.toNat_ofNat, Nat.shiftRight_eq_div_pow]
    generalize v.toNat / 2 ^ (8 * r.p) = q at hq
    exact Nat.mod_eq_of_lt (by omega)
  have hmod : v.toNat % 2 ^ (8 * r.p) < 256 ^ r.p := by
    rw [show (256 : Nat) = 2 ^ 8 by norm_num, ← pow_mul]; exact Nat.mod_lt _ hpos
  simp only [encGroupBucket, hr, groupInRow]
  refine ⟨⟨_, _, r, rfl, ?_, by simp, ?_⟩, by simp; omega⟩
  · rw [hb0]
    generalize v.toNat / 2 ^ (8 * r.p) = q at hq
    exact rowOf_of_mem T hord r hmem _ (by omega) (by omega)
  · rw [hb0, leNat_bytesLE_of_lt _ _ hmod, Nat.add_sub_cancel_left,
      ← Nat.shiftLeft_add_eq_or_of_lt (Nat.mod_lt _ hpos), Nat.shiftLeft_eq, Nat.mul_comm, Nat.div_add_mod,
      BitVec.ofNat_toNat, BitVec.setWidth_eq]

theorem decGroupBucket_ok (T : List BucketRow) (p : Params) (g : List Byte) (v : Word) (w : Work)
    (hg : BucketGroup T g v) (h : SourceHas p g w) : decGroupBucket T p w = .ok v (advance g w) := by
  obtain ⟨b0, rest, r, rfl, hr, hl, hv⟩ := hg
  obtain ⟨h1, h2⟩ := SourceHas.split (xs := [b0]) (ys := rest) h
  have hadv := advance_append [b0] rest w h1.no_wrap
  have := rdBytes_ok p rest _ h2
  rw [hl] at this
  simp [decGroupBucket, rdByte_ok p b0 w h1, hr, this, hv, hadv]

/-! ### NanoLog -/

theorem canonical_pair (a b : Word) : PairGroup (encPair a b) a b := by
  have ha := byteLen_word_le a
  have hb := byteLen_word_le b
  have ha' := byteLen_pos a.toNat
  have hb' := byteLen_pos b.toNat
  exact ⟨_, _, _, rfl, by rw [hiNib_packNibbles _ _ (by omega) (by omega)]; simp,
    by rw [loNib_packNibbles _ _ (by omega) (by omega)]; simp, by simpa using ha', by simpa using ha, by simpa using hb',
    by simpa using hb, (word_of_minimal a).symm, (word_of_minimal b).symm⟩

theorem canonical_single (pad : Nat) (hp : pad ≤ 15) (a : Word) : SingleGroup (encSingle pad a) a := by
  have ha := byteLen_word_le a
  have ha' := byteLen_pos a.toNat
  exact ⟨_, _, rfl, by rw [hiNib_packNibbles _ _ (by omega) hp]; simp, by simpa using ha', by simpa using ha,
    (word_of_minimal a).symm⟩

theorem rdHeader_ok (p : Params) (b : Byte) (w : Work) (h : SourceHas p [b] w) :
    rdHeader p w = .ok b (setHeader b (advance [b] w)) := by
  simp [rdHeader, rdByte_ok p b w h]

theorem decNibbleLen_ok (n : Nat) (w : Work) (h1 : 1 ≤ n) (h2 : n ≤ 8) : decNibbleLen n w = .ok n w := by
  have : ¬ (n < 1 ∨ 8 < n) := by omega
  rw [decNibbleLen, if_neg this]

theorem rdValue_ok (p : Params) (xs : List Byte) (w : Work) (h : SourceHas p xs w) :
    rdValue p xs.length w = .ok (BitVec.ofNat 64 (leNat xs)) (advance xs w) := by
  simp [rdValue, rdBytes_ok p xs w h]

theorem decPair_ok (p : Params) (g : List Byte) (a b : Word) (w : Work) (hg : PairGroup g a b)
    (h : SourceHas p g w) : ∃ w', decPair p w = .ok (a, b) w' ∧ Consumed g w w' := by
  obtain ⟨hd, xs, ys, rfl, hh, hl, x1, x2, y1, y2, ha, hb⟩ := hg
  obtain ⟨h1, h2⟩ := SourceHas.split (xs := [hd]) (ys := xs ++ ys) h
  obtain ⟨h3, h4⟩ := h2.split
  have h3' : SourceHas p xs (setHeader hd (advance [hd] w)) :=
    ⟨h3.fits, h3.accessible, h3.bytes⟩
  have h4' : SourceHas p ys (advance xs (setHeader hd (advance [hd] w))) :=
    ⟨h4.fits, h4.accessible, h4.bytes⟩
  refine ⟨advance ys (advance xs (setHeader hd (advance [hd] w))), ?_,
    ⟨rfl, rfl, rfl, rfl, rfl, rfl, rfl, ?_⟩⟩
  · simp [decPair, rdHeader_ok p hd w h1, hh, hl, decNibbleLen_ok _ _ x1 x2, decNibbleLen_ok _ _ y1 y2,
      rdValue_ok p xs _ h3', rdValue_ok p ys _ h4', ha, hb]
  · have e1 := h1.p_after
    have e2 := h3.p_after
    show BitVec.ofNat 64 ((advance xs (advance [hd] w)).eng.p.toNat + ys.length) = _
    rw [e2, e1]
    simp only [List.length_cons, List.length_append, List.length_nil]
    congr 1; omega

theorem decSingle_ok (p : Params) (g : List Byte) (a : Word) (w : Work) (hg : SingleGroup g a)
    (h : SourceHas p g w) : ∃ w', decSingle p w = .ok a w' ∧ Consumed g w w' := by
  obtain ⟨hd, xs, rfl, hh, x1, x2, ha⟩ := hg
  obtain ⟨h1, h3⟩ := SourceHas.split (xs := [hd]) (ys := xs) h
  have h3' : SourceHas p xs (setHeader hd (advance [hd] w)) :=
    ⟨h3.fits, h3.accessible, h3.bytes⟩
  refine ⟨advance xs (setHeader hd (advance [hd] w)), ?_,
    ⟨rfl, rfl, rfl, rfl, rfl, rfl, rfl, ?_⟩⟩
  · simp [decSingle, rdHeader_ok p hd w h1, hh, decNibbleLen_ok _ _ x1 x2, rdValue_ok p xs _ h3', ha]
  · have e1 := h1.p_after
    show BitVec.ofNat 64 ((advance [hd] w).eng.p.toNat + xs.length) = _
    rw [e1]
    simp only [List.length_cons, List.length_nil]
    congr 1; omega

/-! ### Lengths (R106, R107) -/

theorem encGroupLeb128_length (v : Word) : 1 ≤ (encGroupLeb128 v).length ∧ (encGroupLeb128 v).length ≤ 10 := by
  have hv := v.isLt
  exact (leb128Bytes_group 9 v.toNat (by norm_num; omega)).2.2

theorem encGroupPrefixVarint_length (v : Word) :
    1 ≤ (encGroupPrefixVarint v).length ∧ (encGroupPrefixVarint v).length ≤ 9 := by
  unfold encGroupPrefixVarint
  cases hk : prefixLength 8 1 v.toNat with
  | none => simp
  | some k =>
    obtain ⟨h1, h2, _, _⟩ := prefixLength_eq_some 8 1 v.toNat k hk
    simp only [bytesLE_length]; omega

theorem encPair_length (a b : Word) : (encPair a b).length = 1 + byteLen a.toNat + byteLen b.toNat := by
  simp [encPair]; omega

theorem encSingle_length (pad : Nat) (a : Word) : (encSingle pad a).length = 1 + byteLen a.toNat := by
  simp [encSingle]; omega

end Sys2Proof.Machine
end

