-- ==== Sys2Proof/Laws/Loops.lean ====
section
/-! SUPPORT. The loops of the commands (R132, R133, R243, R245): what they do when every group goes through, how they
split, and what every command is in terms of them. -/

namespace Sys2Proof.Machine

/-! ### The loop of a command by codec -/

/-- The group reader of a codec with one group per element (R141). -/
def elementReader (p : Params) : Codec → Work → Res Word
  | .leb128 => decGroupLeb128 p
  | .prefixVarint => decGroupPrefixVarint p
  | .lesqlite => decGroupBucket p.lesqliteTable p
  | .lesqlite2 => decGroupBucket p.lesqlite2Table p
  | .nanolog => decSingle p

/-- The encode loop of a codec (R141). -/
def encBody (p : Params) (c : Codec) (n e : Nat) (w : Work) : Res Unit :=
  match c with
  | .nanolog => encNanologLoop p n e w
  | c => encodeLoop p (canonicalGroup p c) n e w

/-- The decode loop of a codec (R141). -/
def decBody (p : Params) (c : Codec) (n e : Nat) (w : Work) : Res Unit :=
  match c with
  | .nanolog => decNanologLoop p n e w
  | c => decodeLoop p (elementReader p c) n e w

/-- Every encode command is its codec's loop between the start checks and the completion. -/
theorem exec_enc (c : Codec) (s : State) :
    exec (instrOf c .enc) s = runCommand true .enc (fun p w => encBody p c w.eng.latch.cnt.toNat 0 w) s := by
  cases c <;> rfl

/-- Every decode command is its codec's loop and the strict check between the start checks and the completion. -/
theorem exec_dec (c : Codec) (s : State) :
    exec (instrOf c .dec) s = runCommand true .dec
      (fun p w => (decBody p c w.eng.latch.cnt.toNat 0 w).bind fun _ w => strictCheck w) s := by
  cases c <;> rfl

/-- A command that passes its start checks answers the completion of its loop. -/
theorem exec_enc_startable (c : Codec) (s : State) (h : Startable .enc s) :
    exec (instrOf c .enc) s
      = .next (finish .enc (encBody s.params c s.eng.latch.cnt.toNat 0 ⟨s.eng, s.mem⟩) s) := by
  rw [exec_enc, runCommand_eq _ _ _ _ h.legal, h.unraced,
    startChecks_ok s.params .enc ⟨s.eng, s.mem⟩ h.src h.dst h.apart h.room]
  rfl

theorem exec_dec_startable (c : Codec) (s : State) (h : Startable .dec s) :
    exec (instrOf c .dec) s = .next (finish .dec
      ((decBody s.params c s.eng.latch.cnt.toNat 0 ⟨s.eng, s.mem⟩).bind fun _ w => strictCheck w) s) := by
  rw [exec_dec, runCommand_eq _ _ _ _ h.legal, h.unraced,
    startChecks_ok s.params .dec ⟨s.eng, s.mem⟩ h.src h.dst h.apart h.room]
  rfl

/-! ### Elements in memory -/

theorem element_congr (m m' : Memory) (a e : Nat) (h : ∀ j, j < 8 → m.read (a + 8 * e + j) = m'.read (a + 8 * e + j)) :
    m.element a e = m'.element a e := by
  simp only [Memory.element, Memory.readBytes_congr m m' (a + 8 * e) 8 h]

theorem elementsFrom_congr (m m' : Memory) (a e n : Nat)
    (h : ∀ j, j < 8 * n → m.read (a + 8 * e + j) = m'.read (a + 8 * e + j)) :
    elementsFrom m a e n = elementsFrom m' a e n := by
  induction n generalizing e with
  | zero => rfl
  | succ n ih =>
    simp only [elementsFrom]
    rw [element_congr m m' a e fun j hj => h j (by omega), ih (e + 1) fun j hj => by
      have := h (8 + j) (by omega)
      rwa [show a + 8 * e + (8 + j) = a + 8 * (e + 1) + j by omega] at this]

@[simp] theorem elementsFrom_length (m : Memory) (a e n : Nat) : (elementsFrom m a e n).length = n := by
  induction n generalizing e with
  | zero => rfl
  | succ n ih => simp [elementsFrom, ih]

theorem elementsFrom_add (m : Memory) (a e i j : Nat) :
    elementsFrom m a e (i + j) = elementsFrom m a e i ++ elementsFrom m a (e + i) j := by
  induction i generalizing e with
  | zero => simp [elementsFrom]
  | succ i ih =>
    rw [show i + 1 + j = (i + j) + 1 by omega]
    simp only [elementsFrom, ih, List.cons_append]
    rw [show e + 1 + i = e + (i + 1) by omega]

/-- The bytes of a sequence in memory are the bytes of its elements (R63). -/
theorem elementBytes_elementsFrom (m : Memory) (a e n : Nat) :
    elementBytes (elementsFrom m a e n) = m.readBytes (a + 8 * e) (8 * n) := by
  induction n generalizing e with
  | zero => rfl
  | succ n ih =>
    rw [show 8 * (n + 1) = 8 + 8 * n by omega, Memory.readBytes_append, elementsFrom, elementBytes, ih,
      show a + 8 * (e + 1) = a + 8 * e + 8 by omega]
    congr 1
    have hlt := leNat_lt (m.readBytes (a + 8 * e) 8)
    rw [Memory.readBytes_length] at hlt
    have h := bytesLE_leNat (m.readBytes (a + 8 * e) 8)
    rw [Memory.readBytes_length] at h
    rw [Memory.element, BitVec.toNat_ofNat, Nat.mod_eq_of_lt (by norm_num at hlt ⊢; omega), h]

/-- Elements written little-endian read back as themselves. -/
theorem elementsFrom_of_bytes (m : Memory) (a : Nat) (vs : List Word) (e : Nat)
    (h : m.readBytes (a + 8 * e) (8 * vs.length) = elementBytes vs) : elementsFrom m a e vs.length = vs := by
  induction vs generalizing e with
  | nil => rfl
  | cons v vs ih =>
    rw [List.length_cons, show 8 * (vs.length + 1) = 8 + 8 * vs.length by omega, Memory.readBytes_append,
      elementBytes] at h
    obtain ⟨h1, h2⟩ := List.append_inj h (by simp)
    rw [show a + 8 * e + 8 = a + 8 * (e + 1) by omega] at h2
    rw [List.length_cons, elementsFrom, ih (e + 1) h2, Memory.element, h1, word_of_le8]

theorem accessible_left {p : Params} {a i j : Nat} (h : AllAccessible p a (i + j)) : AllAccessible p a i :=
  fun k hk => h k (by omega)

theorem accessible_right {p : Params} {a i j : Nat} (h : AllAccessible p a (i + j)) :
    AllAccessible p (a + i) j := fun k hk => by
  have := h (i + k) (by omega)
  rwa [show a + (i + k) = a + i + k by omega] at this

/-! ### Encode loops -/

/-- The work after `n` elements have been encoded to `out`. -/
structure Emitted (out : List Byte) (n : Nat) (w w' : Work) : Prop where
  mem : w'.mem = w.mem.writeBytes (w.eng.latch.dst.toNat + w.eng.wc.toNat) out
  latch : w'.eng.latch = w.eng.latch
  phase : w'.eng.phase = w.eng.phase
  race : w'.eng.race = w.eng.race
  rc : w'.eng.rc = w.eng.rc
  wc : w'.eng.wc = BitVec.ofNat 64 (w.eng.wc.toNat + out.length)
  ei : w'.eng.ei = BitVec.ofNat 64 n

/-- One group of an encode loop, and then the rest: the conditions pass on to the rest. -/
structure EncReady (p : Params) (n e : Nat) (out : List Byte) (w : Work) : Prop where
  src : AllAccessible p (w.eng.latch.src.toNat + 8 * e) (8 * n)
  cap : w.eng.wc.toNat + out.length ≤ w.eng.latch.cap.toNat
  dst : AllAccessible p (w.eng.latch.dst.toNat + w.eng.wc.toNat) out.length
  apart : w.eng.latch.src.toNat + 8 * e + 8 * n ≤ w.eng.latch.dst.toNat + w.eng.wc.toNat ∨
    w.eng.latch.dst.toNat + w.eng.wc.toNat + out.length ≤ w.eng.latch.src.toNat + 8 * e

/-- The work after one group has been emitted and `k` elements are complete. -/
def afterGroup (g : List Byte) (k : Nat) (w : Work) : Work :=
  setElements k
    { eng := { w.eng with g := g, wc := BitVec.ofNat 64 (w.eng.wc.toNat + g.length) }
      mem := w.mem.writeBytes (w.eng.latch.dst.toNat + w.eng.wc.toNat) g }

@[simp] theorem afterGroup_ei (g : List Byte) (k : Nat) (w : Work) :
    (afterGroup g k w).eng.ei = BitVec.ofNat 64 k := rfl

@[simp] theorem afterGroup_latch (g : List Byte) (k : Nat) (w : Work) :
    (afterGroup g k w).eng.latch = w.eng.latch := rfl

theorem afterGroup_wc {g : List Byte} {k : Nat} {w : Work}
    (h : w.eng.wc.toNat + g.length ≤ w.eng.latch.cap.toNat) :
    (afterGroup g k w).eng.wc.toNat = w.eng.wc.toNat + g.length := by
  have := w.eng.latch.cap.isLt
  simp only [afterGroup, setElements, BitVec.toNat_ofNat]
  exact Nat.mod_eq_of_lt (by omega)

theorem EncReady.rest {p : Params} {j n e : Nat} {g out : List Byte} {w : Work}
    (h : EncReady p (j + n) e (g ++ out) w) : EncReady p n (e + j) out (afterGroup g (e + j) w) := by
  have hc := h.cap
  have hap := h.apart
  simp only [List.length_append] at hc hap
  have hw : (afterGroup g (e + j) w).eng.wc.toNat = w.eng.wc.toNat + g.length := afterGroup_wc (by omega)
  have hl : (afterGroup g (e + j) w).eng.latch = w.eng.latch := rfl
  refine ⟨?_, ?_, ?_, ?_⟩
  · have hs := h.src
    rw [show 8 * (j + n) = 8 * j + 8 * n by omega] at hs
    rw [hl, show w.eng.latch.src.toNat + 8 * (e + j) = w.eng.latch.src.toNat + 8 * e + 8 * j by omega]
    exact accessible_right hs
  · rw [hw, hl]; omega
  · have hd := h.dst
    rw [List.length_append] at hd
    rw [hw, hl, show w.eng.latch.dst.toNat + (w.eng.wc.toNat + g.length)
      = w.eng.latch.dst.toNat + w.eng.wc.toNat + g.length by omega]
    exact accessible_right hd
  · rw [hw, hl]; omega

/-- The group of the first elements goes through. -/
theorem EncReady.emit {p : Params} {n e : Nat} {g out : List Byte} {w : Work}
    (h : EncReady p n e (g ++ out) w) : emitGroup p g w = .ok ()
      { eng := { w.eng with g := g, wc := BitVec.ofNat 64 (w.eng.wc.toNat + g.length) }
        mem := w.mem.writeBytes (w.eng.latch.dst.toNat + w.eng.wc.toNat) g } := by
  have hc := h.cap
  have hd := h.dst
  simp only [List.length_append] at hc hd
  exact emitGroup_ok p g w (by omega) (accessible_left hd)

/-- The elements after the first ones stand unchanged. -/
theorem EncReady.elements {p : Params} {j n e : Nat} {g out : List Byte} {w : Work}
    (h : EncReady p (j + n) e (g ++ out) w) :
    elementsFrom (afterGroup g (e + j) w).mem w.eng.latch.src.toNat (e + j) n
      = elementsFrom w.mem w.eng.latch.src.toNat (e + j) n := by
  have hap := h.apart
  simp only [List.length_append] at hap
  refine elementsFrom_congr _ _ _ _ _ fun i hi => ?_
  exact Memory.read_writeBytes_other _ _ _ _ (by omega)

theorem Emitted.after {out g : List Byte} {k n : Nat} {w w' : Work}
    (hc : w.eng.wc.toNat + g.length ≤ w.eng.latch.cap.toNat) (h : Emitted out n (afterGroup g k w) w') :
    Emitted (g ++ out) n w w' := by
  have hw : (afterGroup g k w).eng.wc.toNat = w.eng.wc.toNat + g.length := afterGroup_wc hc
  refine ⟨?_, h.latch, h.phase, h.race, h.rc, ?_, h.ei⟩
  · rw [h.mem, hw, Memory.writeBytes_append]
    show Memory.writeBytes (Memory.writeBytes w.mem _ g) (w.eng.latch.dst.toNat + (w.eng.wc.toNat + g.length)) out = _
    rw [Nat.add_assoc]
  · rw [h.wc, hw, List.length_append, Nat.add_assoc]

theorem emitted_nil (w : Work) (n : Nat) (h : w.eng.ei = BitVec.ofNat 64 n) : Emitted [] n w w :=
  ⟨rfl, rfl, rfl, rfl, rfl, by simp, h⟩

theorem emitted_one (g : List Byte) (k : Nat) (w : Work) : Emitted g k w (afterGroup g k w) :=
  ⟨rfl, rfl, rfl, rfl, rfl, rfl, rfl⟩

/-- The encode loop writes the groups of the elements it reads, in order (R132). -/
theorem encodeLoop_ok (p : Params) (grp : Word → List Byte) (n e : Nat) (w : Work)
    (hei : w.eng.ei = BitVec.ofNat 64 e)
    (h : EncReady p n e ((elementsFrom w.mem w.eng.latch.src.toNat e n).flatMap grp) w) :
    ∃ w', encodeLoop p grp n e w = .ok () w' ∧
      Emitted ((elementsFrom w.mem w.eng.latch.src.toNat e n).flatMap grp) (e + n) w w' := by
  induction n generalizing e w with
  | zero => exact ⟨w, rfl, emitted_nil w _ hei⟩
  | succ n ih =>
    set v := w.mem.element w.eng.latch.src.toNat e with hv
    rw [elementsFrom, ← hv, List.flatMap_cons] at h ⊢
    rw [Nat.add_comm n 1] at h
    have hr := readElem_ok p e w (accessible_left (j := 8 * n) (by
      have := h.src; rwa [show 8 * (1 + n) = 8 + 8 * n by omega] at this))
    have hrest := h.rest
    have hel := h.elements
    rw [← hel] at hrest
    obtain ⟨w', hw, hem⟩ := ih (e + 1) (afterGroup (grp v) (e + 1) w) (afterGroup_ei _ _ _) hrest
    have hl : (afterGroup (grp v) (e + 1) w).eng.latch = w.eng.latch := afterGroup_latch _ _ _
    rw [hl, hel] at hem
    refine ⟨w', ?_, ?_⟩
    · simp only [encodeLoop, hr, Res.bind_ok, ← hv, h.emit]
      exact hw
    · rw [show e + (n + 1) = e + 1 + n by omega]
      exact Emitted.after (by have := h.cap; simp only [List.length_append] at this; omega) hem

/-- The NanoLog encode loop writes the pairs of the elements it reads, then the odd one (R243). -/
theorem encNanologLoop_ok (p : Params) (n e : Nat) (w : Work) (hei : w.eng.ei = BitVec.ofNat 64 e)
    (h : EncReady p n e (nanologBuffer p.nanologPad (elementsFrom w.mem w.eng.latch.src.toNat e n)) w) :
    ∃ w', encNanologLoop p n e w = .ok () w' ∧
      Emitted (nanologBuffer p.nanologPad (elementsFrom w.mem w.eng.latch.src.toNat e n)) (e + n) w w' := by
  induction n using Nat.twoStepInduction generalizing e w with
  | zero => exact ⟨w, rfl, emitted_nil w _ hei⟩
  | one =>
    set a := w.mem.element w.eng.latch.src.toNat e with ha
    simp only [elementsFrom, ← ha, nanologBuffer] at h ⊢
    have hr := readElem_ok p e w h.src
    have hem := EncReady.emit (out := []) (g := encSingle p.nanologPad a) (by simpa using h)
    refine ⟨afterGroup (encSingle p.nanologPad a) (e + 1) w, ?_, emitted_one _ _ w⟩
    simp only [encNanologLoop, hr, Res.bind_ok, ← ha, hem]
    rfl
  | more n ih _ =>
    set a := w.mem.element w.eng.latch.src.toNat e with ha
    set b := w.mem.element w.eng.latch.src.toNat (e + 1) with hb
    simp only [elementsFrom, ← ha, ← hb, nanologBuffer] at h ⊢
    rw [show e + 1 + 1 = e + 2 from rfl] at h ⊢
    rw [Nat.add_comm n 2] at h
    have hs := h.src
    rw [show 8 * (2 + n) = 8 + (8 + 8 * n) by omega] at hs
    have hr := readElem_ok p e w (accessible_left hs)
    have hr' := readElem_ok p (e + 1) w (by
      have := accessible_left (accessible_right hs)
      rwa [show w.eng.latch.src.toNat + 8 * e + 8 = w.eng.latch.src.toNat + 8 * (e + 1) by omega] at this)
    have hrest := h.rest
    have hel := h.elements
    rw [← hel] at hrest
    have hei' : (afterGroup (encPair a b) (e + 2) w).eng.ei = BitVec.ofNat 64 (e + 2) := afterGroup_ei _ _ _
    have h2 := ih (e + 2) (afterGroup (encPair a b) (e + 2) w) hei'
    obtain ⟨w', hw, hem⟩ := h2 hrest
    have hl : (afterGroup (encPair a b) (e + 2) w).eng.latch = w.eng.latch := afterGroup_latch _ _ _
    rw [hl, hel] at hem
    refine ⟨w', ?_, ?_⟩
    · simp only [encNanologLoop, hr, hr', Res.bind_ok, ← ha, ← hb, h.emit]
      exact hw
    · rw [show e + (n + 2) = e + 2 + n by omega]
      exact Emitted.after (by have := h.cap; simp only [List.length_append] at this; omega) hem

/-- Every encode loop writes the canonical buffer of the elements it reads (R132, R243). -/
theorem encBody_ok (p : Params) (c : Codec) (n e : Nat) (w : Work) (hei : w.eng.ei = BitVec.ofNat 64 e)
    (h : EncReady p n e (canonicalBuffer p c (elementsFrom w.mem w.eng.latch.src.toNat e n)) w) :
    ∃ w', encBody p c n e w = .ok () w' ∧
      Emitted (canonicalBuffer p c (elementsFrom w.mem w.eng.latch.src.toNat e n)) (e + n) w w' := by
  cases c
  case nanolog => exact encNanologLoop_ok p n e w hei h
  all_goals exact encodeLoop_ok p _ n e w hei h

/-! ### Splitting a loop -/

theorem encodeLoop_add (p : Params) (grp : Word → List Byte) (j n e : Nat) (w : Work) :
    encodeLoop p grp (j + n) e w = (encodeLoop p grp j e w).bind fun _ w => encodeLoop p grp n (e + j) w := by
  induction j generalizing e w with
  | zero => simp [encodeLoop]
  | succ j ih =>
    rw [show j + 1 + n = (j + n) + 1 by omega]
    simp only [encodeLoop, Res.bind_assoc, ih]
    rw [show e + 1 + j = e + (j + 1) by omega]

theorem encNanologLoop_add (p : Params) (i n e : Nat) (w : Work) :
    encNanologLoop p (2 * i + n) e w
      = (encNanologLoop p (2 * i) e w).bind fun _ w => encNanologLoop p n (e + 2 * i) w := by
  induction i generalizing e w with
  | zero => simp [encNanologLoop]
  | succ i ih =>
    rw [show 2 * (i + 1) + n = (2 * i + n) + 2 by omega, show 2 * (i + 1) = 2 * i + 2 by omega]
    simp only [encNanologLoop, Res.bind_assoc, ih]
    rw [show e + 2 + 2 * i = e + (2 * i + 2) by omega]

theorem decodeLoop_add (p : Params) (grp : Work → Res Word) (j n e : Nat) (w : Work) :
    decodeLoop p grp (j + n) e w = (decodeLoop p grp j e w).bind fun _ w => decodeLoop p grp n (e + j) w := by
  induction j generalizing e w with
  | zero => simp [decodeLoop]
  | succ j ih =>
    rw [show j + 1 + n = (j + n) + 1 by omega]
    simp only [decodeLoop, Res.bind_assoc, ih]
    rw [show e + 1 + j = e + (j + 1) by omega]

theorem decNanologLoop_add (p : Params) (i n e : Nat) (w : Work) :
    decNanologLoop p (2 * i + n) e w
      = (decNanologLoop p (2 * i) e w).bind fun _ w => decNanologLoop p n (e + 2 * i) w := by
  induction i generalizing e w with
  | zero => simp [decNanologLoop]
  | succ i ih =>
    rw [show 2 * (i + 1) + n = (2 * i + n) + 2 by omega, show 2 * (i + 1) = 2 * i + 2 by omega]
    simp only [decNanologLoop, Res.bind_assoc, ih]
    rw [show e + 2 + 2 * i = e + (2 * i + 2) by omega]

/-- An encode loop splits between groups: anywhere, but for NANOLOG after whole pairs. -/
theorem encBody_add (p : Params) (c : Codec) (j n e : Nat) (w : Work) (hj : c = .nanolog → j % 2 = 0) :
    encBody p c (j + n) e w = (encBody p c j e w).bind fun _ w => encBody p c n (e + j) w := by
  cases c
  case nanolog =>
    obtain ⟨i, rfl⟩ : ∃ i, j = 2 * i := ⟨j / 2, by have := hj rfl; omega⟩
    exact encNanologLoop_add p i n e w
  all_goals exact encodeLoop_add p _ j n e w

/-- A decode loop splits between groups: anywhere, but for NANOLOG after whole pairs. -/
theorem decBody_add (p : Params) (c : Codec) (j n e : Nat) (w : Work) (hj : c = .nanolog → j % 2 = 0) :
    decBody p c (j + n) e w = (decBody p c j e w).bind fun _ w => decBody p c n (e + j) w := by
  cases c
  case nanolog =>
    obtain ⟨i, rfl⟩ : ∃ i, j = 2 * i := ⟨j / 2, by have := hj rfl; omega⟩
    exact decNanologLoop_add p i n e w
  all_goals exact decodeLoop_add p _ j n e w

/-! ### Decode loops -/

/-- The work after the elements `vs`, from element `e` on, have been decoded from `bs`. -/
structure Stored (bs : List Byte) (vs : List Word) (e : Nat) (w w' : Work) : Prop where
  mem : w'.mem = w.mem.writeBytes (w.eng.latch.dst.toNat + 8 * e) (elementBytes vs)
  latch : w'.eng.latch = w.eng.latch
  phase : w'.eng.phase = w.eng.phase
  race : w'.eng.race = w.eng.race
  wc : w'.eng.wc = w.eng.wc
  rc : w'.eng.rc = BitVec.ofNat 64 (w.eng.rc.toNat + bs.length)
  ei : w'.eng.ei = BitVec.ofNat 64 (e + vs.length)

/-- The bytes stand in the buffer from i.RC on, and the elements have their place in the destination. -/
structure DecReady (p : Params) (e : Nat) (bs : List Byte) (n : Nat) (w : Work) : Prop where
  src : SourceHas p bs (startGroup w)
  dst : AllAccessible p (w.eng.latch.dst.toNat + 8 * e) (8 * n)
  apart : w.eng.latch.src.toNat + w.eng.rc.toNat + bs.length ≤ w.eng.latch.dst.toNat + 8 * e ∨
    w.eng.latch.dst.toNat + 8 * e + 8 * n ≤ w.eng.latch.src.toNat + w.eng.rc.toNat

/-- The work after one group: the elements `xs` of it stored, i.RC past it. -/
def afterStore (xs : List Word) (e : Nat) (w w1 : Work) : Work :=
  setElements (e + xs.length)
    (commitGroup { w1 with mem := w1.mem.writeBytes (w.eng.latch.dst.toNat + 8 * e) (elementBytes xs) })

theorem Consumed.p_toNat {p : Params} {g bs : List Byte} {w w1 : Work} (h : Consumed g (startGroup w) w1)
    (hs : SourceHas p (g ++ bs) (startGroup w)) : w1.eng.p.toNat = w.eng.rc.toNat + g.length := by
  have hf := hs.fits
  have := (startGroup w).eng.latch.slen.isLt
  simp only [List.length_append, startGroup_p] at hf
  rw [h.p, BitVec.toNat_ofNat, startGroup_p]
  exact Nat.mod_eq_of_lt (by omega)

theorem DecReady.rest {p : Params} {e n : Nat} {g bs : List Byte} {xs : List Word} {w w1 : Work}
    (h : DecReady p e (g ++ bs) (xs.length + n) w) (hc : Consumed g (startGroup w) w1) :
    DecReady p (e + xs.length) bs n (afterStore xs e w w1) := by
  have hp := hc.p_toNat h.src
  have hl : w1.eng.latch = w.eng.latch := hc.latch
  have hm : w1.mem = w.mem := hc.mem
  have hap := h.apart
  have hd := h.dst
  have hf := h.src.fits
  simp only [List.length_append, startGroup_p, startGroup_latch] at hap hf
  rw [show 8 * (xs.length + n) = 8 * xs.length + 8 * n by omega] at hd hap
  have hs2 := h.src.split.2
  have hp2 := h.src.split.1.p_after
  simp only [startGroup_p] at hp2
  refine ⟨⟨?_, ?_, ?_⟩, ?_, ?_⟩
  · simp only [startGroup_p, startGroup_latch, afterStore, setElements_rc, commitGroup_rc, setElements_latch,
      commitGroup_latch, hl, hp]
    omega
  · intro j hj
    have := hs2.accessible j hj
    rw [hp2] at this
    simp only [startGroup_p, startGroup_latch, afterStore, setElements_rc, commitGroup_rc, setElements_latch,
      commitGroup_latch, hl, hp]
    exact this
  · have := hs2.bytes
    rw [hp2] at this
    simp only [startGroup_p, startGroup_latch, startGroup_mem, afterStore, setElements_rc, commitGroup_rc,
      setElements_latch, commitGroup_latch, setElements_mem, commitGroup_mem, hl, hp, hm]
    rw [Memory.readBytes_writeBytes_other _ _ _ _ _ (by simp only [elementBytes_length]; omega)]
    exact this
  · simp only [afterStore, setElements_latch, commitGroup_latch, hl]
    rw [show w.eng.latch.dst.toNat + 8 * (e + xs.length) = w.eng.latch.dst.toNat + 8 * e + 8 * xs.length by omega]
    exact accessible_right hd
  · simp only [afterStore, setElements_latch, commitGroup_latch, setElements_rc, commitGroup_rc, hl, hp]
    omega

theorem Stored.after {p : Params} {g bs : List Byte} {xs vs : List Word} {e n : Nat} {w w1 w' : Work}
    (hr : DecReady p e (g ++ bs) n w) (hc : Consumed g (startGroup w) w1)
    (h : Stored bs vs (e + xs.length) (afterStore xs e w w1) w') : Stored (g ++ bs) (xs ++ vs) e w w' := by
  have hp := hc.p_toNat hr.src
  have hl : w1.eng.latch = w.eng.latch := hc.latch
  have hm : w1.mem = w.mem := hc.mem
  refine ⟨?_, h.latch.trans hl, h.phase.trans hc.phase, h.race.trans hc.race, h.wc.trans hc.wc, ?_, ?_⟩
  · rw [h.mem, elementBytes_append, Memory.writeBytes_append]
    simp only [afterStore, setElements_mem, commitGroup_mem, setElements_latch, commitGroup_latch, hl, hm,
      elementBytes_length]
    rw [show w.eng.latch.dst.toNat + 8 * (e + xs.length) = w.eng.latch.dst.toNat + 8 * e + 8 * xs.length by omega]
  · rw [h.rc]
    simp only [afterStore, setElements_rc, commitGroup_rc, hp, List.length_append, Nat.add_assoc]
  · rw [h.ei, List.length_append, Nat.add_assoc]

theorem stored_nil (w : Work) (e : Nat) (h : w.eng.ei = BitVec.ofNat 64 e) : Stored [] [] e w w :=
  ⟨rfl, rfl, rfl, rfl, rfl, by simp, by simpa using h⟩

/-- Every reader of a codec with one group per element reads every group of it. -/
theorem elementReader_ok (p : Params) (c : Codec) (g : List Byte) (v : Word) (w : Work)
    (hg : ElementGroup p c g v) (h : SourceHas p g w) : ∃ w', elementReader p c w = .ok v w' ∧ Consumed g w w' := by
  cases c
  case leb128 => exact decGroupLeb128_ok p g v w hg h
  case prefixVarint => exact ⟨_, decGroupPrefixVarint_ok p g v w hg h, consumed_advance g w⟩
  case lesqlite => exact ⟨_, decGroupBucket_ok _ p g v w hg h, consumed_advance g w⟩
  case lesqlite2 => exact ⟨_, decGroupBucket_ok _ p g v w hg h, consumed_advance g w⟩
  case nanolog => exact hg.elim

/-- Every decode loop stores the elements of the buffer it reads (R133, R245). -/
theorem decBody_ok (p : Params) (c : Codec) (bs : List Byte) (vs : List Word) (hb : Buffer p c bs vs) (e : Nat)
    (w : Work) (hei : w.eng.ei = BitVec.ofNat 64 e) (h : DecReady p e bs vs.length w) :
    ∃ w', decBody p c vs.length e w = .ok () w' ∧ Stored bs vs e w w' := by
  induction hb generalizing e w with
  | nil c => exact ⟨w, by cases c <;> rfl, stored_nil w e hei⟩
  | element c g bs v vs hg _ ih =>
    obtain ⟨w1, hw1, hc⟩ := elementReader_ok p c g v (startGroup w) hg h.src.split.1
    rw [List.length_cons, Nat.add_comm] at h
    have hrest := DecReady.rest (xs := [v]) h hc
    obtain ⟨w', hw', hs⟩ := ih (e + 1) _ rfl hrest
    refine ⟨w', ?_, Stored.after (xs := [v]) h hc hs⟩
    have hl : w1.eng.latch = w.eng.latch := hc.latch
    have hd := h.dst
    rw [show 8 * (1 + vs.length) = 8 + 8 * vs.length by omega] at hd
    have hst := storeElem_ok p e v w1 (by rw [hl]; exact (accessible_left hd))
    have hbody : decBody p c (vs.length + 1) e w
        = (elementReader p c (startGroup w)).bind fun v w => (storeElem p e v w).bind fun _ w =>
          decBody p c vs.length (e + 1) (setElements (e + 1) (commitGroup w)) := by
      cases c
      case nanolog => exact hg.elim
      all_goals rfl
    rw [List.length_cons, hbody, hw1, Res.bind_ok, hst, Res.bind_ok, ← hw', hl]
    simp [afterStore, elementBytes]
  | pair g bs a b vs hg _ ih =>
    obtain ⟨w1, hw1, hc⟩ := decPair_ok p g a b (startGroup w) hg h.src.split.1
    have hlen : (a :: b :: vs).length = 2 + vs.length := by simp; omega
    rw [hlen] at h ⊢
    have hrest := DecReady.rest (xs := [a, b]) h hc
    obtain ⟨w', hw', hs⟩ := ih (e + 2) _ rfl hrest
    refine ⟨w', ?_, Stored.after (xs := [a, b]) h hc hs⟩
    have hl : w1.eng.latch = w.eng.latch := hc.latch
    have hd := h.dst
    rw [show 8 * (2 + vs.length) = 8 + (8 + 8 * vs.length) by omega] at hd
    have hst := storeElem_ok p e a w1 (by rw [hl]; exact (accessible_left hd))
    have hst' := storeElem_ok p (e + 1) b
      { w1 with mem := w1.mem.writeBytes (w1.eng.latch.dst.toNat + 8 * e) (bytesLE 8 a.toNat) } (by
        have := accessible_left (accessible_right hd)
        rwa [show w.eng.latch.dst.toNat + 8 * e + 8 = w.eng.latch.dst.toNat + 8 * (e + 1) by omega, ← hl] at this)
    rw [Nat.add_comm 2, ← hw']
    simp only [decBody, decNanologLoop, hw1, Res.bind_ok, hst, hst']
    simp only [afterStore, elementBytes, List.append_nil, List.length_cons, List.length_nil, Memory.writeBytes_append,
      bytesLE_length, hl]
    rw [show w.eng.latch.dst.toNat + 8 * (e + 1) = w.eng.latch.dst.toNat + 8 * e + 8 by omega]
  | single g a hg =>
    obtain ⟨w1, hw1, hc⟩ := decSingle_ok p g a (startGroup w) hg h.src
    have hl : w1.eng.latch = w.eng.latch := hc.latch
    have hst := storeElem_ok p e a w1 (by rw [hl]; exact h.dst)
    refine ⟨afterStore [a] e w w1, ?_, ?_⟩
    · simp only [List.length_singleton, decBody, decNanologLoop, hw1, Res.bind_ok, hst, hl]
      simp [afterStore, elementBytes]
    · have h' : DecReady p e (g ++ []) 1 w := by simpa using h
      have := Stored.after (bs := []) (vs := []) (xs := [a]) h' hc (stored_nil _ _ rfl)
      simpa using this

/-! ### Canonical buffers are buffers -/

theorem canonical_element (p : Params) (hp : p.legal = true) (c : Codec) (hc : c ≠ .nanolog) (v : Word) :
    ElementGroup p c (canonicalGroup p c v) v := by
  simp only [Params.legal, Bool.and_eq_true] at hp
  cases c
  case leb128 => exact canonical_leb128 v
  case prefixVarint => exact canonical_prefix v
  case lesqlite => exact (canonical_bucket _ hp.1.1.2 v).1
  case lesqlite2 => exact (canonical_bucket _ hp.1.2 v).1
  case nanolog => exact absurd rfl hc

/-- What an encode command writes is a buffer of the elements it read (R139). -/
theorem canonical_buffer (p : Params) (hp : p.legal = true) (c : Codec) (vs : List Word) :
    Buffer p c (canonicalBuffer p c vs) vs := by
  by_cases hc : c = .nanolog
  · subst hc
    have hpad : p.nanologPad ≤ 15 := by
      simp only [Params.legal, Bool.and_eq_true, decide_eq_true_eq] at hp; exact hp.2
    induction vs using List.twoStepInduction with
    | nil => exact Buffer.nil _
    | singleton a => exact Buffer.single _ a (canonical_single _ hpad a)
    | cons_cons a b vs ih _ => exact Buffer.pair _ _ a b vs (canonical_pair a b) ih
  · have he : ∀ vs, canonicalBuffer p c vs = vs.flatMap (canonicalGroup p c) := by
      intro vs; cases c <;> first | rfl | exact absurd rfl hc
    rw [he]
    induction vs with
    | nil => exact Buffer.nil c
    | cons v vs ih =>
      rw [List.flatMap_cons]
      exact Buffer.element c _ _ v vs (canonical_element p hp c hc v) ih

end Sys2Proof.Machine
end

