-- ==== Sys2Proof/Laws/Failures.lean ====
section
/-! SUPPORT. How one group of a command fails (R127, R275, R276, R278): the first group of an encode or decode loop, by the
place where it stops. -/

namespace Sys2Proof.Machine

/-! ### Encode: the first group of a loop -/

theorem encodeLoop_first (p : Params) (grp : Word → List Byte) (n e : Nat) (w : Work)
    (h : AllAccessible p (w.eng.latch.src.toNat + 8 * e) 8) :
    encodeLoop p grp (n + 1) e w = (emitGroup p (grp (w.mem.element w.eng.latch.src.toNat e)) w).bind
      fun _ w => encodeLoop p grp n (e + 1) (setElements (e + 1) w) := by
  simp [encodeLoop, readElem_ok p e w h]

theorem encBody_of_ne {p : Params} {c : Codec} (hc : c ≠ .nanolog) (n e : Nat) (w : Work) :
    encBody p c n e w = encodeLoop p (canonicalGroup p c) n e w := by
  cases c <;> first | rfl | exact absurd rfl hc

theorem firstGroup_of_ne {p : Params} {c : Codec} (hc : c ≠ .nanolog) (v : Word) (vs : List Word) :
    firstGroup p c (v :: vs) = canonicalGroup p c v := by
  cases c <;> first | exact absurd rfl hc | simp only [firstGroup]

theorem groupElements_of_ne {c : Codec} (hc : c ≠ .nanolog) (n : Nat) : groupElements c n = min n 1 := by
  cases c <;> first | rfl | exact absurd rfl hc

/-- Once its elements have been read, what an encode loop does first is to emit their canonical group (R132, R243). -/
theorem encBody_first (p : Params) (c : Codec) (n e : Nat) (w : Work) (hn : 0 < n)
    (h : AllAccessible p (w.eng.latch.src.toNat + 8 * e) (8 * groupElements c n)) :
    ∃ k : Unit → Work → Res Unit, encBody p c n e w
      = (emitGroup p (firstGroup p c (elementsFrom w.mem w.eng.latch.src.toNat e n)) w).bind k := by
  obtain ⟨n, rfl⟩ : ∃ m, n = m + 1 := ⟨n - 1, by omega⟩
  by_cases hc : c = .nanolog
  · subst hc
    cases n with
    | zero =>
      refine ⟨fun _ w => .ok () (setElements (e + 1) w), ?_⟩
      show encNanologLoop p 1 e w = _
      rw [encNanologLoop, readElem_ok p e w h]
      rfl
    | succ n =>
      have h' : AllAccessible p (w.eng.latch.src.toNat + 8 * e) (8 + 8) := fun j hj =>
        h j (by simp only [groupElements]; omega)
      have h2 := accessible_right h'
      rw [show w.eng.latch.src.toNat + 8 * e + 8 = w.eng.latch.src.toNat + 8 * (e + 1) by omega] at h2
      refine ⟨fun _ w => encNanologLoop p n (e + 2) (setElements (e + 2) w), ?_⟩
      show encNanologLoop p (n + 2) e w = _
      rw [encNanologLoop, readElem_ok p e w (accessible_left h'), Res.bind_ok, readElem_ok p (e + 1) w h2]
      rfl
  · have h8 : AllAccessible p (w.eng.latch.src.toNat + 8 * e) 8 := fun j hj =>
      h j (by rw [groupElements_of_ne hc]; omega)
    rw [encBody_of_ne hc, elementsFrom, firstGroup_of_ne hc]
    exact ⟨_, encodeLoop_first p _ n e w h8⟩

/-- An encode loop whose next elements cannot be read stops at the first byte of them that does not answer (R278). -/
theorem encBody_read_fails (p : Params) (c : Codec) (n e k : Nat) (w : Work) (hk : k < 8 * groupElements c n)
    (h : AllAccessible p (w.eng.latch.src.toNat + 8 * e) k)
    (hf : p.accessibleAt (w.eng.latch.src.toNat + 8 * e + k) = false) :
    encBody p c n e w = .raise .busError (w.eng.latch.src.toNat + 8 * e + k) w := by
  have hn : 0 < n := by cases c <;> simp only [groupElements] at hk <;> omega
  obtain ⟨n, rfl⟩ : ∃ m, n = m + 1 := ⟨n - 1, by omega⟩
  by_cases hk8 : k < 8
  · have hr := readElem_fails p e k w hk8 h hf
    cases c
    case nanolog => cases n <;> simp [encBody, encNanologLoop, hr]
    all_goals simp [encBody, encodeLoop, hr]
  · cases c
    case nanolog =>
      cases n with
      | zero => simp [groupElements] at hk; omega
      | succ n =>
        have hk16 : k < 16 := by simp only [groupElements] at hk; omega
        have h0 : AllAccessible p (w.eng.latch.src.toNat + 8 * e) (8 + (k - 8)) := by
          rwa [show 8 + (k - 8) = k by omega]
        have h1 := accessible_right h0
        rw [show w.eng.latch.src.toNat + 8 * e + 8 = w.eng.latch.src.toNat + 8 * (e + 1) by omega] at h1
        have e1 : w.eng.latch.src.toNat + 8 * e + k = w.eng.latch.src.toNat + 8 * (e + 1) + (k - 8) := by omega
        rw [e1] at hf ⊢
        simp [encBody, encNanologLoop, readElem_ok p e w (accessible_left h0),
          readElem_fails p (e + 1) (k - 8) w (by omega) h1 hf]
    all_goals simp [groupElements] at hk; omega

/-! ### Decode: where a group's bytes stop -/

/-- The work that a failing group leaves: only i.P and the datapath differ. -/
structure Kept (w w' : Work) : Prop where
  mem : w'.mem = w.mem
  latch : w'.eng.latch = w.eng.latch
  phase : w'.eng.phase = w.eng.phase
  race : w'.eng.race = w.eng.race
  rc : w'.eng.rc = w.eng.rc
  wc : w'.eng.wc = w.eng.wc
  ei : w'.eng.ei = w.eng.ei

theorem Kept.refl (w : Work) : Kept w w := ⟨rfl, rfl, rfl, rfl, rfl, rfl, rfl⟩

theorem kept_advance (bs : List Byte) (w : Work) : Kept w (advance bs w) := ⟨rfl, rfl, rfl, rfl, rfl, rfl, rfl⟩

theorem Kept.trans {w w' w'' : Work} (h : Kept w w') (h' : Kept w' w'') : Kept w w'' :=
  ⟨h'.mem.trans h.mem, h'.latch.trans h.latch, h'.phase.trans h.phase, h'.race.trans h.race, h'.rc.trans h.rc,
    h'.wc.trans h.wc, h'.ei.trans h.ei⟩

/-- At group read position `pos` no byte is to be had: RdByte raises this error there and changes nothing (R125). -/
def StopsAt (p : Params) (l : Latches) (pos : Nat) (code : ErrCode) (addr : Nat) : Prop :=
  ∀ w : Work, w.eng.latch = l → w.eng.p.toNat = pos → rdByte p w = .raise code addr w

/-- The end of the buffer stops a group (R275). -/
theorem stopsAt_end (p : Params) (l : Latches) (pos : Nat) (h : pos = l.slen.toNat) :
    StopsAt p l pos .truncatedInput (l.src.toNat + l.slen.toNat) := by
  rintro w rfl hp
  exact rdByte_truncated p w (by omega)

/-- A byte that does not answer stops a group (R278). -/
theorem stopsAt_bus (p : Params) (l : Latches) (pos : Nat) (h : pos < l.slen.toNat)
    (hf : p.accessibleAt (l.src.toNat + pos) = false) : StopsAt p l pos .busError (l.src.toNat + pos) := by
  rintro w rfl rfl
  have hlt : ¬ w.eng.latch.slen ≤ w.eng.p := by rw [BitVec.le_def]; omega
  simp [rdByte, hlt, busRead, hf]

/-- A run of bytes that is stopped reads the bytes there are, then raises. -/
theorem rdBytes_stops (p : Params) (part : List Byte) (n : Nat) (w : Work) {code : ErrCode} {addr : Nat}
    (h : SourceHas p part w) (hs : StopsAt p w.eng.latch (w.eng.p.toNat + part.length) code addr)
    (hn : part.length < n) : rdBytes p n w = .raise code addr (advance part w) := by
  induction part generalizing w n with
  | nil =>
    cases n with
    | zero => simp at hn
    | succ n => simp [rdBytes, hs w rfl (by simp)]
  | cons b bs ih =>
    cases n with
    | zero => simp at hn
    | succ n =>
      obtain ⟨h1, h2⟩ := SourceHas.split (xs := [b]) (ys := bs) h
      have hp := h1.p_after
      simp only [List.length_singleton] at hp
      simp only [List.length_cons] at hs hn
      simp only [rdBytes, rdByte_ok p b w h1, Res.bind_ok]
      rw [ih n _ h2 (by rw [hp, advance_latch]; rwa [show w.eng.p.toNat + 1 + bs.length
        = w.eng.p.toNat + (bs.length + 1) by omega]) (by omega), advance_append _ _ _ h1.no_wrap]
      rfl

theorem msb_of_le {b : Byte} (h : 128 ≤ b.toNat) : b.getLsbD 7 = true := by
  rw [← BitVec.msb_eq_getLsbD_last, BitVec.msb_eq_decide]; simpa using h

theorem decLebLoop_stops (p : Params) (part : List Byte) (more : Nat) (w : Work) {code : ErrCode} {addr : Nat}
    (hc : ∀ b ∈ part, 128 ≤ b.toNat) (hlen : part.length ≤ more) (h : SourceHas p part w)
    (hs : StopsAt p w.eng.latch (w.eng.p.toNat + part.length) code addr) :
    ∃ w', decLebLoop p more w = .raise code addr w' ∧ Kept w w' := by
  induction part generalizing more w with
  | nil =>
    refine ⟨w, ?_, Kept.refl w⟩
    unfold decLebLoop
    cases more <;> simp [hs w rfl (by simp)]
  | cons b bs ih =>
    obtain ⟨h1, h2⟩ := SourceHas.split (xs := [b]) (ys := bs) h
    have hp := h1.p_after
    simp only [List.length_singleton] at hp
    simp only [List.length_cons] at hs hlen
    obtain ⟨k, rfl⟩ : ∃ k, more = k + 1 := ⟨more - 1, by omega⟩
    obtain ⟨w', hw, hk⟩ := ih k (lebShift (lebAccumulate b (advance [b] w))) (fun x hx => hc x (by simp [hx])) (by omega)
      ⟨h2.fits, h2.accessible, h2.bytes⟩ (by
        have : (lebShift (lebAccumulate b (advance [b] w))).eng.p.toNat = w.eng.p.toNat + 1 := hp
        rw [this]
        show StopsAt p w.eng.latch _ code addr
        rwa [show w.eng.p.toNat + 1 + bs.length = w.eng.p.toNat + (bs.length + 1) by omega])
    refine ⟨w', ?_, Kept.trans (w' := lebShift (lebAccumulate b (advance [b] w)))
      ⟨rfl, rfl, rfl, rfl, rfl, rfl, rfl⟩ hk⟩
    unfold decLebLoop
    simp only [rdByte_ok p b w h1, Res.bind_ok, msb_of_le (hc b (by simp)), Bool.true_eq_false, if_false, hw]

/-- Ten LEB128 bytes with bit 7 set end the group at the tenth (R152, R276 item 1). -/
theorem decLebLoop_malformed (p : Params) (part : List Byte) (more : Nat) (w : Work)
    (hc : ∀ b ∈ part, 128 ≤ b.toNat) (hlen : part.length = more + 1) (h : SourceHas p part w) :
    ∃ w', decLebLoop p more w
      = .raise .malformedInput (w.eng.latch.src.toNat + (w.eng.p.toNat + part.length) - 1) w' ∧ Kept w w' := by
  induction part generalizing more w with
  | nil => simp at hlen
  | cons b bs ih =>
    obtain ⟨h1, h2⟩ := SourceHas.split (xs := [b]) (ys := bs) h
    have hp := h1.p_after
    simp only [List.length_singleton] at hp
    simp only [List.length_cons] at hlen ⊢
    cases more with
    | zero =>
      have hbs : bs.length = 0 := by omega
      refine ⟨lebAccumulate b (advance [b] w), ?_, ⟨rfl, rfl, rfl, rfl, rfl, rfl, rfl⟩⟩
      unfold decLebLoop
      simp only [rdByte_ok p b w h1, Res.bind_ok, msb_of_le (hc b (by simp)), Bool.true_eq_false, if_false, raiseMalformed]
      show Res.raise _ (w.eng.latch.src.toNat + (advance [b] w).eng.p.toNat - 1) _ = _
      rw [hp, hbs]
    | succ k =>
      obtain ⟨w', hw, hk⟩ := ih k (lebShift (lebAccumulate b (advance [b] w))) (fun x hx => hc x (by simp [hx])) (by omega)
        ⟨h2.fits, h2.accessible, h2.bytes⟩
      refine ⟨w', ?_, Kept.trans (w' := lebShift (lebAccumulate b (advance [b] w)))
      ⟨rfl, rfl, rfl, rfl, rfl, rfl, rfl⟩ hk⟩
      unfold decLebLoop
      simp only [rdByte_ok p b w h1, Res.bind_ok, msb_of_le (hc b (by simp)), Bool.true_eq_false, if_false, hw]
      show Res.raise _ (w.eng.latch.src.toNat + ((advance [b] w).eng.p.toNat + bs.length) - 1) _ = _
      rw [hp]; congr 1; omega

theorem decGroupBucket_stops (T : List BucketRow) (p : Params) (part : List Byte) (w : Work) {code : ErrCode} {addr : Nat}
    (hi : part = [] ∨ ∃ b rest r, part = b :: rest ∧ rowOf T b.toNat = some r ∧ rest.length < r.p)
    (h : SourceHas p part w) (hs : StopsAt p w.eng.latch (w.eng.p.toNat + part.length) code addr) :
    ∃ w', decGroupBucket T p w = .raise code addr w' ∧ Kept w w' := by
  rcases hi with rfl | ⟨b, rest, r, rfl, hr, hl⟩
  · exact ⟨w, by simp [decGroupBucket, hs w rfl (by simp)], Kept.refl w⟩
  · obtain ⟨h1, h2⟩ := SourceHas.split (xs := [b]) (ys := rest) h
    have hp := h1.p_after
    simp only [List.length_singleton] at hp
    simp only [List.length_cons] at hs
    have := rdBytes_stops p rest r.p _ h2 (by
      rw [hp, advance_latch]; rwa [show w.eng.p.toNat + 1 + rest.length = w.eng.p.toNat + (rest.length + 1) by omega]) hl
    exact ⟨_, by simp [decGroupBucket, rdByte_ok p b w h1, hr, this], (kept_advance [b] w).trans (kept_advance rest _)⟩

theorem decGroupBucket_malformed (T : List BucketRow) (p : Params) (b : Byte) (w : Work) (hr : rowOf T b.toNat = none)
    (h : SourceHas p [b] w) : ∃ w', decGroupBucket T p w
      = .raise .malformedInput (w.eng.latch.src.toNat + (w.eng.p.toNat + 1) - 1) w' ∧ Kept w w' := by
  have hp := h.p_after
  refine ⟨advance [b] w, ?_, kept_advance _ _⟩
  simp only [decGroupBucket, rdByte_ok p b w h, Res.bind_ok, hr, raiseMalformed, hp, advance_latch]
  simp

theorem decGroupPrefixVarint_stops (p : Params) (part : List Byte) (w : Work) {code : ErrCode} {addr : Nat}
    (hi : part = [] ∨ ∃ b rest, part = b :: rest ∧ rest.length < trailingOnes8 b)
    (h : SourceHas p part w) (hs : StopsAt p w.eng.latch (w.eng.p.toNat + part.length) code addr) :
    ∃ w', decGroupPrefixVarint p w = .raise code addr w' ∧ Kept w w' := by
  rcases hi with rfl | ⟨b, rest, rfl, hl⟩
  · exact ⟨w, by simp [decGroupPrefixVarint, hs w rfl (by simp)], Kept.refl w⟩
  · obtain ⟨h1, h2⟩ := SourceHas.split (xs := [b]) (ys := rest) h
    have hp := h1.p_after
    simp only [List.length_singleton] at hp
    simp only [List.length_cons] at hs
    have hs' : StopsAt p (advance [b] w).eng.latch ((advance [b] w).eng.p.toNat + rest.length) code addr := by
      rw [hp, advance_latch]; rwa [show w.eng.p.toNat + 1 + rest.length = w.eng.p.toNat + (rest.length + 1) by omega]
    refine ⟨_, ?_, (kept_advance [b] w).trans (kept_advance rest _)⟩
    simp only [decGroupPrefixVarint, rdByte_ok p b w h1, Res.bind_ok]
    split
    · next ht => rw [rdBytes_stops p rest 8 _ h2 hs' (by omega)]; rfl
    · rw [rdBytes_stops p rest _ _ h2 hs' hl]; rfl

/-- The header and the bytes after it, stopped. -/
theorem decSingle_stops (p : Params) (part : List Byte) (w : Work) {code : ErrCode} {addr : Nat}
    (hi : part = [] ∨ ∃ hd rest, part = hd :: rest ∧ ¬ badNibble (hiNib hd) ∧ rest.length < hiNib hd)
    (h : SourceHas p part w) (hs : StopsAt p w.eng.latch (w.eng.p.toNat + part.length) code addr) :
    ∃ w', decSingle p w = .raise code addr w' ∧ Kept w w' := by
  rcases hi with rfl | ⟨hd, rest, rfl, hb, hl⟩
  · exact ⟨w, by simp [decSingle, rdHeader, hs w rfl (by simp)], Kept.refl w⟩
  · obtain ⟨h1, h2⟩ := SourceHas.split (xs := [hd]) (ys := rest) h
    have hp := h1.p_after
    simp only [List.length_singleton] at hp
    simp only [List.length_cons] at hs
    simp only [badNibble, not_or, not_lt] at hb
    have hst := rdBytes_stops p rest (hiNib hd) (setHeader hd (advance [hd] w)) ⟨h2.fits, h2.accessible, h2.bytes⟩ (by
      show StopsAt p w.eng.latch ((advance [hd] w).eng.p.toNat + rest.length) code addr
      rw [hp]; rwa [show w.eng.p.toNat + 1 + rest.length = w.eng.p.toNat + (rest.length + 1) by omega]) hl
    refine ⟨_, ?_, Kept.trans (w' := setHeader hd (advance [hd] w)) ⟨rfl, rfl, rfl, rfl, rfl, rfl, rfl⟩
      (kept_advance rest _)⟩
    simp [decSingle, rdHeader_ok p hd w h1, decNibbleLen_ok _ _ hb.1 hb.2, rdValue, hst]

theorem decPair_stops (p : Params) (part : List Byte) (w : Work) {code : ErrCode} {addr : Nat}
    (hi : part = [] ∨ ∃ hd rest, part = hd :: rest ∧ ¬ badNibble (hiNib hd) ∧ ¬ badNibble (loNib hd) ∧
      rest.length < hiNib hd + loNib hd)
    (h : SourceHas p part w) (hs : StopsAt p w.eng.latch (w.eng.p.toNat + part.length) code addr) :
    ∃ w', decPair p w = .raise code addr w' ∧ Kept w w' := by
  rcases hi with rfl | ⟨hd, rest, rfl, hb, hb', hl⟩
  · exact ⟨w, by simp [decPair, rdHeader, hs w rfl (by simp)], Kept.refl w⟩
  · obtain ⟨h1, h2⟩ := SourceHas.split (xs := [hd]) (ys := rest) h
    have hp := h1.p_after
    simp only [List.length_singleton] at hp
    simp only [List.length_cons] at hs
    simp only [badNibble, not_or, not_lt] at hb hb'
    have hs2 : StopsAt p w.eng.latch ((advance [hd] w).eng.p.toNat + rest.length) code addr := by
      rw [hp]; rwa [show w.eng.p.toNat + 1 + rest.length = w.eng.p.toNat + (rest.length + 1) by omega]
    have hk0 : Kept w (setHeader hd (advance [hd] w)) := ⟨rfl, rfl, rfl, rfl, rfl, rfl, rfl⟩
    by_cases hcase : rest.length < hiNib hd
    · have hst := rdBytes_stops p rest (hiNib hd) (setHeader hd (advance [hd] w)) ⟨h2.fits, h2.accessible, h2.bytes⟩
        hs2 hcase
      refine ⟨_, ?_, hk0.trans (kept_advance rest _)⟩
      simp [decPair, rdHeader_ok p hd w h1, decNibbleLen_ok _ _ hb.1 hb.2, decNibbleLen_ok _ _ hb'.1 hb'.2, rdValue, hst]
    · obtain ⟨xs, ys, rfl, hx⟩ : ∃ xs ys, rest = xs ++ ys ∧ xs.length = hiNib hd :=
        ⟨rest.take (hiNib hd), rest.drop (hiNib hd), by simp, by simp; omega⟩
      rw [List.length_append] at hl hs2
      obtain ⟨h3, h4⟩ := h2.split
      have hok := rdValue_ok p xs (setHeader hd (advance [hd] w)) ⟨h3.fits, h3.accessible, h3.bytes⟩
      rw [hx] at hok
      have hp2 := h3.p_after
      have hst := rdBytes_stops p ys (loNib hd) (advance xs (setHeader hd (advance [hd] w)))
        ⟨h4.fits, h4.accessible, h4.bytes⟩ (by
          show StopsAt p w.eng.latch ((advance xs (advance [hd] w)).eng.p.toNat + ys.length) code addr
          rw [hp2]; rwa [Nat.add_assoc]) (by omega)
      refine ⟨_, ?_, (hk0.trans (kept_advance xs _)).trans (kept_advance ys _)⟩
      simp only [decPair, rdHeader_ok p hd w h1, decNibbleLen_ok _ _ hb.1 hb.2, decNibbleLen_ok _ _ hb'.1 hb'.2, hok,
        Res.bind_ok]
      simp only [rdValue, hst, Res.bind_raise]

theorem decNibbleLen_bad (n : Nat) (w : Work) (h : badNibble n) : decNibbleLen n w = raiseMalformed w := by
  simp only [decNibbleLen]; exact if_pos h

theorem raiseMalformed_header {α : Type} (p : Params) (hd : Byte) (w : Work) (h : SourceHas p [hd] w) :
    (raiseMalformed (setHeader hd (advance [hd] w)) : Res α)
      = .raise .malformedInput (w.eng.latch.src.toNat + (w.eng.p.toNat + 1) - 1) (setHeader hd (advance [hd] w)) := by
  have hp := h.p_after
  show Res.raise _ (w.eng.latch.src.toNat + (advance [hd] w).eng.p.toNat - 1) _ = _
  rw [hp]; rfl

theorem decSingle_malformed (p : Params) (hd : Byte) (w : Work) (hb : badNibble (hiNib hd)) (h : SourceHas p [hd] w) :
    ∃ w', decSingle p w = .raise .malformedInput (w.eng.latch.src.toNat + (w.eng.p.toNat + 1) - 1) w' ∧ Kept w w' := by
  refine ⟨setHeader hd (advance [hd] w), ?_, ⟨rfl, rfl, rfl, rfl, rfl, rfl, rfl⟩⟩
  rw [decSingle, rdHeader_ok p hd w h, Res.bind_ok, decNibbleLen_bad _ _ hb, raiseMalformed_header p hd w h]
  rfl

theorem decPair_malformed (p : Params) (hd : Byte) (w : Work) (hb : badNibble (hiNib hd) ∨ badNibble (loNib hd))
    (h : SourceHas p [hd] w) :
    ∃ w', decPair p w = .raise .malformedInput (w.eng.latch.src.toNat + (w.eng.p.toNat + 1) - 1) w' ∧ Kept w w' := by
  refine ⟨setHeader hd (advance [hd] w), ?_, ⟨rfl, rfl, rfl, rfl, rfl, rfl, rfl⟩⟩
  rw [decPair, rdHeader_ok p hd w h, Res.bind_ok]
  by_cases hh : badNibble (hiNib hd)
  · rw [decNibbleLen_bad _ _ hh, raiseMalformed_header p hd w h]; rfl
  · have hl := hb.resolve_left hh
    simp only [badNibble, not_or, not_lt] at hh
    rw [decNibbleLen_ok _ _ hh.1 hh.2, Res.bind_ok, decNibbleLen_bad _ _ hl, raiseMalformed_header p hd w h]; rfl

/-! ### Decode: the first group of a loop -/

/-- What a decode loop reads first raises: then so does the loop. -/
theorem decBody_raises (p : Params) (c : Codec) (n e : Nat) (w : Work) {code : ErrCode} {addr : Nat} (hn : 0 < n)
    (h : if c = .nanolog ∧ n ≠ 1 then ∃ w', decPair p (startGroup w) = .raise code addr w' ∧ Kept (startGroup w) w'
      else ∃ w', elementReader p c (startGroup w) = .raise code addr w' ∧ Kept (startGroup w) w') :
    ∃ w', decBody p c n e w = .raise code addr w' ∧ Kept w w' := by
  have hk : Kept w (startGroup w) := ⟨rfl, rfl, rfl, rfl, rfl, rfl, rfl⟩
  obtain ⟨n, rfl⟩ : ∃ m, n = m + 1 := ⟨n - 1, by omega⟩
  cases c
  case nanolog =>
    cases n with
    | zero =>
      simp only [zero_add, ne_eq, not_true_eq_false, and_false, if_false] at h
      obtain ⟨w', h1, h2⟩ := h
      exact ⟨w', by simp only [elementReader] at h1; simp [decBody, decNanologLoop, h1], hk.trans h2⟩
    | succ n =>
      rw [if_pos ⟨rfl, by omega⟩] at h
      obtain ⟨w', h1, h2⟩ := h
      exact ⟨w', by simp [decBody, decNanologLoop, h1], hk.trans h2⟩
  all_goals
    simp only [reduceCtorEq, false_and, if_false] at h
    obtain ⟨w', h1, h2⟩ := h
    exact ⟨w', by simp [decBody, decodeLoop, h1], hk.trans h2⟩

/-- A decode loop whose next group does not end with the bytes there are stops where they do (R275, R278). -/
theorem decBody_incomplete (p : Params) (c : Codec) (n e : Nat) (w : Work) (part : List Byte) {code : ErrCode}
    {addr : Nat} (hn : 0 < n) (hi : Incomplete p c (decide (n = 1)) part) (h : SourceHas p part (startGroup w))
    (hs : StopsAt p w.eng.latch (w.eng.rc.toNat + part.length) code addr) :
    ∃ w', decBody p c n e w = .raise code addr w' ∧ Kept w w' := by
  refine decBody_raises p c n e w hn ?_
  cases c
  case leb128 =>
    simp only [reduceCtorEq, false_and, if_false]
    obtain ⟨w', h1, h2⟩ := decLebLoop_stops p part 9 { startGroup w with eng := { (startGroup w).eng with acc := 0, sh := 0 } }
      hi.2 (by have := hi.1; omega) ⟨h.fits, h.accessible, h.bytes⟩ hs
    exact ⟨w', h1, Kept.trans (w' := { startGroup w with eng := { (startGroup w).eng with acc := 0, sh := 0 } })
      ⟨rfl, rfl, rfl, rfl, rfl, rfl, rfl⟩ h2⟩
  case prefixVarint =>
    simp only [reduceCtorEq, false_and, if_false]
    refine decGroupPrefixVarint_stops p part _ ?_ h hs
    cases part with
    | nil => exact Or.inl rfl
    | cons b rest => exact Or.inr ⟨b, rest, rfl, hi⟩
  case nanolog =>
    by_cases h1 : n = 1
    · rw [if_neg (by simp [h1])]
      refine decSingle_stops p part _ ?_ h hs
      cases part with
      | nil => exact Or.inl rfl
      | cons b rest => simp only [Incomplete, h1, decide_true, if_true] at hi; exact Or.inr ⟨b, rest, rfl, hi⟩
    · rw [if_pos ⟨rfl, h1⟩]
      refine decPair_stops p part _ ?_ h hs
      cases part with
      | nil => exact Or.inl rfl
      | cons b rest =>
        simp only [Incomplete, h1, decide_false, Bool.false_eq_true, if_false] at hi
        exact Or.inr ⟨b, rest, rfl, hi⟩
  all_goals
    simp only [reduceCtorEq, false_and, if_false]
    refine decGroupBucket_stops _ p part _ ?_ h hs
    cases part with
    | nil => exact Or.inl rfl
    | cons b rest => obtain ⟨r, hr, hl⟩ := hi; exact Or.inr ⟨b, rest, r, rfl, hr, hl⟩

/-- A decode loop that meets a malformed byte stops at it (R276). -/
theorem decBody_malformed (p : Params) (c : Codec) (n e : Nat) (w : Work) (part : List Byte) (hn : 0 < n)
    (hm : Malformed p c (decide (n = 1)) part) (h : SourceHas p part (startGroup w)) :
    ∃ w', decBody p c n e w = .raise .malformedInput (w.eng.latch.src.toNat + (w.eng.rc.toNat + part.length) - 1) w' ∧
      Kept w w' := by
  refine decBody_raises p c n e w hn ?_
  cases c
  case leb128 =>
    simp only [reduceCtorEq, false_and, if_false]
    obtain ⟨w', h1, h2⟩ := decLebLoop_malformed p part 9
      { startGroup w with eng := { (startGroup w).eng with acc := 0, sh := 0 } } hm.2 hm.1 ⟨h.fits, h.accessible, h.bytes⟩
    exact ⟨w', h1, Kept.trans (w' := { startGroup w with eng := { (startGroup w).eng with acc := 0, sh := 0 } })
      ⟨rfl, rfl, rfl, rfl, rfl, rfl, rfl⟩ h2⟩
  case prefixVarint => exact hm.elim
  case nanolog =>
    obtain ⟨hd, rfl, hb⟩ := hm
    by_cases h1 : n = 1
    · rw [if_neg (by simp [h1])]
      refine decSingle_malformed p hd _ (hb.resolve_right ?_) h
      simp [h1]
    · rw [if_pos ⟨rfl, h1⟩]
      exact decPair_malformed p hd _ (hb.imp_right fun x => x.2) h
  all_goals
    simp only [reduceCtorEq, false_and, if_false]
    obtain ⟨b, rfl, hr⟩ := hm
    exact decGroupBucket_malformed _ p b _ hr h

/-- A store that fails leaves the bytes of the element before the failing address (R129, R278). -/
theorem storeElem_fails (p : Params) (e k : Nat) (v : Word) (w : Work) (hk : k < 8)
    (h : AllAccessible p (w.eng.latch.dst.toNat + 8 * e) k)
    (hf : p.accessibleAt (w.eng.latch.dst.toNat + 8 * e + k) = false) :
    storeElem p e v w = .raise .busError (w.eng.latch.dst.toNat + 8 * e + k)
      { w with mem := w.mem.writeBytes (w.eng.latch.dst.toNat + 8 * e) ((bytesLE 8 v.toNat).take k) } :=
  busWrites_fails p _ k _ w (by simpa using hk) h hf

/-- A decode loop that cannot store its next group's elements stops at the first byte that does not answer, with the
bytes before it written (R278). -/
theorem decBody_store_fails (p : Params) (c : Codec) (n e k : Nat) (w : Work) (g : List Byte) (xs : List Word) (hn : 0 < n)
    (hg : OneGroup p c (decide (n = 1)) g xs) (h : SourceHas p g (startGroup w)) (hk : k < 8 * xs.length)
    (ha : AllAccessible p (w.eng.latch.dst.toNat + 8 * e) k)
    (hf : p.accessibleAt (w.eng.latch.dst.toNat + 8 * e + k) = false) :
    ∃ w' m, decBody p c n e w = .raise .busError (w.eng.latch.dst.toNat + 8 * e + k) w' ∧
      m = w.mem.writeBytes (w.eng.latch.dst.toNat + 8 * e) ((elementBytes xs).take k) ∧ Kept { w with mem := m } w' := by
  obtain ⟨n, rfl⟩ : ∃ m, n = m + 1 := ⟨n - 1, by omega⟩
  have one : ∀ v w1, xs = [v] → Consumed g (startGroup w) w1 → ∃ w' m, storeElem p e v w1
      = .raise .busError (w.eng.latch.dst.toNat + 8 * e + k) w' ∧
      m = w.mem.writeBytes (w.eng.latch.dst.toNat + 8 * e) ((elementBytes xs).take k) ∧ Kept { w with mem := m } w' := by
    rintro v w1 rfl hc
    have hl : w1.eng.latch = w.eng.latch := hc.latch
    have hm : w1.mem = w.mem := hc.mem
    have := storeElem_fails p e k v w1 (by simpa using hk) (by rwa [hl]) (by rwa [hl])
    rw [hl, hm] at this
    exact ⟨_, _, this, rfl, ⟨by simp [elementBytes], hl, hc.phase, hc.race, hc.rc, hc.wc, hc.ei⟩⟩
  by_cases hnl : c = .nanolog
  · subst hnl
    cases n with
    | zero =>
      simp only [OneGroup, zero_add, decide_true, if_true] at hg
      obtain ⟨a, hx, hg⟩ := hg
      obtain ⟨w1, h1, hc⟩ := decSingle_ok p g a _ hg h
      obtain ⟨w', m, hs, hm, hkp⟩ := one a w1 hx hc
      exact ⟨w', m, by simp [decBody, decNanologLoop, h1, hs], hm, hkp⟩
    | succ n =>
      have hne : decide (n + 1 + 1 = 1) = false := by simp
      simp only [OneGroup, hne, Bool.false_eq_true, if_false] at hg
      obtain ⟨a, b, rfl, hg⟩ := hg
      obtain ⟨w1, h1, hc⟩ := decPair_ok p g a b _ hg h
      have hl : w1.eng.latch = w.eng.latch := hc.latch
      have hmem : w1.mem = w.mem := hc.mem
      by_cases hk8 : k < 8
      · have := storeElem_fails p e k a w1 hk8 (by rwa [hl]) (by rwa [hl])
        rw [hl, hmem] at this
        refine ⟨{ eng := w1.eng, mem := w.mem.writeBytes (w.eng.latch.dst.toNat + 8 * e) ((bytesLE 8 a.toNat).take k) }, _,
          by simp only [decBody, decNanologLoop, h1, this, Res.bind_ok, Res.bind_raise], rfl,
          ⟨?_, hl, hc.phase, hc.race, hc.rc, hc.wc, hc.ei⟩⟩
        simp only [elementBytes]
        rw [List.take_append_of_le_length (by simp; omega)]
      · have ha' : AllAccessible p (w.eng.latch.dst.toNat + 8 * e) (8 + (k - 8)) := by rwa [show 8 + (k - 8) = k by omega]
        have h2 := accessible_right ha'
        rw [show w.eng.latch.dst.toNat + 8 * e + 8 = w.eng.latch.dst.toNat + 8 * (e + 1) by omega] at h2
        have e1 : w.eng.latch.dst.toNat + 8 * e + k = w.eng.latch.dst.toNat + 8 * (e + 1) + (k - 8) := by omega
        have hst := storeElem_ok p e a w1 (by rw [hl]; exact accessible_left ha')
        rw [hl, hmem] at hst
        have hst' := storeElem_fails p (e + 1) (k - 8) b
          { w1 with mem := w.mem.writeBytes (w.eng.latch.dst.toNat + 8 * e) (bytesLE 8 a.toNat) }
          (by simp at hk; omega) (by simpa [hl] using h2) (by simpa [hl, ← e1] using hf)
        simp only [hl] at hst'
        rw [← e1] at hst'
        refine ⟨⟨w1.eng, Memory.writeBytes (w.mem.writeBytes (w.eng.latch.dst.toNat + 8 * e) (bytesLE 8 a.toNat))
            (w.eng.latch.dst.toNat + 8 * (e + 1)) ((bytesLE 8 b.toNat).take (k - 8))⟩, _,
          by simp only [decBody, decNanologLoop, h1, hst, hst', Res.bind_ok, Res.bind_raise], rfl,
          ⟨?_, hl, hc.phase, hc.race, hc.rc, hc.wc, hc.ei⟩⟩
        simp only [elementBytes, List.append_nil]
        have htake : (bytesLE 8 a.toNat).take k = bytesLE 8 a.toNat :=
          List.take_of_length_le (by rw [bytesLE_length]; omega)
        rw [List.take_append, bytesLE_length, htake, Memory.writeBytes_append, bytesLE_length]
        rfl
  · obtain ⟨v, hx, hg⟩ : ∃ v, xs = [v] ∧ ElementGroup p c g v := by
      cases c <;> first | exact hg | exact absurd rfl hnl
    obtain ⟨w1, h1, hc⟩ := elementReader_ok p c g v _ hg h
    obtain ⟨w', m, hs, hm, hkp⟩ := one v w1 hx hc
    refine ⟨w', m, ?_, hm, hkp⟩
    cases c <;> first | exact absurd rfl hnl | simp [decBody, decodeLoop, h1, hs]

end Sys2Proof.Machine
end

