-- ==== Sys2Proof/Laws/Frames.lean ====
section
/-! SUPPORT. What a command never touches: its loops stay within the destination region (R69, R70), and its datapath
stays within its bounds (R43). -/

namespace Sys2Proof.Machine

/-! ### The destination region -/

theorem rdByte_within (p : Params) (lo hi : Nat) (w : Work) : Within lo hi w (rdByte p w).after := by
  rcases rdByte_after p w with h | ⟨b, h⟩ <;> rw [h]
  · exact Within.refl _ _ _
  · exact Within.of_eng rfl rfl rfl rfl

theorem rdBytes_within (p : Params) (lo hi n : Nat) (w : Work) : Within lo hi w (rdBytes p n w).after := by
  induction n generalizing w with
  | zero => exact Within.refl _ _ _
  | succ n ih =>
    exact Within.bind (rdByte_within p lo hi w) fun b w' _ =>
      Within.bind (ih w') fun bs w'' _ => Within.refl _ _ _

theorem lebAccumulate_within (lo hi : Nat) (b : Byte) (w : Work) : Within lo hi w (lebAccumulate b w) :=
  Within.of_eng rfl rfl rfl rfl

theorem lebShift_within (lo hi : Nat) (w : Work) : Within lo hi w (lebShift w) := Within.of_eng rfl rfl rfl rfl

theorem setElements_within (lo hi k : Nat) (w : Work) : Within lo hi w (setElements k w) :=
  Within.of_eng rfl rfl rfl rfl

theorem decLebLoop_within (p : Params) (lo hi more : Nat) (w : Work) :
    Within lo hi w (decLebLoop p more w).after := by
  induction more generalizing w with
  | zero =>
    unfold decLebLoop
    refine Within.bind (rdByte_within p lo hi w) fun b w' _ => ?_
    split <;> exact lebAccumulate_within lo hi b w'
  | succ k ih =>
    unfold decLebLoop
    refine Within.bind (rdByte_within p lo hi w) fun b w' _ => ?_
    split
    · exact lebAccumulate_within lo hi b w'
    · exact ((lebAccumulate_within lo hi b w').trans (lebShift_within lo hi _)).trans (ih _)

theorem decGroupBucket_within (T : List BucketRow) (p : Params) (lo hi : Nat) (w : Work) :
    Within lo hi w (decGroupBucket T p w).after := by
  refine Within.bind (rdByte_within p lo hi w) fun b w' _ => ?_
  cases rowOf T b.toNat with
  | none => exact Within.refl _ _ _
  | some r => exact Within.bind (rdBytes_within p lo hi _ w') fun bs w'' _ => Within.refl _ _ _

theorem decGroupPrefixVarint_within (p : Params) (lo hi : Nat) (w : Work) :
    Within lo hi w (decGroupPrefixVarint p w).after := by
  refine Within.bind (rdByte_within p lo hi w) fun b w' _ => ?_
  split <;> exact Within.bind (rdBytes_within p lo hi _ w') fun bs w'' _ => Within.refl _ _ _

theorem rdHeader_within (p : Params) (lo hi : Nat) (w : Work) : Within lo hi w (rdHeader p w).after :=
  Within.bind (rdByte_within p lo hi w) fun _ _ _ => Within.of_eng rfl rfl rfl rfl

theorem decNibbleLen_after (n : Nat) (w : Work) : (decNibbleLen n w).after = w := by
  simp only [decNibbleLen]; split <;> rfl

theorem decNibbleLen_within (lo hi n : Nat) (w : Work) : Within lo hi w (decNibbleLen n w).after := by
  rw [decNibbleLen_after]; exact Within.refl _ _ _

theorem rdValue_within (p : Params) (lo hi n : Nat) (w : Work) : Within lo hi w (rdValue p n w).after :=
  Within.bind (rdBytes_within p lo hi n w) fun _ _ _ => Within.refl _ _ _

theorem decSingle_within (p : Params) (lo hi : Nat) (w : Work) : Within lo hi w (decSingle p w).after :=
  Within.bind (rdHeader_within p lo hi w) fun _ w _ =>
    Within.bind (decNibbleLen_within lo hi _ w) fun _ w _ => rdValue_within p lo hi _ w

theorem decPair_within (p : Params) (lo hi : Nat) (w : Work) : Within lo hi w (decPair p w).after :=
  Within.bind (rdHeader_within p lo hi w) fun _ w _ =>
    Within.bind (decNibbleLen_within lo hi _ w) fun _ w _ =>
      Within.bind (decNibbleLen_within lo hi _ w) fun _ w _ =>
        Within.bind (rdValue_within p lo hi _ w) fun _ w _ =>
          Within.bind (rdValue_within p lo hi _ w) fun _ _ _ => Within.refl _ _ _

/-- Reading a group touches no memory (R69). -/
theorem elementReader_within (p : Params) (c : Codec) (lo hi : Nat) (w : Work) :
    Within lo hi w (elementReader p c w).after := by
  cases c
  case leb128 =>
    exact Within.trans (w' := { w with eng := { w.eng with acc := 0, sh := 0 } }) (Within.of_eng rfl rfl rfl rfl)
      (decLebLoop_within p lo hi 9 _)
  case prefixVarint => exact decGroupPrefixVarint_within p lo hi w
  case lesqlite => exact decGroupBucket_within _ p lo hi w
  case lesqlite2 => exact decGroupBucket_within _ p lo hi w
  case nanolog => exact decSingle_within p lo hi w

theorem encodeLoop_within (p : Params) (grp : Word → List Byte) (n e : Nat) (w : Work) :
    Within w.eng.latch.dst.toNat (w.eng.latch.dst.toNat + w.eng.latch.cap.toNat) w (encodeLoop p grp n e w).after := by
  induction n generalizing e w with
  | zero => exact Within.refl _ _ _
  | succ n ih =>
    have hr := readElem_after p e w
    refine Within.bind (by rw [hr]; exact Within.refl _ _ _) fun v w1 hv => ?_
    rw [hv] at hr
    obtain rfl : w1 = w := hr
    refine Within.bind (emitGroup_within p _ w1) fun _ w2 hw2 => ?_
    have hl : w2.eng.latch = w1.eng.latch := by
      have := (emitGroup_within p (grp v) w1).latch; rwa [hw2] at this
    have := ih (e + 1) (setElements (e + 1) w2)
    simp only [setElements_latch, hl] at this
    exact (setElements_within _ _ _ _).trans this

theorem encNanologLoop_within (p : Params) (n e : Nat) (w : Work) :
    Within w.eng.latch.dst.toNat (w.eng.latch.dst.toNat + w.eng.latch.cap.toNat) w (encNanologLoop p n e w).after := by
  induction n using Nat.twoStepInduction generalizing e w with
  | zero => exact Within.refl _ _ _
  | one =>
    have hr := readElem_after p e w
    refine Within.bind (by rw [hr]; exact Within.refl _ _ _) fun v w1 hv => ?_
    rw [hv] at hr
    obtain rfl : w1 = w := hr
    exact Within.bind (emitGroup_within p _ w1) fun _ w2 _ => Within.of_eng rfl rfl rfl rfl
  | more n ih _ =>
    have hr := readElem_after p e w
    refine Within.bind (by rw [hr]; exact Within.refl _ _ _) fun a w1 ha => ?_
    rw [ha] at hr
    obtain rfl : w1 = w := hr
    have hr' := readElem_after p (e + 1) w1
    refine Within.bind (by rw [hr']; exact Within.refl _ _ _) fun b w2 hb => ?_
    rw [hb] at hr'
    obtain rfl : w2 = w1 := hr'
    refine Within.bind (emitGroup_within p _ w2) fun _ w3 hw3 => ?_
    have hl : w3.eng.latch = w2.eng.latch := by
      have := (emitGroup_within p (encPair a b) w2).latch; rwa [hw3] at this
    have := ih (e + 2) (setElements (e + 2) w3)
    simp only [setElements_latch, hl] at this
    exact (setElements_within _ _ _ _).trans this

/-- An encode loop stays within its destination region, whatever happens (R70). -/
theorem encBody_within (p : Params) (c : Codec) (n e : Nat) (w : Work) :
    Within w.eng.latch.dst.toNat (w.eng.latch.dst.toNat + w.eng.latch.cap.toNat) w (encBody p c n e w).after := by
  cases c
  case nanolog => exact encNanologLoop_within p n e w
  all_goals exact encodeLoop_within p _ n e w

theorem startGroup_within (lo hi : Nat) (w : Work) : Within lo hi w (startGroup w) := Within.of_eng rfl rfl rfl rfl

theorem commit_within (lo hi k : Nat) (w : Work) : Within lo hi w (setElements k (commitGroup w)) :=
  Within.of_eng rfl rfl rfl rfl

theorem decodeLoop_within (p : Params) (grp : Work → Res Word)
    (hg : ∀ lo hi w, Within lo hi w (grp w).after) (n e : Nat) (w : Work)
    (hc : 8 * (e + n) ≤ w.eng.latch.cap.toNat) :
    Within w.eng.latch.dst.toNat (w.eng.latch.dst.toNat + w.eng.latch.cap.toNat) w (decodeLoop p grp n e w).after := by
  induction n generalizing e w with
  | zero => exact Within.refl _ _ _
  | succ n ih =>
    refine (startGroup_within _ _ w).trans (Within.bind (hg _ _ _) fun v w1 hw1 => ?_)
    have hl1 : w1.eng.latch = w.eng.latch := by
      have := (hg 0 0 (startGroup w)).latch; rwa [hw1] at this
    have hst := storeElem_within p e v w1 (by rw [hl1]; omega)
    rw [hl1] at hst
    refine Within.bind hst fun _ w2 hw2 => ?_
    have hl2 : w2.eng.latch = w.eng.latch := by
      have := hst.latch; rw [hw2] at this; exact this.trans hl1
    have := ih (e + 1) (setElements (e + 1) (commitGroup w2)) (by simp only [setElements_latch, commitGroup_latch, hl2]; omega)
    simp only [setElements_latch, commitGroup_latch, hl2] at this
    exact (commit_within _ _ _ w2).trans this

theorem decNanologLoop_within (p : Params) (n e : Nat) (w : Work) (hc : 8 * (e + n) ≤ w.eng.latch.cap.toNat) :
    Within w.eng.latch.dst.toNat (w.eng.latch.dst.toNat + w.eng.latch.cap.toNat) w (decNanologLoop p n e w).after := by
  induction n using Nat.twoStepInduction generalizing e w with
  | zero => exact Within.refl _ _ _
  | one =>
    refine (startGroup_within _ _ w).trans (Within.bind (decSingle_within p _ _ _) fun v w1 hw1 => ?_)
    have hl1 : w1.eng.latch = w.eng.latch := by
      have := (decSingle_within p 0 0 (startGroup w)).latch; rwa [hw1] at this
    have hst := storeElem_within p e v w1 (by rw [hl1]; omega)
    rw [hl1] at hst
    exact Within.bind hst fun _ w2 _ => commit_within _ _ _ w2
  | more n ih _ =>
    refine (startGroup_within _ _ w).trans (Within.bind (decPair_within p _ _ _) fun ab w1 hw1 => ?_)
    have hl1 : w1.eng.latch = w.eng.latch := by
      have := (decPair_within p 0 0 (startGroup w)).latch; rwa [hw1] at this
    have hst := storeElem_within p e ab.1 w1 (by rw [hl1]; omega)
    rw [hl1] at hst
    refine Within.bind hst fun _ w2 hw2 => ?_
    have hl2 : w2.eng.latch = w.eng.latch := by
      have := hst.latch; rw [hw2] at this; exact this.trans hl1
    have hst' := storeElem_within p (e + 1) ab.2 w2 (by rw [hl2]; omega)
    rw [hl2] at hst'
    refine Within.bind hst' fun _ w3 hw3 => ?_
    have hl3 : w3.eng.latch = w.eng.latch := by
      have := hst'.latch; rw [hw3] at this; exact this.trans hl2
    have := ih (e + 2) (setElements (e + 2) (commitGroup w3)) (by simp only [setElements_latch, commitGroup_latch, hl3]; omega)
    simp only [setElements_latch, commitGroup_latch, hl3] at this
    exact (commit_within _ _ _ w3).trans this

/-- A decode loop with room for its elements stays within its destination region, whatever happens (R70). -/
theorem decBody_within (p : Params) (c : Codec) (n e : Nat) (w : Work) (hc : 8 * (e + n) ≤ w.eng.latch.cap.toNat) :
    Within w.eng.latch.dst.toNat (w.eng.latch.dst.toNat + w.eng.latch.cap.toNat) w (decBody p c n e w).after := by
  cases c
  case nanolog => exact decNanologLoop_within p n e w hc
  all_goals exact decodeLoop_within p _ (fun lo hi w => elementReader_within p _ lo hi w) n e w hc

/-- A whole command stays within its destination region: start checks, loop and strict check (R70, R123). -/
theorem command_within (p : Params) (i : Instr) (w : Work) (body : Work → Res Unit)
    (hbody : ∀ w' : Work, startChecks p true i.dir w = .ok () w' →
      Within w.eng.latch.dst.toNat (w.eng.latch.dst.toNat + w.eng.latch.cap.toNat) w (body w').after) :
    Within w.eng.latch.dst.toNat (w.eng.latch.dst.toNat + w.eng.latch.cap.toNat) w
      ((startChecks p true i.dir w).bind fun _ w => body w).after := by
  have h := startChecks_after p true i.dir w
  cases hx : startChecks p true i.dir w with
  | ok a w' => exact hbody w' hx
  | raise c a w' =>
    rw [hx] at h
    simp only [Res.after_raise] at h
    rw [Res.bind_raise, Res.after_raise, h]
    exact Within.refl _ _ _

/-! ### The datapath -/

/-- The shift offset is at most 63 and the group at most 17 bytes (R43). -/
def Bounded (w : Work) : Prop := w.eng.sh.toNat ≤ 63 ∧ w.eng.g.length ≤ 17

/-- The group has grown by at most `k` bytes and the shift offset stands. -/
def Grows (k : Nat) (w w' : Work) : Prop := w'.eng.g.length ≤ w.eng.g.length + k ∧ w'.eng.sh = w.eng.sh

theorem Grows.bind {α β : Type} {j k : Nat} {w : Work} {x : Res α} {f : α → Work → Res β}
    (hx : Grows j w x.after) (hf : ∀ a w', x = .ok a w' → Grows k w' (f a w').after) :
    Grows (j + k) w (x.bind f).after := by
  cases x with
  | ok a w' =>
    have h := hf a w' rfl
    exact ⟨by have := h.1; have := hx.1; simp only [Res.after_ok] at this; simp only [Res.bind_ok]; omega,
      h.2.trans hx.2⟩
  | raise c n w' => exact ⟨by have := hx.1; simp only [Res.after_raise, Res.bind_raise] at this ⊢; omega, hx.2⟩

theorem Grows.refl (w : Work) : Grows 0 w w := ⟨le_rfl, rfl⟩

theorem Grows.mono {j k : Nat} {w w' : Work} (h : Grows j w w') (hjk : j ≤ k) : Grows k w w' :=
  ⟨by have := h.1; omega, h.2⟩

theorem rdByte_grows (p : Params) (w : Work) : Grows 1 w (rdByte p w).after := by
  rcases rdByte_after p w with h | ⟨b, h⟩ <;> rw [h]
  · exact (Grows.refl w).mono (by omega)
  · exact ⟨by simp, rfl⟩

theorem rdBytes_grows (p : Params) (n : Nat) (w : Work) : Grows n w (rdBytes p n w).after := by
  induction n generalizing w with
  | zero => exact Grows.refl w
  | succ n ih =>
    refine Grows.mono (j := 1 + n) (Grows.bind (rdByte_grows p w) fun b w' _ => ?_) (by omega)
    exact Grows.bind (k := 0) (ih w') fun bs w'' _ => Grows.refl w''

theorem rdHeader_grows (p : Params) (w : Work) : Grows 1 w (rdHeader p w).after :=
  Grows.bind (k := 0) (rdByte_grows p w) fun _ w' _ => ⟨by simp, rfl⟩

theorem rdValue_grows (p : Params) (n : Nat) (w : Work) : Grows n w (rdValue p n w).after :=
  Grows.bind (k := 0) (rdBytes_grows p n w) fun _ w' _ => Grows.refl w'

theorem decNibbleLen_grows (n : Nat) (w : Work) : Grows 0 w (decNibbleLen n w).after := by
  rw [decNibbleLen_after]; exact Grows.refl w

theorem decNibbleLen_eq_ok (n m : Nat) (w w' : Work) (h : decNibbleLen n w = .ok m w') : m = n ∧ 1 ≤ n ∧ n ≤ 8 := by
  simp only [decNibbleLen] at h
  split at h
  · simp [raiseMalformed] at h
  · simp only [Res.ok.injEq] at h
    exact ⟨h.1.symm, by omega, by omega⟩

theorem decSingle_grows (p : Params) (w : Work) : Grows 9 w (decSingle p w).after :=
  Grows.bind (j := 1) (k := 8) (rdHeader_grows p w) fun _ w _ =>
    Grows.bind (j := 0) (k := 8) (decNibbleLen_grows _ w) fun m w' hm =>
      (rdValue_grows p m w').mono (by have := decNibbleLen_eq_ok _ _ _ _ hm; omega)

theorem decPair_grows (p : Params) (w : Work) : Grows 17 w (decPair p w).after :=
  Grows.bind (j := 1) (k := 16) (rdHeader_grows p w) fun _ w _ =>
    Grows.bind (j := 0) (k := 16) (decNibbleLen_grows _ w) fun m w' hm =>
      Grows.bind (j := 0) (k := 16) (decNibbleLen_grows _ w') fun m' w'' hm' =>
        Grows.bind (j := 8) (k := 8) ((rdValue_grows p m w'').mono (by have := decNibbleLen_eq_ok _ _ _ _ hm; omega))
          fun _ w3 _ =>
            (Grows.bind (k := 0) ((rdValue_grows p m' w3).mono (by have := decNibbleLen_eq_ok _ _ _ _ hm'; omega))
              fun _ w4 _ => Grows.refl w4)

theorem decGroupPrefixVarint_grows (p : Params) (w : Work) : Grows 9 w (decGroupPrefixVarint p w).after := by
  refine Grows.bind (j := 1) (k := 8) (rdByte_grows p w) fun b w' _ => ?_
  have hb := trailingOnes8_le b
  split
  · exact Grows.bind (k := 0) (rdBytes_grows p 8 w') fun _ w'' _ => Grows.refl w''
  · refine Grows.mono (Grows.bind (k := 0) (rdBytes_grows p (trailingOnes8 b) w') fun _ w'' _ => ?_) (by omega)
    exact Grows.refl w''

theorem decGroupBucket_grows (T : List BucketRow) (hT : tableLegal T = true) (p : Params) (w : Work) :
    Grows 9 w (decGroupBucket T p w).after := by
  refine Grows.bind (j := 1) (k := 8) (rdByte_grows p w) fun b w' _ => ?_
  cases hr : rowOf T b.toNat with
  | none => exact (Grows.refl w').mono (by omega)
  | some r =>
    have := (row_legal_of_mem hT (List.mem_of_find?_eq_some hr)).2.2.1
    refine Grows.mono (Grows.bind (k := 0) (rdBytes_grows p r.p w') fun _ w'' _ => ?_) (by omega)
    exact Grows.refl w''

/-- The LEB128 loop keeps the shift offset at most 63, and reads at most ten bytes (R152). -/
theorem decLebLoop_bounded (p : Params) (more i : Nat) (w : Work) (hi : i + more = 9) (hsh : w.eng.sh.toNat = 7 * i)
    (hg : w.eng.g.length ≤ i) : Bounded (decLebLoop p more w).after := by
  induction more generalizing i w with
  | zero =>
    unfold decLebLoop
    have hr := rdByte_grows p w
    cases hx : rdByte p w with
    | raise c n w' =>
      rw [hx] at hr
      have h1 := hr.1
      have h2 : w'.eng.sh = w.eng.sh := hr.2
      simp only [Res.after_raise] at h1
      exact ⟨by rw [Res.bind_raise, Res.after_raise, h2, hsh]; omega,
        by rw [Res.bind_raise, Res.after_raise]; omega⟩
    | ok b w' =>
      rw [hx] at hr
      have h1 := hr.1
      have h2 : w'.eng.sh = w.eng.sh := hr.2
      simp only [Res.after_ok] at h1
      rw [Res.bind_ok]
      split
      · exact ⟨by simp only [Res.after_ok, lebAccumulate_sh, h2, hsh]; omega,
          by simp only [Res.after_ok, lebAccumulate_g]; omega⟩
      · exact ⟨by simp only [raiseMalformed, Res.after_raise, lebAccumulate_sh, h2, hsh]; omega,
          by simp only [raiseMalformed, Res.after_raise, lebAccumulate_g]; omega⟩
  | succ k ih =>
    unfold decLebLoop
    have hr := rdByte_grows p w
    cases hx : rdByte p w with
    | raise c n w' =>
      rw [hx] at hr
      have h1 := hr.1
      have h2 : w'.eng.sh = w.eng.sh := hr.2
      simp only [Res.after_raise] at h1
      exact ⟨by rw [Res.bind_raise, Res.after_raise, h2, hsh]; omega,
        by rw [Res.bind_raise, Res.after_raise]; omega⟩
    | ok b w' =>
      rw [hx] at hr
      have h1 := hr.1
      have h2 : w'.eng.sh = w.eng.sh := hr.2
      simp only [Res.after_ok] at h1
      rw [Res.bind_ok]
      split
      · exact ⟨by simp only [Res.after_ok, lebAccumulate_sh, h2, hsh]; omega,
          by simp only [Res.after_ok, lebAccumulate_g]; omega⟩
      · have h7 : (7 : BitVec 7).toNat = 7 := rfl
        exact ih (i + 1) _ (by omega)
          (by simp only [lebShift_sh, lebAccumulate_sh, BitVec.toNat_add, h2, hsh, h7]; omega)
          (by simp only [lebShift_g, lebAccumulate_g]; omega)

/-- Reading one group keeps the datapath in its bounds (R43). -/
theorem elementReader_bounded (p : Params) (hp : p.legal = true) (c : Codec) (w : Work) (hw : Bounded w)
    (hg : w.eng.g = []) : Bounded (elementReader p c w).after := by
  have key : ∀ w', Grows 9 w w' → Bounded w' := fun w' h =>
    ⟨by rw [h.2]; exact hw.1, by have := h.1; rw [hg, List.length_nil] at this; omega⟩
  simp only [Params.legal, Bool.and_eq_true] at hp
  cases c
  case leb128 => exact decLebLoop_bounded p 9 0 _ rfl rfl (by simp [hg])
  case prefixVarint => exact key _ (decGroupPrefixVarint_grows p w)
  case lesqlite => exact key _ (decGroupBucket_grows _ hp.1.1.2 p w)
  case lesqlite2 => exact key _ (decGroupBucket_grows _ hp.1.2 p w)
  case nanolog => exact key _ (decSingle_grows p w)

/-- A bound kept by both pieces is kept by the two in a row. -/
theorem Bounded.bind {α β : Type} {x : Res α} {f : α → Work → Res β} (hx : Bounded x.after)
    (hf : ∀ a w', x = .ok a w' → Bounded w' → Bounded (f a w').after) : Bounded (x.bind f).after := by
  cases x with
  | ok a w' => exact hf a w' rfl hx
  | raise c n w' => exact hx

theorem busWrites_bounded (p : Params) (a : Nat) (bs : List Byte) (w : Work) (h : Bounded w) :
    Bounded (busWrites p a bs w).after := by
  obtain ⟨j, _, hj⟩ := busWrites_after p a bs w
  rw [hj]; exact h

theorem emitGroup_bounded (p : Params) (g : List Byte) (w : Work) (h : Bounded w) (hg : g.length ≤ 17) :
    Bounded (emitGroup p g w).after := by
  simp only [emitGroup]
  split
  · exact ⟨h.1, hg⟩
  · exact Bounded.bind (busWrites_bounded p _ g _ ⟨h.1, hg⟩) fun _ w' _ hw' => hw'

theorem readElem_bounded (p : Params) (e : Nat) (w : Work) (h : Bounded w) : Bounded (readElem p e w).after := by
  rw [readElem_after]; exact h

/-- Every canonical group has at most 10 bytes (R106). -/
theorem canonicalGroup_length (p : Params) (hp : p.legal = true) (c : Codec) (v : Word) :
    (canonicalGroup p c v).length ≤ 10 := by
  simp only [Params.legal, Bool.and_eq_true] at hp
  cases c
  case leb128 => exact (encGroupLeb128_length v).2
  case prefixVarint => have := (encGroupPrefixVarint_length v).2; simp only [canonicalGroup]; omega
  case lesqlite => have := (canonical_bucket _ hp.1.1.2 v).2; simp only [canonicalGroup]; omega
  case lesqlite2 => have := (canonical_bucket _ hp.1.2 v).2; simp only [canonicalGroup]; omega
  case nanolog =>
    have := encSingle_length p.nanologPad v; have := byteLen_word_le v; simp only [canonicalGroup]; omega

theorem encodeLoop_bounded (p : Params) (grp : Word → List Byte) (hg : ∀ v, (grp v).length ≤ 10) (n e : Nat) (w : Work)
    (h : Bounded w) : Bounded (encodeLoop p grp n e w).after := by
  induction n generalizing e w with
  | zero => exact h
  | succ n ih =>
    exact Bounded.bind (readElem_bounded p e w h) fun v w1 _ h1 =>
      Bounded.bind (emitGroup_bounded p _ w1 h1 (by have := hg v; omega)) fun _ w2 _ h2 => ih (e + 1) _ h2

theorem encNanologLoop_bounded (p : Params) (n e : Nat) (w : Work) (h : Bounded w) :
    Bounded (encNanologLoop p n e w).after := by
  induction n using Nat.twoStepInduction generalizing e w with
  | zero => exact h
  | one =>
    refine Bounded.bind (readElem_bounded p e w h) fun a w1 _ h1 =>
      Bounded.bind (emitGroup_bounded p _ w1 h1 ?_) fun _ w2 _ h2 => h2
    have := encSingle_length p.nanologPad a; have := byteLen_word_le a; omega
  | more n ih _ =>
    refine Bounded.bind (readElem_bounded p e w h) fun a w1 _ h1 =>
      Bounded.bind (readElem_bounded p (e + 1) w1 h1) fun b w2 _ h2 =>
        Bounded.bind (emitGroup_bounded p _ w2 h2 ?_) fun _ w3 _ h3 => ih (e + 2) _ h3
    have := encPair_length a b; have := byteLen_word_le a; have := byteLen_word_le b; omega

/-- An encode loop keeps the datapath in its bounds (R43). -/
theorem encBody_bounded (p : Params) (hp : p.legal = true) (c : Codec) (n e : Nat) (w : Work) (h : Bounded w) :
    Bounded (encBody p c n e w).after := by
  cases c
  case nanolog => exact encNanologLoop_bounded p n e w h
  all_goals exact encodeLoop_bounded p _ (canonicalGroup_length p hp _) n e w h

theorem startGroup_bounded (w : Work) (h : Bounded w) : Bounded (startGroup w) := ⟨h.1, by simp⟩

/-- A decode loop keeps the datapath in its bounds (R43). -/
theorem decBody_bounded (p : Params) (hp : p.legal = true) (c : Codec) (n e : Nat) (w : Work) (h : Bounded w) :
    Bounded (decBody p c n e w).after := by
  by_cases hc : c = .nanolog
  · subst hc
    show Bounded (decNanologLoop p n e w).after
    induction n using Nat.twoStepInduction generalizing e w with
    | zero => exact h
    | one =>
      exact Bounded.bind (elementReader_bounded p hp .nanolog _ (startGroup_bounded w h) rfl) fun v w1 _ h1 =>
        Bounded.bind (busWrites_bounded p _ _ w1 h1) fun _ w2 _ h2 => h2
    | more n ih _ =>
      have hpair : Bounded (decPair p (startGroup w)).after := by
        have hgr := decPair_grows p (startGroup w)
        exact ⟨by rw [hgr.2]; exact h.1, by have := hgr.1; simpa using this⟩
      exact Bounded.bind hpair fun v w1 _ h1 =>
        Bounded.bind (busWrites_bounded p _ _ w1 h1) fun _ w2 _ h2 =>
          Bounded.bind (busWrites_bounded p _ _ w2 h2) fun _ w3 _ h3 => ih (e + 2) _ h3
  · have hb : decBody p c n e w = decodeLoop p (elementReader p c) n e w := by
      cases c <;> first | rfl | exact absurd rfl hc
    rw [hb]
    clear hb
    induction n generalizing e w with
    | zero => exact h
    | succ n ih =>
      exact Bounded.bind (elementReader_bounded p hp c _ (startGroup_bounded w h) rfl) fun v w1 _ h1 =>
        Bounded.bind (busWrites_bounded p _ _ w1 h1) fun _ w2 _ h2 => ih (e + 1) _ h2

end Sys2Proof.Machine
end

