-- ==== Sys2Proof/Laws/Commands.lean ====
section
/-! SUPPORT. From the loops to whole commands: what a startable command brings to its loop, and how a loop's outcome ends
the command (R123, R130, R131). -/

namespace Sys2Proof.Machine

theorem instrOf_codec_dir (i : Instr) : instrOf i.codec i.dir = i := by cases i <;> rfl

/-- Every canonical group has a byte (R106). -/
theorem canonicalGroup_pos (p : Params) (hp : p.legal = true) (c : Codec) (v : Word) :
    0 < (canonicalGroup p c v).length := by
  simp only [Params.legal, Bool.and_eq_true, decide_eq_true_eq] at hp
  cases c
  case leb128 => exact (encGroupLeb128_length v).1
  case prefixVarint => exact (encGroupPrefixVarint_length v).1
  case lesqlite =>
    obtain ⟨⟨b0, rest, r, h, _⟩, _⟩ := canonical_bucket _ hp.1.1.2 v
    show 0 < (encGroupBucket _ v).length
    rw [h]; simp
  case lesqlite2 =>
    obtain ⟨⟨b0, rest, r, h, _⟩, _⟩ := canonical_bucket _ hp.1.2 v
    show 0 < (encGroupBucket _ v).length
    rw [h]; simp
  case nanolog => simp only [canonicalGroup, encSingle_length]; omega

/-- A buffer has at least a byte for every element (R100, R106). -/
theorem buffer_length_le {p : Params} {c : Codec} {bs : List Byte} {vs : List Word} (h : Buffer p c bs vs) :
    vs.length ≤ bs.length := by
  induction h with
  | nil c => simp
  | element c g bs v vs hg _ ih =>
    have : 0 < g.length := by
      cases c
      case leb128 => exact List.length_pos_iff.2 (leb128Chained_ne_nil hg.1)
      case prefixVarint => obtain ⟨b, r, rfl, _⟩ := hg; simp
      case lesqlite => obtain ⟨b, r, _, rfl, _⟩ := hg; simp
      case lesqlite2 => obtain ⟨b, r, _, rfl, _⟩ := hg; simp
      case nanolog => exact hg.elim
    simp; omega
  | pair g bs a b vs hg _ ih =>
    obtain ⟨h, xs, ys, rfl, _, _, h1, _, h3, _⟩ := hg
    simp; omega
  | single g a hg => obtain ⟨h, xs, rfl, _⟩ := hg; simp

/-- The regions of a startable command share no byte (R123). -/
theorem startable_disjoint {d : Dir} {s : State} (h : Startable d s) :
    (srcRegion d s.eng.latch).size = 0 ∨ s.eng.latch.cap.toNat = 0 ∨
      (srcRegion d s.eng.latch).base + (srcRegion d s.eng.latch).size ≤ s.eng.latch.dst.toNat ∨
      s.eng.latch.dst.toNat + s.eng.latch.cap.toNat ≤ (srcRegion d s.eng.latch).base := by
  have := h.apart
  by_contra hc
  simp only [not_or, not_le] at hc
  obtain ⟨h1, h2, h3, h4⟩ := hc
  have hm : (srcRegion d s.eng.latch).meets (dstRegion s.eng.latch) = true := by
    simp only [Range.meets, dstRegion, Bool.and_eq_true, decide_eq_true_eq]
    exact ⟨⟨⟨Nat.pos_of_ne_zero h1, decide_eq_true (Nat.pos_of_ne_zero h2)⟩, decide_eq_true h4⟩, decide_eq_true h3⟩
  rw [hm] at this
  exact Bool.noConfusion this

@[simp] theorem canonicalBuffer_nil (p : Params) (c : Codec) : canonicalBuffer p c [] = [] := by cases c <;> rfl

theorem canonicalBuffer_le (p : Params) (hp : p.legal = true) (c : Codec) (vs : List Word) :
    vs.length ≤ (canonicalBuffer p c vs).length := buffer_length_le (canonical_buffer p hp c vs)

/-- A startable encode brings its first `j` elements to its loop ready to be encoded. -/
theorem enc_ready {c : Codec} {s : State} (h : Startable .enc s) (j : Nat) (hj : j ≤ s.eng.latch.cnt.toNat)
    (hsrc : AllAccessible s.params s.eng.latch.src.toNat (8 * j))
    (hcap : (canonicalBuffer s.params c (elementsFrom s.mem s.eng.latch.src.toNat 0 j)).length ≤ s.eng.latch.cap.toNat)
    (hdst : AllAccessible s.params s.eng.latch.dst.toNat
      (canonicalBuffer s.params c (elementsFrom s.mem s.eng.latch.src.toNat 0 j)).length) :
    EncReady s.params j 0 (canonicalBuffer s.params c (elementsFrom s.mem s.eng.latch.src.toNat 0 j)) ⟨s.eng, s.mem⟩ := by
  have hle := canonicalBuffer_le s.params h.legal c (elementsFrom s.mem s.eng.latch.src.toNat 0 j)
  rw [elementsFrom_length] at hle
  have hwc : s.eng.wc.toNat = 0 := by rw [h.fresh.wc]; rfl
  have hd := startable_disjoint h
  simp only [srcRegion] at hd
  refine ⟨by simpa using hsrc, by simp only [hwc]; omega, by simpa [hwc] using hdst, ?_⟩
  simp only [hwc, Nat.mul_zero, Nat.add_zero]
  by_cases hz : j = 0
  · subst hz
    have : (canonicalBuffer s.params c (elementsFrom s.mem s.eng.latch.src.toNat 0 0)).length = 0 := by
      simp [elementsFrom]
    omega
  · rcases hd with hd | hd | hd | hd
    · omega
    · omega
    · exact Or.inl (by omega)
    · exact Or.inr (by omega)

/-- The first `j` elements of a startable encode are encoded to the destination, whole pairs for NANOLOG unless it is all
of them; the elements after them still stand. -/
theorem enc_prefix {c : Codec} {s : State} (h : Startable .enc s) (j : Nat) (hj : j ≤ s.eng.latch.cnt.toNat)
    (hp : c = .nanolog → j % 2 = 0)
    (hsrc : AllAccessible s.params s.eng.latch.src.toNat (8 * j))
    (hcap : (canonicalBuffer s.params c (elementsFrom s.mem s.eng.latch.src.toNat 0 j)).length ≤ s.eng.latch.cap.toNat)
    (hdst : AllAccessible s.params s.eng.latch.dst.toNat
      (canonicalBuffer s.params c (elementsFrom s.mem s.eng.latch.src.toNat 0 j)).length) :
    ∃ w, encBody s.params c s.eng.latch.cnt.toNat 0 ⟨s.eng, s.mem⟩
        = encBody s.params c (s.eng.latch.cnt.toNat - j) j w ∧
      Emitted (canonicalBuffer s.params c (elementsFrom s.mem s.eng.latch.src.toNat 0 j)) j ⟨s.eng, s.mem⟩ w ∧
      w.eng.wc.toNat = (canonicalBuffer s.params c (elementsFrom s.mem s.eng.latch.src.toNat 0 j)).length ∧
      elementsFrom w.mem s.eng.latch.src.toNat j (s.eng.latch.cnt.toNat - j)
        = elementsFrom s.mem s.eng.latch.src.toNat j (s.eng.latch.cnt.toNat - j) := by
  have hr := enc_ready h j hj hsrc hcap hdst
  obtain ⟨w, hw, hem⟩ := encBody_ok s.params c j 0 ⟨s.eng, s.mem⟩ (by rw [h.fresh.ei]; rfl) hr
  rw [Nat.zero_add] at hem
  have hwc : s.eng.wc.toNat = 0 := by rw [h.fresh.wc]; rfl
  have hlt := s.eng.latch.cap.isLt
  refine ⟨w, ?_, hem, ?_, ?_⟩
  · have := encBody_add s.params c j (s.eng.latch.cnt.toNat - j) 0 ⟨s.eng, s.mem⟩ hp
    rw [show j + (s.eng.latch.cnt.toNat - j) = s.eng.latch.cnt.toNat by omega, hw, Res.bind_ok, Nat.zero_add] at this
    exact this
  · rw [hem.wc, BitVec.toNat_ofNat]
    simp only [hwc, Nat.zero_add]
    exact Nat.mod_eq_of_lt (by omega)
  · refine elementsFrom_congr _ _ _ _ _ fun k hk => ?_
    have hle := canonicalBuffer_le s.params h.legal c (elementsFrom s.mem s.eng.latch.src.toNat 0 j)
    rw [elementsFrom_length] at hle
    rw [hem.mem]
    have hd := startable_disjoint h
    simp only [srcRegion] at hd
    by_cases hz : canonicalBuffer s.params c (elementsFrom s.mem s.eng.latch.src.toNat 0 j) = []
    · simp [hz, Memory.writeBytes]
    · have hpos : 0 < (canonicalBuffer s.params c (elementsFrom s.mem s.eng.latch.src.toNat 0 j)).length :=
        List.length_pos_iff.2 hz
      exact Memory.read_writeBytes_other _ _ _ _ (by simp only [hwc]; omega)

/-- A startable decode brings a buffer of its source to its loop ready to be decoded. -/
theorem dec_ready {c : Codec} {s : State} (h : Startable .dec s) {bs : List Byte} {vs : List Word}
    (hb : Buffer s.params c bs vs) (hn : vs.length ≤ s.eng.latch.cnt.toNat) (hs : SourceStarts s bs)
    (hdst : AllAccessible s.params s.eng.latch.dst.toNat (8 * vs.length)) :
    DecReady s.params 0 bs vs.length ⟨s.eng, s.mem⟩ := by
  have hrc : s.eng.rc.toNat = 0 := by rw [h.fresh.rc]; rfl
  have hd := startable_disjoint h
  have hroom := h.room rfl
  have hle := buffer_length_le hb
  have hf := hs.fits
  simp only [srcRegion] at hd
  refine ⟨⟨?_, ?_, ?_⟩, by simpa using hdst, ?_⟩
  · simp only [startGroup_p, startGroup_latch, hrc]; omega
  · simpa [startGroup_p, startGroup_latch, hrc] using hs.accessible
  · simpa [startGroup_p, startGroup_latch, hrc] using hs.bytes
  · simp only [hrc]
    by_cases hz : vs.length = 0
    · have hvs : vs = [] := List.length_eq_zero_iff.1 hz
      subst hvs
      have hbs : bs = [] := by
        generalize hx : ([] : List Word) = x at hb
        cases hb with
        | nil => rfl
        | element => exact absurd hx (by simp)
        | pair => exact absurd hx (by simp)
        | single => exact absurd hx (by simp)
      subst hbs
      simp; omega
    · omega

theorem sourceStarts_left {s : State} {xs ys : List Byte} (h : SourceStarts s (xs ++ ys)) : SourceStarts s xs := by
  have hf := h.fits
  have hb := h.bytes
  simp only [List.length_append] at hf hb
  rw [Memory.readBytes_append] at hb
  exact ⟨by omega, fun j hj => h.accessible j (by simp; omega), (List.append_inj hb (by simp)).1⟩

/-- The first groups of a startable decode are stored; the bytes after them still stand in the source. -/
theorem dec_prefix {c : Codec} {s : State} (h : Startable .dec s) {bs part : List Byte} {vs : List Word}
    (hb : Buffer s.params c bs vs) (hm : MoreToDecode c s vs) (hs : SourceStarts s (bs ++ part))
    (hdst : AllAccessible s.params s.eng.latch.dst.toNat (8 * vs.length)) :
    ∃ w, decBody s.params c s.eng.latch.cnt.toNat 0 ⟨s.eng, s.mem⟩
        = decBody s.params c (s.eng.latch.cnt.toNat - vs.length) vs.length w ∧
      Stored bs vs 0 ⟨s.eng, s.mem⟩ w ∧ w.eng.rc.toNat = bs.length ∧ SourceHas s.params part (startGroup w) := by
  have hrc : s.eng.rc.toNat = 0 := by rw [h.fresh.rc]; rfl
  have hr := dec_ready h hb (by have := hm.1; omega) (sourceStarts_left hs) hdst
  obtain ⟨w, hw, hst⟩ := decBody_ok s.params c bs vs hb 0 ⟨s.eng, s.mem⟩ (by rw [h.fresh.ei]; rfl) hr
  have hf := hs.fits
  simp only [List.length_append] at hf
  have hlt := s.eng.latch.slen.isLt
  have hw' : w.eng.rc.toNat = bs.length := by
    rw [hst.rc, BitVec.toNat_ofNat]
    simp only [hrc, Nat.zero_add]
    exact Nat.mod_eq_of_lt (by omega)
  have hl : w.eng.latch = s.eng.latch := hst.latch
  refine ⟨w, ?_, hst, hw', ⟨?_, ?_, ?_⟩⟩
  · have := decBody_add s.params c vs.length (s.eng.latch.cnt.toNat - vs.length) 0 ⟨s.eng, s.mem⟩ hm.2
    rw [show vs.length + (s.eng.latch.cnt.toNat - vs.length) = s.eng.latch.cnt.toNat by have := hm.1; omega, hw,
      Res.bind_ok, Nat.zero_add] at this
    exact this
  · simp only [startGroup_p, startGroup_latch, hl, hw']; exact hf
  · intro j hj
    have := hs.accessible (bs.length + j) (by simp; omega)
    simp only [startGroup_p, startGroup_latch, hl, hw']
    rwa [Nat.add_assoc]
  · simp only [startGroup_p, startGroup_latch, startGroup_mem, hl, hw', hst.mem]
    have hbytes := hs.bytes
    rw [List.length_append, Memory.readBytes_append] at hbytes
    have h2 := (List.append_inj hbytes (by simp)).2
    have hd := startable_disjoint h
    have hroom := h.room rfl
    have hcnt := hm.1
    simp only [srcRegion] at hd
    by_cases hp : part = []
    · subst hp; rfl
    · have hpos : 0 < part.length := List.length_pos_iff.2 hp
      rw [Memory.readBytes_writeBytes_other _ _ _ _ _ (by simp only [elementBytes_length]; omega)]
      exact h2

/-! ### How a loop's outcome ends the command -/

/-- A completion with a code, from work that kept the latches and i.RACE. -/
theorem ended_complete (d : Dir) (s : State) (w : Work) (code : ErrCode) (addr bytes count : Nat)
    (hl : w.eng.latch = s.eng.latch) (hr : w.eng.race = s.eng.race)
    (hb : progressBytes d w.eng = BitVec.ofNat 64 bytes) (he : w.eng.ei = BitVec.ofNat 64 count) :
    Ended s (complete d code addr (withWork w s)) code addr bytes count := by
  refine ⟨⟨rfl, hl, hr, rfl, rfl, by simp [hl], rfl⟩, rfl, rfl, rfl, rfl, fun ha => ?_, hb, he⟩
  simp only [complete_csr_errAddr, errAddrWord, if_pos ha]

theorem wrote_of_mem {s t : State} {a : Nat} {bs : List Byte} (h : t.mem = s.mem.writeBytes a bs) : Wrote s t a bs :=
  ⟨fun hw => by rw [h]; exact Memory.readBytes_writeBytes_same _ _ _ hw,
    fun x hx => by rw [h]; exact Memory.read_writeBytes_other _ _ _ _ (by omega)⟩

end Sys2Proof.Machine
end

