-- ==== Sys2Proof/Laws/Twin.lean ====
section
/-! SUPPORT. Two runs of one command from memories that agree on its source region take the same course (R121). -/

namespace Sys2Proof.Machine

/-- Two engines agree on all a running command still reads of them: the latches and the cursors; inside a group (level 1)
the group read position too, and inside a LEB128 group (level 2) the accumulator and the shift offset. -/
structure Alike (k : Nat) (e1 e2 : Engine) : Prop where
  latch : e1.latch = e2.latch
  rc : e1.rc = e2.rc
  wc : e1.wc = e2.wc
  ei : e1.ei = e2.ei
  p : 1 ≤ k → e1.p = e2.p
  acc : 2 ≤ k → e1.acc = e2.acc
  sh : 2 ≤ k → e1.sh = e2.sh

theorem Alike.mono {j k : Nat} {e1 e2 : Engine} (h : Alike k e1 e2) (hj : j ≤ k) : Alike j e1 e2 :=
  ⟨h.latch, h.rc, h.wc, h.ei, fun hj' => h.p (by omega), fun hj' => h.acc (by omega), fun hj' => h.sh (by omega)⟩

/-- Two runs side by side: engines alike, under latches `l`; memories that agree on the bytes `sr`, and elsewhere
agree or stand as they began (`m1`, `m2`). -/
structure Twin (k : Nat) (l : Latches) (sr : Nat → Prop) (m1 m2 : Memory) (w1 w2 : Work) : Prop where
  eng : Alike k w1.eng w2.eng
  latch : w1.eng.latch = l
  src : ∀ a, sr a → w1.mem.read a = w2.mem.read a
  out : ∀ a, w1.mem.read a = w2.mem.read a ∨ (w1.mem.read a = m1.read a ∧ w2.mem.read a = m2.read a)
  wf1 : w1.mem.wf = true
  wf2 : w2.mem.wf = true

/-- Two results side by side: both go on with one value, or both raise one error. -/
def TwinRes {α : Type} (k : Nat) (l : Latches) (sr : Nat → Prop) (m1 m2 : Memory) (x1 x2 : Res α) : Prop :=
  match x1, x2 with
  | .ok a w1, .ok b w2 => a = b ∧ Twin k l sr m1 m2 w1 w2
  | .raise c n w1, .raise c' n' w2 => c = c' ∧ n = n' ∧ Twin k l sr m1 m2 w1 w2
  | _, _ => False

section

variable {j k : Nat} {l : Latches} {sr : Nat → Prop} {m1 m2 : Memory}

theorem Twin.mono {w1 w2 : Work} (h : Twin k l sr m1 m2 w1 w2) (hj : j ≤ k) : Twin j l sr m1 m2 w1 w2 :=
  ⟨h.eng.mono hj, h.latch, h.src, h.out, h.wf1, h.wf2⟩

/-- Two pieces in a row: what the first agrees on may be more than what is asked of both. -/
theorem TwinRes.bindTo {α β : Type} {x1 x2 : Res α} {f : α → Work → Res β} (hj : j ≤ k)
    (hx : TwinRes k l sr m1 m2 x1 x2)
    (hf : ∀ a w1 w2, Twin k l sr m1 m2 w1 w2 → TwinRes j l sr m1 m2 (f a w1) (f a w2)) :
    TwinRes j l sr m1 m2 (x1.bind f) (x2.bind f) := by
  cases x1 with
  | ok a w1 =>
    cases x2 with
    | ok b w2 => obtain ⟨rfl, h⟩ := hx; exact hf a w1 w2 h
    | raise c n w2 => exact hx.elim
  | raise c n w1 =>
    cases x2 with
    | ok b w2 => exact hx.elim
    | raise c' n' w2 => obtain ⟨rfl, rfl, h⟩ := hx; exact ⟨rfl, rfl, h.mono hj⟩

theorem TwinRes.bind {α β : Type} {x1 x2 : Res α} {f : α → Work → Res β} (hx : TwinRes k l sr m1 m2 x1 x2)
    (hf : ∀ a w1 w2, Twin k l sr m1 m2 w1 w2 → TwinRes k l sr m1 m2 (f a w1) (f a w2)) :
    TwinRes k l sr m1 m2 (x1.bind f) (x2.bind f) := TwinRes.bindTo le_rfl hx hf

/-- One change of the engine's cursors and datapath in both runs. -/
theorem Twin.setEng {w1 w2 : Work} (h : Twin k l sr m1 m2 w1 w2) (f : Engine → Engine)
    (hf : ∀ e1 e2, Alike k e1 e2 → Alike j (f e1) (f e2)) (hl : ∀ e, (f e).latch = e.latch) :
    Twin j l sr m1 m2 { w1 with eng := f w1.eng } { w2 with eng := f w2.eng } :=
  ⟨hf _ _ h.eng, by simp [hl, h.latch], h.src, h.out, h.wf1, h.wf2⟩

/-- One byte written in both runs. -/
theorem Twin.write {w1 w2 : Work} (h : Twin k l sr m1 m2 w1 w2) (a : Nat) (b : Byte) :
    Twin k l sr m1 m2 { w1 with mem := w1.mem.write a b } { w2 with mem := w2.mem.write a b } := by
  have key : ∀ x, x = a → (w1.mem.write a b).read x = (w2.mem.write a b).read x := by
    rintro x rfl; rw [Memory.read_write_same _ _ _ h.wf1, Memory.read_write_same _ _ _ h.wf2]
  have keep1 : ∀ x, x ≠ a → (w1.mem.write a b).read x = w1.mem.read x := fun x hx => Memory.read_write_other _ _ _ _ hx
  have keep2 : ∀ x, x ≠ a → (w2.mem.write a b).read x = w2.mem.read x := fun x hx => Memory.read_write_other _ _ _ _ hx
  refine ⟨h.eng, h.latch, fun x hx => ?_, fun x => ?_, Memory.wf_write _ _ _ h.wf1, Memory.wf_write _ _ _ h.wf2⟩
  · by_cases hxa : x = a
    · exact key x hxa
    · exact (keep1 x hxa).trans ((h.src x hx).trans (keep2 x hxa).symm)
  · by_cases hxa : x = a
    · exact Or.inl (key x hxa)
    · rcases h.out x with ho | ⟨ho1, ho2⟩
      · exact Or.inl ((keep1 x hxa).trans (ho.trans (keep2 x hxa).symm))
      · exact Or.inr ⟨(keep1 x hxa).trans ho1, (keep2 x hxa).trans ho2⟩

theorem busReads_twin (p : Params) (a n : Nat) {w1 w2 : Work} (h : Twin k l sr m1 m2 w1 w2)
    (hs : ∀ x, a ≤ x → x < a + n → sr x) : TwinRes k l sr m1 m2 (busReads p a n w1) (busReads p a n w2) := by
  induction n generalizing a w1 w2 with
  | zero => exact ⟨rfl, h⟩
  | succ n ih =>
    refine TwinRes.bind ?_ fun b w1' w2' h' =>
      TwinRes.bind (ih (a + 1) h' fun x h1 h2 => hs x (by omega) (by omega)) fun bs _ _ h'' => ⟨rfl, h''⟩
    simp only [busRead]
    split
    · exact ⟨h.src a (hs a le_rfl (by omega)), h⟩
    · exact ⟨rfl, rfl, h⟩

theorem busWrites_twin (p : Params) (a : Nat) (bs : List Byte) {w1 w2 : Work} (h : Twin k l sr m1 m2 w1 w2) :
    TwinRes k l sr m1 m2 (busWrites p a bs w1) (busWrites p a bs w2) := by
  induction bs generalizing a w1 w2 with
  | nil => exact ⟨rfl, h⟩
  | cons b bs ih =>
    simp only [busWrites]
    split
    · exact ih (a + 1) (h.write a b)
    · exact ⟨rfl, rfl, h⟩

theorem readElem_twin (p : Params) (e : Nat) {w1 w2 : Work} (h : Twin k l sr m1 m2 w1 w2)
    (hs : ∀ x, l.src.toNat + 8 * e ≤ x → x < l.src.toNat + 8 * e + 8 → sr x) :
    TwinRes k l sr m1 m2 (readElem p e w1) (readElem p e w2) := by
  simp only [readElem, ← h.eng.latch, h.latch]
  exact TwinRes.bind (busReads_twin p _ 8 h hs) fun bs _ _ h' => ⟨rfl, h'⟩

theorem emitGroup_twin (p : Params) (g : List Byte) {w1 w2 : Work} (h : Twin k l sr m1 m2 w1 w2) :
    TwinRes k l sr m1 m2 (emitGroup p g w1) (emitGroup p g w2) := by
  have hg := h.setEng (j := k) (fun e => { e with g := g })
    (fun _ _ h => ⟨h.latch, h.rc, h.wc, h.ei, h.p, h.acc, h.sh⟩) fun _ => rfl
  simp only [← h.eng.latch, ← h.eng.wc] at hg
  simp only [emitGroup, ← h.eng.latch, ← h.eng.wc]
  split
  · exact ⟨rfl, rfl, hg⟩
  · exact TwinRes.bind (busWrites_twin p _ g hg) fun _ w1' w2' h' =>
      ⟨rfl, by
        have := h'.setEng (j := k) (fun e => { e with wc := BitVec.ofNat 64 (e.wc.toNat + g.length) })
          (fun _ _ h => ⟨h.latch, h.rc, by simp only [h.wc], h.ei, h.p, h.acc, h.sh⟩) fun _ => rfl
        exact this⟩

theorem storeElem_twin (p : Params) (e : Nat) (v : Word) {w1 w2 : Work} (h : Twin k l sr m1 m2 w1 w2) :
    TwinRes k l sr m1 m2 (storeElem p e v w1) (storeElem p e v w2) := by
  simp only [storeElem, ← h.eng.latch]
  exact busWrites_twin p _ _ h

theorem setElements_twin (n : Nat) {w1 w2 : Work} (h : Twin k l sr m1 m2 w1 w2) :
    Twin k l sr m1 m2 (setElements n w1) (setElements n w2) :=
  h.setEng (fun e => { e with ei := BitVec.ofNat 64 n })
    (fun _ _ h => ⟨h.latch, h.rc, h.wc, rfl, h.p, h.acc, h.sh⟩) fun _ => rfl

theorem commitGroup_twin {w1 w2 : Work} (h : Twin 1 l sr m1 m2 w1 w2) : Twin 0 l sr m1 m2 (commitGroup w1) (commitGroup w2) :=
  h.setEng (fun e => { e with rc := e.p })
    (fun _ _ h => ⟨h.latch, h.p le_rfl, h.wc, h.ei, by simp, by simp, by simp⟩) fun _ => rfl

theorem startGroup_twin {w1 w2 : Work} (h : Twin 0 l sr m1 m2 w1 w2) : Twin 1 l sr m1 m2 (startGroup w1) (startGroup w2) :=
  h.setEng (fun e => { e with p := e.rc, g := [] })
    (fun _ _ h => ⟨h.latch, h.rc, h.wc, h.ei, fun _ => h.rc, by simp, by simp⟩) fun _ => rfl

theorem encodeLoop_twin (p : Params) (grp : Word → List Byte) (n e : Nat) {w1 w2 : Work}
    (h : Twin k l sr m1 m2 w1 w2)
    (hs : ∀ x, l.src.toNat ≤ x → x < l.src.toNat + 8 * (e + n) → sr x) :
    TwinRes k l sr m1 m2 (encodeLoop p grp n e w1) (encodeLoop p grp n e w2) := by
  induction n generalizing e w1 w2 with
  | zero => exact ⟨rfl, h⟩
  | succ n ih =>
    exact TwinRes.bind (readElem_twin p e h fun x h1 h2 => hs x (by omega) (by omega)) fun v _ _ h1 =>
      TwinRes.bind (emitGroup_twin p _ h1) fun _ _ _ h2 =>
        ih (e + 1) (setElements_twin _ h2) fun x h3 h4 => hs x h3 (by omega)

theorem encNanologLoop_twin (p : Params) (n e : Nat) {w1 w2 : Work} (h : Twin k l sr m1 m2 w1 w2)
    (hs : ∀ x, l.src.toNat ≤ x → x < l.src.toNat + 8 * (e + n) → sr x) :
    TwinRes k l sr m1 m2 (encNanologLoop p n e w1) (encNanologLoop p n e w2) := by
  induction n using Nat.twoStepInduction generalizing e w1 w2 with
  | zero => exact ⟨rfl, h⟩
  | one =>
    exact TwinRes.bind (readElem_twin p e h fun x h1 h2 => hs x (by omega) (by omega)) fun v _ _ h1 =>
      TwinRes.bind (emitGroup_twin p _ h1) fun _ _ _ h2 => ⟨rfl, setElements_twin _ h2⟩
  | more n ih _ =>
    exact TwinRes.bind (readElem_twin p e h fun x h1 h2 => hs x (by omega) (by omega)) fun a _ _ h1 =>
      TwinRes.bind (readElem_twin p (e + 1) h1 fun x h3 h4 => hs x (by omega) (by omega)) fun b _ _ h2 =>
        TwinRes.bind (emitGroup_twin p _ h2) fun _ _ _ h3 =>
          ih (e + 2) (setElements_twin _ h3) fun x h4 h5 => hs x h4 (by omega)

/-- Two runs of an encode loop from memories that agree on the source take the same course. -/
theorem encBody_twin (p : Params) (c : Codec) (n e : Nat) {w1 w2 : Work} (h : Twin k l sr m1 m2 w1 w2)
    (hs : ∀ x, l.src.toNat ≤ x → x < l.src.toNat + 8 * (e + n) → sr x) :
    TwinRes k l sr m1 m2 (encBody p c n e w1) (encBody p c n e w2) := by
  cases c
  case nanolog => exact encNanologLoop_twin p n e h hs
  all_goals exact encodeLoop_twin p _ n e h hs

section

variable (hs : ∀ x, l.src.toNat ≤ x → x < l.src.toNat + l.slen.toNat → sr x)

include hs

theorem rdByte_twin (hk : 1 ≤ k) (p : Params) {w1 w2 : Work} (h : Twin k l sr m1 m2 w1 w2) :
    TwinRes k l sr m1 m2 (rdByte p w1) (rdByte p w2) := by
  simp only [rdByte, ← h.eng.latch, ← h.eng.p hk, h.latch]
  split
  · exact ⟨rfl, rfl, h⟩
  · next hlt =>
    rw [BitVec.le_def, not_le] at hlt
    refine TwinRes.bind ?_ fun b _ _ h' =>
      ⟨rfl, h'.setEng (fun e => { e with p := e.p + 1, g := e.g ++ [b] })
        (fun _ _ h => ⟨h.latch, h.rc, h.wc, h.ei, fun hk => by simp only [h.p hk], h.acc, h.sh⟩) fun _ => rfl⟩
    simp only [busRead]
    split
    · exact ⟨h.src _ (hs _ (by omega) (by omega)), h⟩
    · exact ⟨rfl, rfl, h⟩

theorem rdBytes_twin (hk : 1 ≤ k) (p : Params) (n : Nat) {w1 w2 : Work} (h : Twin k l sr m1 m2 w1 w2) :
    TwinRes k l sr m1 m2 (rdBytes p n w1) (rdBytes p n w2) := by
  induction n generalizing w1 w2 with
  | zero => exact ⟨rfl, h⟩
  | succ n ih =>
    exact TwinRes.bind (rdByte_twin hs hk p h) fun b _ _ h1 => TwinRes.bind (ih h1) fun bs _ _ h2 => ⟨rfl, h2⟩

omit hs in
theorem raiseMalformed_twin {α : Type} (hk : 1 ≤ k) {w1 w2 : Work} (h : Twin k l sr m1 m2 w1 w2) :
    TwinRes k l sr m1 m2 (raiseMalformed w1 : Res α) (raiseMalformed w2) :=
  ⟨rfl, by rw [h.eng.latch, h.eng.p hk], h⟩

omit hs in
theorem lebAccumulate_twin (b : Byte) {w1 w2 : Work} (h : Twin 2 l sr m1 m2 w1 w2) :
    Twin 2 l sr m1 m2 (lebAccumulate b w1) (lebAccumulate b w2) :=
  h.setEng (fun e => { e with acc := e.acc ||| (BitVec.ofNat 64 (b.toNat &&& 0x7F) <<< e.sh.toNat) })
    (fun _ _ h => ⟨h.latch, h.rc, h.wc, h.ei, h.p, fun hk => by simp only [h.acc hk, h.sh hk], h.sh⟩) fun _ => rfl

omit hs in
theorem lebShift_twin {w1 w2 : Work} (h : Twin 2 l sr m1 m2 w1 w2) : Twin 2 l sr m1 m2 (lebShift w1) (lebShift w2) :=
  h.setEng (fun e => { e with sh := e.sh + 7 })
    (fun _ _ h => ⟨h.latch, h.rc, h.wc, h.ei, h.p, h.acc, fun hk => by simp only [h.sh hk]⟩) fun _ => rfl

theorem decLebLoop_twin (p : Params) (more : Nat) {w1 w2 : Work} (h : Twin 2 l sr m1 m2 w1 w2) :
    TwinRes 2 l sr m1 m2 (decLebLoop p more w1) (decLebLoop p more w2) := by
  induction more generalizing w1 w2 with
  | zero =>
    unfold decLebLoop
    refine TwinRes.bind (rdByte_twin hs (by omega) p h) fun b _ _ h1 => ?_
    have h2 := lebAccumulate_twin b h1
    split
    · exact ⟨h2.eng.acc le_rfl, h2⟩
    · exact raiseMalformed_twin (by omega) h2
  | succ k ih =>
    unfold decLebLoop
    refine TwinRes.bind (rdByte_twin hs (by omega) p h) fun b _ _ h1 => ?_
    have h2 := lebAccumulate_twin b h1
    split
    · exact ⟨h2.eng.acc le_rfl, h2⟩
    · exact ih (lebShift_twin h2)

theorem rdHeader_twin (hk : 1 ≤ k) (p : Params) {w1 w2 : Work} (h : Twin k l sr m1 m2 w1 w2) :
    TwinRes k l sr m1 m2 (rdHeader p w1) (rdHeader p w2) :=
  TwinRes.bind (rdByte_twin hs hk p h) fun b _ _ h1 => ⟨rfl, h1.setEng (fun e => { e with hdr := b })
    (fun _ _ h => ⟨h.latch, h.rc, h.wc, h.ei, h.p, h.acc, h.sh⟩) fun _ => rfl⟩

omit hs in
theorem decNibbleLen_twin (hk : 1 ≤ k) (n : Nat) {w1 w2 : Work} (h : Twin k l sr m1 m2 w1 w2) :
    TwinRes k l sr m1 m2 (decNibbleLen n w1) (decNibbleLen n w2) := by
  simp only [decNibbleLen]
  split
  · exact raiseMalformed_twin hk h
  · exact ⟨rfl, h⟩

theorem rdValue_twin (hk : 1 ≤ k) (p : Params) (n : Nat) {w1 w2 : Work} (h : Twin k l sr m1 m2 w1 w2) :
    TwinRes k l sr m1 m2 (rdValue p n w1) (rdValue p n w2) :=
  TwinRes.bind (rdBytes_twin hs hk p n h) fun _ _ _ h1 => ⟨rfl, h1⟩

theorem decSingle_twin (hk : 1 ≤ k) (p : Params) {w1 w2 : Work} (h : Twin k l sr m1 m2 w1 w2) :
    TwinRes k l sr m1 m2 (decSingle p w1) (decSingle p w2) :=
  TwinRes.bind (rdHeader_twin hs hk p h) fun _ _ _ h1 =>
    TwinRes.bind (decNibbleLen_twin hk _ h1) fun _ _ _ h2 => rdValue_twin hs hk p _ h2

theorem decPair_twin (hk : 1 ≤ k) (p : Params) {w1 w2 : Work} (h : Twin k l sr m1 m2 w1 w2) :
    TwinRes k l sr m1 m2 (decPair p w1) (decPair p w2) :=
  TwinRes.bind (rdHeader_twin hs hk p h) fun _ _ _ h1 =>
    TwinRes.bind (decNibbleLen_twin hk _ h1) fun _ _ _ h2 =>
      TwinRes.bind (decNibbleLen_twin hk _ h2) fun _ _ _ h3 =>
        TwinRes.bind (rdValue_twin hs hk p _ h3) fun _ _ _ h4 =>
          TwinRes.bind (rdValue_twin hs hk p _ h4) fun _ _ _ h5 => ⟨rfl, h5⟩

theorem decGroupBucket_twin (hk : 1 ≤ k) (T : List BucketRow) (p : Params) {w1 w2 : Work} (h : Twin k l sr m1 m2 w1 w2) :
    TwinRes k l sr m1 m2 (decGroupBucket T p w1) (decGroupBucket T p w2) := by
  refine TwinRes.bind (rdByte_twin hs hk p h) fun b _ _ h1 => ?_
  cases rowOf T b.toNat with
  | none => exact raiseMalformed_twin hk h1
  | some r => exact TwinRes.bind (rdBytes_twin hs hk p _ h1) fun _ _ _ h2 => ⟨rfl, h2⟩

/-- Two readers of one group take the same course. -/
theorem elementReader_twin (p : Params) (c : Codec) {w1 w2 : Work} (h : Twin 1 l sr m1 m2 w1 w2) :
    TwinRes 1 l sr m1 m2 (elementReader p c w1) (elementReader p c w2) := by
  cases c
  case leb128 =>
    have := TwinRes.bindTo (j := 1) (f := Res.ok) (by omega) (decLebLoop_twin hs p 9 (h.setEng (fun e => { e with acc := 0, sh := 0 })
      (fun _ _ h => ⟨h.latch, h.rc, h.wc, h.ei, fun _ => h.p le_rfl, fun _ => rfl, fun _ => rfl⟩) fun _ => rfl))
      fun v _ _ h1 => ⟨rfl, h1.mono (by omega)⟩
    rw [Res.bind_ok_right, Res.bind_ok_right] at this
    exact this
  case prefixVarint =>
    refine TwinRes.bind (rdByte_twin hs le_rfl p h) fun b _ _ h1 => ?_
    split <;> exact TwinRes.bind (rdBytes_twin hs le_rfl p _ h1) fun _ _ _ h2 => ⟨rfl, h2⟩
  case lesqlite => exact decGroupBucket_twin hs le_rfl _ p h
  case lesqlite2 => exact decGroupBucket_twin hs le_rfl _ p h
  case nanolog => exact decSingle_twin hs le_rfl p h

/-- Two runs of a decode loop from memories that agree on the source take the same course. -/
theorem decBody_twin (p : Params) (c : Codec) (n e : Nat) {w1 w2 : Work} (h : Twin 0 l sr m1 m2 w1 w2) :
    TwinRes 0 l sr m1 m2 (decBody p c n e w1) (decBody p c n e w2) := by
  by_cases hc : c = .nanolog
  · subst hc
    show TwinRes 0 l sr m1 m2 (decNanologLoop p n e w1) (decNanologLoop p n e w2)
    induction n using Nat.twoStepInduction generalizing e w1 w2 with
    | zero => exact ⟨rfl, h⟩
    | one =>
      exact TwinRes.bindTo (Nat.zero_le 1) (decSingle_twin hs le_rfl p (startGroup_twin h)) fun _ _ _ h1 =>
        TwinRes.bindTo (Nat.zero_le 1) (storeElem_twin p _ _ h1) fun _ _ _ h2 => ⟨rfl, setElements_twin _ (commitGroup_twin h2)⟩
    | more n ih _ =>
      exact TwinRes.bindTo (Nat.zero_le 1) (decPair_twin hs le_rfl p (startGroup_twin h)) fun _ _ _ h1 =>
        TwinRes.bindTo (Nat.zero_le 1) (storeElem_twin p _ _ h1) fun _ _ _ h2 =>
          TwinRes.bindTo (Nat.zero_le 1) (storeElem_twin p _ _ h2) fun _ _ _ h3 => ih (e + 2) (setElements_twin _ (commitGroup_twin h3))
  · have hb : ∀ w, decBody p c n e w = decodeLoop p (elementReader p c) n e w := by
      intro w; cases c <;> first | rfl | exact absurd rfl hc
    rw [hb, hb]
    clear hb
    induction n generalizing e w1 w2 with
    | zero => exact ⟨rfl, h⟩
    | succ n ih =>
      exact TwinRes.bindTo (Nat.zero_le 1) (elementReader_twin hs p c (startGroup_twin h)) fun _ _ _ h1 =>
        TwinRes.bindTo (Nat.zero_le 1) (storeElem_twin p _ _ h1) fun _ _ _ h2 => ih (e + 1) (setElements_twin _ (commitGroup_twin h2))

end

theorem strictCheck_twin {w1 w2 : Work} (h : Twin k l sr m1 m2 w1 w2) :
    TwinRes k l sr m1 m2 (strictCheck w1) (strictCheck w2) := by
  simp only [strictCheck, ← h.eng.latch, ← h.eng.rc]
  split
  · exact ⟨rfl, rfl, h⟩
  · exact ⟨rfl, h⟩

theorem startChecks_twin (p : Params) (legal : Bool) (d : Dir) {w1 w2 : Work} (h : Twin k l sr m1 m2 w1 w2) :
    TwinRes k l sr m1 m2 (startChecks p legal d w1) (startChecks p legal d w2) := by
  simp only [startChecks, ← h.eng.latch]
  split_ifs <;> first | exact ⟨rfl, rfl, h⟩ | exact ⟨rfl, h⟩

end

end Sys2Proof.Machine
end

