-- ==== Sys2Proof/Laws/Exec.lean ====
section
/-! SUPPORT. Everything a command can do, said once (R121, R130): the inversion lemma of `exec`. -/

namespace Sys2Proof.Machine

/-- No raise has the code OK. -/
def Honest {α : Type} (x : Res α) : Prop := ∀ a w, x ≠ .raise .ok a w

theorem Honest.bind {α β : Type} {x : Res α} {f : α → Work → Res β} (hx : Honest x)
    (hf : ∀ a w, Honest (f a w)) :
    Honest (x.bind f) := by
  cases x with
  | ok a w => exact hf a w
  | raise c n w =>
    intro a w' h
    simp only [Res.bind_raise, Res.raise.injEq] at h
    exact hx n w (by rw [h.1])

theorem honest_ok {α : Type} (a : α) (w : Work) : Honest (.ok a w) := by intro _ _ h; cases h

theorem honest_raise {α : Type} (c : ErrCode) (n : Nat) (w : Work) (hc : c ≠ .ok) :
    Honest (.raise c n w : Res α) := by
  intro a w' h; cases h; exact hc rfl

theorem busRead_honest (p : Params) (a : Nat) (w : Work) : Honest (busRead p a w) := by
  simp only [busRead]; split
  · exact honest_ok _ _
  · exact honest_raise _ _ _ (by decide)

theorem busReads_honest (p : Params) (a n : Nat) (w : Work) : Honest (busReads p a n w) := by
  induction n generalizing a w with
  | zero => exact honest_ok _ _
  | succ n ih => exact (busRead_honest p a w).bind fun _ w => (ih _ w).bind fun _ _ => honest_ok _ _

theorem busWrites_honest (p : Params) (a : Nat) (bs : List Byte) (w : Work) : Honest (busWrites p a bs w) := by
  induction bs generalizing a w with
  | nil => exact honest_ok _ _
  | cons b bs ih =>
    simp only [busWrites]; split
    · exact ih _ _
    · exact honest_raise _ _ _ (by decide)

theorem rdByte_honest (p : Params) (w : Work) : Honest (rdByte p w) := by
  simp only [rdByte]; split
  · exact honest_raise _ _ _ (by decide)
  · exact (busRead_honest p _ w).bind fun _ _ => honest_ok _ _

theorem rdBytes_honest (p : Params) (n : Nat) (w : Work) : Honest (rdBytes p n w) := by
  induction n generalizing w with
  | zero => exact honest_ok _ _
  | succ n ih => exact (rdByte_honest p w).bind fun _ w => (ih w).bind fun _ _ => honest_ok _ _

theorem raiseMalformed_honest {α : Type} (w : Work) : Honest (raiseMalformed w : Res α) := honest_raise _ _ _ (by decide)

theorem emitGroup_honest (p : Params) (g : List Byte) (w : Work) : Honest (emitGroup p g w) := by
  simp only [emitGroup]; split
  · exact honest_raise _ _ _ (by decide)
  · exact (busWrites_honest p _ _ _).bind fun _ _ => honest_ok _ _

theorem readElem_honest (p : Params) (e : Nat) (w : Work) : Honest (readElem p e w) :=
  (busReads_honest p _ _ _).bind fun _ _ => honest_ok _ _

theorem storeElem_honest (p : Params) (e : Nat) (v : Word) (w : Work) : Honest (storeElem p e v w) :=
  busWrites_honest _ _ _ _

theorem decLebLoop_honest (p : Params) (k : Nat) (w : Work) : Honest (decLebLoop p k w) := by
  induction k generalizing w with
  | zero =>
    unfold decLebLoop
    refine (rdByte_honest p w).bind fun b w => ?_
    split
    · exact honest_ok _ _
    · exact raiseMalformed_honest _
  | succ k ih =>
    unfold decLebLoop
    refine (rdByte_honest p w).bind fun b w => ?_
    split
    · exact honest_ok _ _
    · exact ih _

theorem decNibbleLen_honest (n : Nat) (w : Work) : Honest (decNibbleLen n w) := by
  simp only [decNibbleLen]; split
  · exact raiseMalformed_honest _
  · exact honest_ok _ _

theorem rdHeader_honest (p : Params) (w : Work) : Honest (rdHeader p w) :=
  (rdByte_honest p w).bind fun _ _ => honest_ok _ _

theorem rdValue_honest (p : Params) (n : Nat) (w : Work) : Honest (rdValue p n w) :=
  (rdBytes_honest p n w).bind fun _ _ => honest_ok _ _

theorem decSingle_honest (p : Params) (w : Work) : Honest (decSingle p w) :=
  (rdHeader_honest p w).bind fun _ w => (decNibbleLen_honest _ w).bind fun _ w => rdValue_honest _ _ w
theorem decPair_honest (p : Params) (w : Work) : Honest (decPair p w) :=
  (rdHeader_honest p w).bind fun _ w => (decNibbleLen_honest _ w).bind fun _ w =>
    (decNibbleLen_honest _ w).bind fun _ w =>
    (rdValue_honest _ _ w).bind fun _ w => (rdValue_honest _ _ w).bind fun _ _ => honest_ok _ _

theorem decGroupBucket_honest (T : List BucketRow) (p : Params) (w : Work) : Honest (decGroupBucket T p w) := by
  refine (rdByte_honest p w).bind fun b w => ?_
  cases rowOf T b.toNat with
  | none => exact raiseMalformed_honest _
  | some r => exact (rdBytes_honest p _ w).bind fun _ _ => honest_ok _ _

theorem elementReader_honest (p : Params) (c : Codec) (w : Work) : Honest (elementReader p c w) := by
  cases c
  case leb128 => exact decLebLoop_honest p 9 _
  case prefixVarint =>
    refine (rdByte_honest p w).bind fun b w => ?_
    split <;> exact (rdBytes_honest p _ w).bind fun _ _ => honest_ok _ _
  case lesqlite => exact decGroupBucket_honest _ p w
  case lesqlite2 => exact decGroupBucket_honest _ p w
  case nanolog => exact decSingle_honest p w

theorem encBody_honest (p : Params) (c : Codec) (n e : Nat) (w : Work) : Honest (encBody p c n e w) := by
  have loop : ∀ grp n e w, Honest (encodeLoop p grp n e w) := by
    intro grp n
    induction n with
    | zero => intro e w; exact honest_ok _ _
    | succ n ih =>
      intro e w
      exact (readElem_honest p e w).bind fun _ w =>
        (emitGroup_honest p _ w).bind fun _ w => ih _ _
  have nano : ∀ n e w, Honest (encNanologLoop p n e w) := by
    intro n
    induction n using Nat.twoStepInduction with
    | zero => intro e w; exact honest_ok _ _
    | one =>
      intro e w
      exact (readElem_honest p e w).bind fun _ w =>
        (emitGroup_honest p _ w).bind fun _ _ => honest_ok _ _
    | more n ih _ =>
      intro e w
      exact (readElem_honest p e w).bind fun _ w => (readElem_honest p _ w).bind fun _ w =>
        (emitGroup_honest p _ w).bind fun _ w => ih _ _
  cases c
  case nanolog => exact nano _ _ _
  all_goals exact loop _ _ _ _

theorem decBody_honest (p : Params) (c : Codec) (n e : Nat) (w : Work) : Honest (decBody p c n e w) := by
  have loop : ∀ c n e w, Honest (decodeLoop p (elementReader p c) n e w) := by
    intro c n
    induction n with
    | zero => intro e w; exact honest_ok _ _
    | succ n ih =>
      intro e w
      exact (elementReader_honest p c _).bind fun _ w =>
        (storeElem_honest p e _ w).bind fun _ w => ih _ _
  have nano : ∀ n e w, Honest (decNanologLoop p n e w) := by
    intro n
    induction n using Nat.twoStepInduction with
    | zero => intro e w; exact honest_ok _ _
    | one =>
      intro e w
      exact (decSingle_honest p _).bind fun _ w =>
        (storeElem_honest p e _ w).bind fun _ _ => honest_ok _ _
    | more n ih _ =>
      intro e w
      exact (decPair_honest p _).bind fun _ w => (storeElem_honest p e _ w).bind fun _ w =>
        (storeElem_honest p _ _ w).bind fun _ w => ih _ _
  cases c
  case nanolog => exact nano _ _ _
  all_goals exact loop _ _ _ _

theorem strictCheck_honest (w : Work) : Honest (strictCheck w) := by
  simp only [strictCheck]; split
  · exact honest_raise _ _ _ (by decide)
  · exact honest_ok _ _

theorem startChecks_honest (p : Params) (l : Bool) (d : Dir) (w : Work) : Honest (startChecks p l d w) := by
  simp only [startChecks]; split_ifs <;> first | exact honest_raise _ _ _ (by decide) | exact honest_ok _ _

/-- What the work between a command's start checks and its completion keeps: it stays within the destination region,
keeps the datapath in its bounds, raises no OK, and takes one course on like inputs (R43, R70, R121). -/
structure SafeBody (p : Params) (d : Dir) (body : Work → Res Unit) : Prop where
  within : ∀ w w', startChecks p true d w = .ok () w' →
    Within w.eng.latch.dst.toNat (w.eng.latch.dst.toNat + w.eng.latch.cap.toNat) w (body w).after
  bounded : ∀ w, Bounded w → Bounded (body w).after
  honest : ∀ w, Honest (body w)
  twin : ∀ {sr : Nat → Prop} {m1 m2 : Memory} {l : Latches} {w1 w2 : Work}, Twin 0 l sr m1 m2 w1 w2 →
    (∀ a, (srcRegion d l).has a = true → sr a) → TwinRes 0 l sr m1 m2 (body w1) (body w2)

theorem srcRegion_has (d : Dir) (l : Latches) (a : Nat) (h1 : l.src.toNat ≤ a)
    (h2 : a < l.src.toNat + (srcRegion d l).size) : (srcRegion d l).has a = true := by
  cases d <;>
    (rw [Range.has, Bool.and_eq_true, decide_eq_true_iff, decide_eq_true_iff]; exact ⟨h1, h2⟩)

theorem safeBody_enc (p : Params) (hp : p.legal = true) (c : Codec) :
    SafeBody p .enc (fun w => encBody p c w.eng.latch.cnt.toNat 0 w) where
  within w w' _ := encBody_within _ _ _ _ _
  bounded w hw := encBody_bounded _ hp _ _ _ _ hw
  honest w := encBody_honest _ _ _ _ _
  twin {sr m1 m2 l w1 w2} ht hs := by
    rw [← ht.eng.latch, ht.latch]
    exact encBody_twin _ _ _ _ ht fun x h1 h2 => hs x (srcRegion_has .enc l x h1 (by simpa [srcRegion] using h2))

theorem safeBody_dec (p : Params) (hp : p.legal = true) (c : Codec) :
    SafeBody p .dec (fun w => (decBody p c w.eng.latch.cnt.toNat 0 w).bind fun _ w => strictCheck w) where
  within w w' h := by
    have := (startChecks_eq_ok _ _ _ _ _ h).2.2.2.2.2 rfl
    refine Within.bind (decBody_within _ _ _ _ _ (by omega)) fun _ w'' _ => ?_
    rw [strictCheck_after]; exact Within.refl _ _ _
  bounded w hw := Bounded.bind (decBody_bounded _ hp _ _ _ _ hw) fun _ w' _ h => by
    rw [strictCheck_after]; exact h
  honest w := (decBody_honest _ _ _ _ _).bind fun _ w => strictCheck_honest _
  twin {sr m1 m2 l w1 w2} ht hs := by
    rw [← ht.eng.latch, ht.latch]
    exact TwinRes.bind (decBody_twin (fun x h1 h2 => hs x (srcRegion_has .dec l x h1 h2)) _ _ _ _ ht)
      fun _ _ _ h => strictCheck_twin h

/-- Every command is `runCommand` over work that is safe. -/
theorem exec_eq_runCommand (i : Instr) : ∃ body : Params → Work → Res Unit,
    (∀ s, exec i s = runCommand true i.dir body s) ∧ ∀ p : Params, p.legal = true → SafeBody p i.dir (body p) := by
  have hi := instrOf_codec_dir i
  cases hd : i.dir with
  | enc =>
    rw [hd] at hi
    rw [← hi]
    exact ⟨_, exec_enc _, fun p hp => safeBody_enc p hp _⟩
  | dec =>
    rw [hd] at hi
    rw [← hi]
    exact ⟨_, exec_dec _, fun p hp => safeBody_dec p hp _⟩

/-! ### The raced completion (R72) -/

theorem completeRaced_frame (s : State) : CommandFrame s (completeRaced s) :=
  ⟨rfl, rfl, rfl, rfl, rfl, rfl, rfl⟩

theorem completeRaced_read_other (s : State) (a : Nat)
    (h : a < s.eng.latch.dst.toNat ∨ s.eng.latch.dst.toNat + s.eng.latch.cap.toNat ≤ a) :
    (completeRaced s).mem.read a = s.mem.read a := by
  refine Memory.read_scramble_other _ _ _ _ _ ?_
  simp only [dstBytes]; omega

theorem completeRaced_read_in (s : State) (hw : s.mem.wf = true) (j : Nat) (h1 : j < s.eng.latch.cap.toNat)
    (h2 : s.eng.latch.dst.toNat + j < s.params.memTop) :
    (completeRaced s).mem.read (s.eng.latch.dst.toNat + j) = Config.freeByte (s.draws + j) := by
  refine Memory.read_scramble_in _ _ _ _ _ hw ?_
  simp only [dstBytes]; omega

/-! ### The inversion lemma -/

/-- A command's completion `t`, from work `w` that kept its frame, with a code and an address (R70, R130). -/
structure Completion (d : Dir) (s t : State) (w : Work) (c : ErrCode) (a : Nat) : Prop where
  eq : t = complete d c a (withWork w s)
  ok : c = .ok → a = 0
  within : Within s.eng.latch.dst.toNat (s.eng.latch.dst.toNat + s.eng.latch.cap.toNat) ⟨s.eng, s.mem⟩ w
  bounded : Bounded ⟨s.eng, s.mem⟩ → Bounded w
  apart : w.mem = s.mem ∨ (pastTop s.params (dstRegion s.eng.latch) = false ∧
    (srcRegion d s.eng.latch).meets (dstRegion s.eng.latch) = false)

theorem Completion.frame {d : Dir} {s t : State} {w : Work} {c : ErrCode} {a : Nat} (h : Completion d s t w c a) :
    CommandFrame s t := by
  rw [h.eq]; exact ⟨rfl, h.within.latch, h.within.race, rfl, rfl, by simp [h.within.latch], rfl⟩

/-- Everything `runCommand` can do under legal parameters, over safe work: the raced completion, or its own. -/
theorem runCommand_completion (legal : Bool) (d : Dir) (body : Params → Work → Res Unit) (s : State)
    (hl : s.params.legal = true) (hb : legal = true → SafeBody s.params d (body s.params)) :
    (s.raced d = true ∧ runCommand legal d body s = .next (completeRaced s)) ∨
    (s.raced d = false ∧ ∃ t w c a, runCommand legal d body s = .next t ∧ Completion d s t w c a) := by
  rw [runCommand_eq _ _ _ _ hl]
  cases hr : s.raced d with
  | true => exact Or.inl ⟨rfl, rfl⟩
  | false =>
    refine Or.inr ⟨rfl, ?_⟩
    simp only [Bool.false_eq_true, if_false]
    have hs := startChecks_after s.params legal d ⟨s.eng, s.mem⟩
    have hsh := startChecks_honest s.params legal d ⟨s.eng, s.mem⟩
    cases hx : startChecks s.params legal d ⟨s.eng, s.mem⟩ with
    | raise c n w =>
      rw [hx] at hs hsh
      obtain rfl : w = ⟨s.eng, s.mem⟩ := hs
      exact ⟨_, _, c, n, rfl, rfl, fun hc => absurd (by rw [hc]) (hsh n _), Within.refl _ _ _, fun h => h, Or.inl rfl⟩
    | ok u w =>
      obtain ⟨rfl, rfl, -, hd, hm, -⟩ := startChecks_eq_ok _ _ _ _ _ hx
      have hsafe := hb rfl
      have h1 := hsafe.within _ _ hx
      have h2 := hsafe.bounded ⟨s.eng, s.mem⟩
      have h3 := hsafe.honest ⟨s.eng, s.mem⟩
      rw [Res.bind_ok]
      cases hy : body s.params ⟨s.eng, s.mem⟩ with
      | ok u w => rw [hy] at h1 h2; exact ⟨_, w, .ok, 0, rfl, rfl, fun _ => rfl, h1, h2, Or.inr ⟨hd, hm⟩⟩
      | raise c n w =>
        rw [hy] at h1 h2 h3
        exact ⟨_, w, c, n, rfl, rfl, fun hc => absurd (by rw [hc]) (h3 n w), h1, h2, Or.inr ⟨hd, hm⟩⟩

/-- Everything a command can do under legal parameters (R72, R130). -/
theorem exec_cases (i : Instr) (s : State) (hl : s.params.legal = true) :
    (s.raced i.dir = true ∧ exec i s = .next (completeRaced s)) ∨
    (s.raced i.dir = false ∧ ∃ t w c a, exec i s = .next t ∧ Completion i.dir s t w c a) := by
  obtain ⟨body, hb, hsafe⟩ := exec_eq_runCommand i
  rw [hb]
  exact runCommand_completion true i.dir body s hl fun _ => hsafe _ hl

/-- Under illegal parameters no command has a meaning (R10). -/
theorem exec_illegal_params (i : Instr) (s : State) (hl : s.params.legal = false) :
    exec i s = .refused .illegalParameters := by
  obtain ⟨body, hb, -⟩ := exec_eq_runCommand i
  simp [hb, runCommand, hl]

/-- The illegal command word ends by the same start checks (R92, R271). -/
theorem execIllegal_cases (s : State) (hl : s.params.legal = true) :
    (s.raced (dirOf (fetchCommand s)) = true ∧ execIllegal s = .next (completeRaced s)) ∨
    (s.raced (dirOf (fetchCommand s)) = false ∧
      ∃ t w c a, execIllegal s = .next t ∧ Completion (dirOf (fetchCommand s)) s t w c a) :=
  runCommand_completion false _ _ s hl fun h => by cases h

end Sys2Proof.Machine
end

