-- ==== Sys2Proof/Laws/PerInstr.lean ====
section
/-! SUPPORT. What holds of every command as syntax, one lemma per command (R91 to R94). -/

namespace Sys2Proof.Laws.CommandFields

/-- The command is well formed, its word is legal with RSVD = 0, the word's CODEC and DIR are the command's, and the word
selects it (R91, R92, R93). -/
def Statement (i : Instr) : Prop :=
  i.wellFormed = true ∧ (fieldsOf (encode i)).wellFormed = true ∧ rsvdField (encode i) = 0 ∧
    codecField (encode i) = codecNumber i.codec ∧ dirOf (encode i) = i.dir ∧
    codecOf (codecField (encode i)) = some i.codec ∧ (decode (encode i)).toOption = some i

theorem encLeb128 : Statement .encLeb128 := by unfold Statement; decide

theorem encPrefixVarint : Statement .encPrefixVarint := by unfold Statement; decide

theorem encLesqlite : Statement .encLesqlite := by unfold Statement; decide

theorem encLesqlite2 : Statement .encLesqlite2 := by unfold Statement; decide

theorem encNanolog : Statement .encNanolog := by unfold Statement; decide

theorem decLeb128 : Statement .decLeb128 := by unfold Statement; decide

theorem decPrefixVarint : Statement .decPrefixVarint := by unfold Statement; decide

theorem decLesqlite : Statement .decLesqlite := by unfold Statement; decide

theorem decLesqlite2 : Statement .decLesqlite2 := by unfold Statement; decide

theorem decNanolog : Statement .decNanolog := by unfold Statement; decide

end Sys2Proof.Laws.CommandFields
end

