-- ==== Sys2Proof/Laws/Step.lean ====
section
/-! SUPPORT. What a step is under legal parameters (R322), and what the host's operations do, each said once. -/

namespace Sys2Proof.Machine

/-- A step under legal parameters: the scheduled turn, or the default one (R322). -/
theorem step_eq (s : State) (hl : s.params.legal = true) :
    step s = (match s.turns with
      | [] => defaultTurn s
      | t :: rest => performTurn t { s with turns := rest }) := by
  have h : ¬ s.params.legal = false := by rw [hl]; decide
  exact if_neg h

/-- Only legal parameters take a step (R10). -/
theorem step_legal {s t : State} (h : step s = .next t) : s.params.legal = true := by
  by_contra hl
  simp only [Bool.not_eq_true] at hl
  simp only [step, takeTurn, hl, if_true] at h
  cases h

/-- Everything the engine's step can do: the raced completion, or its own (R72, R130). -/
theorem engineStep_cases (s : State) (hl : s.params.legal = true) : ∃ d,
    (s.raced d = true ∧ engineStep s = .next (completeRaced s)) ∨
    (s.raced d = false ∧ ∃ t w c a, engineStep s = .next t ∧ Completion d s t w c a) := by
  simp only [engineStep]
  cases decode (fetchCommand s) with
  | ok i => exact ⟨_, exec_cases i s hl⟩
  | error e => exact ⟨_, execIllegal_cases s hl⟩

/-- Every CSR is reached at its own address (R22, R23). -/
theorem csrReached_csrAddress (p : Params) (n : CsrName) : csrReached p (csrAddress p n) 64 = some n := by
  simp only [csrReached, csrAddress]
  rw [if_pos]
  · rw [Nat.add_sub_cancel_left]; cases n <;> decide
  · refine ⟨trivial, by omega, ?_⟩
    cases n <;> simp [csrOffset]

/-- A host variable reads back what it was set to, and the others are unchanged (R96). -/
theorem getVar_setVar (l : List (Nat × Word)) (t u : Nat) (v : Word) :
    getVar (setVar l t v) u = if u = t then v else getVar l u := by
  induction l with
  | nil => simp [setVar, getVar]
  | cons x rest ih =>
    obtain ⟨k, w⟩ := x
    simp only [setVar]
    split
    · simp [getVar]
    · split
      · next h => subst h; simp only [getVar]; split <;> rfl
      · next h1 h2 =>
        simp only [getVar, ih]
        by_cases hu : u = k
        · subst hu; rw [if_pos rfl, if_pos rfl, if_neg (by omega)]
        · rw [if_neg hu, if_neg hu]

/-- While the engine is idle a host write of a byte changes that byte alone (R72). -/
theorem memWrite_idle (a : Nat) (b : Byte) (s : State) (h : s.eng.phase = .idle) :
    memWrite a b s = { s with mem := s.mem.write a b } := by
  have : s.busy = false := by simp [State.busy, h]
  simp only [memWrite, this, Bool.false_and, Bool.or_false]

/-- A CSR write leaves memory, the parameters, the host and the turns alone (R21, R62). -/
theorem writeCsr_frame (n : CsrName) (v : Word) (s : State) :
    (writeCsr n v s).mem = s.mem ∧ (writeCsr n v s).params = s.params ∧ (writeCsr n v s).host = s.host ∧
      (writeCsr n v s).turns = s.turns ∧ (writeCsr n v s).draws = s.draws ∧ (writeCsr n v s).unseen = s.unseen := by
  cases n
  case cmd => simp only [writeCsr, writeCmd]; split <;> exact ⟨rfl, rfl, rfl, rfl, rfl, rfl⟩
  all_goals exact ⟨rfl, rfl, rfl, rfl, rfl, rfl⟩

/-- Which bytes the host may not rely on: the running command's destination, and the destinations of the commands
completed since the host last read DONE = 1 (R72, R74, R321 item 3). -/
theorem readIsFree_iff (s : State) (a : Nat) : readIsFree s a = true ↔
    (s.eng.phase = .run ∧ s.eng.latch.dst.toNat ≤ a ∧ a < s.eng.latch.dst.toNat + s.eng.latch.cap.toNat) ∨
      ∃ r ∈ s.unseen, r.base ≤ a ∧ a < r.base + r.size := by
  simp only [readIsFree, Bool.or_eq_true, Bool.and_eq_true, List.any_eq_true, Range.has_iff, State.busy,
    decide_eq_true_iff]
  rfl

/-- A host read of a byte it may not rely on draws a value (R72, R321 item 3). -/
theorem memRead_free {s : State} {a : Nat} (h : readIsFree s a = true) :
    memRead a s = { s with
      host := { s.host with rdata := BitVec.ofNat 64 (Config.freeByte s.draws).toNat }
      draws := s.draws + 1 } := if_pos h

/-- Every other host read returns the byte of memory (R60). -/
theorem memRead_stored {s : State} {a : Nat} (h : readIsFree s a = false) :
    memRead a s = { s with host := { s.host with rdata := BitVec.ofNat 64 (s.mem.read a).toNat } } :=
  if_neg (by rw [h]; decide)

/-- What a CSR read at a CSR's own address leaves unseen: nothing after a read of STATUS with DONE = 1 (R74). -/
theorem unseenAfterRead_csrAddress (s : State) (n : CsrName) :
    unseenAfterRead s (csrAddress s.params n) 64 = if n = .status ∧ s.csr.done = true then [] else s.unseen := by
  simp only [unseenAfterRead, acquires, csrReached_csrAddress, Option.some.injEq, Bool.and_eq_true, decide_eq_true_iff]

/-- After the host has read STATUS with DONE = 1 from an idle engine, it may rely on every byte (R74). -/
theorem readIsFree_after_done {s : State} (hd : s.csr.done = true) (hp : s.eng.phase = .idle) (a : Nat) :
    readIsFree (readCsr (csrAddress s.params .status) 64 s) a = false := by
  have hu : (readCsr (csrAddress s.params .status) 64 s).unseen = [] := by
    rw [readCsr_unseen, unseenAfterRead_csrAddress, if_pos ⟨rfl, hd⟩]
  rw [← Bool.not_eq_true, readIsFree_iff, hu, readCsr_eng, hp]
  simp

end Sys2Proof.Machine
end

