-- ==== Sys2Proof/Tests/Slice0.lean ====
section
/-! SUPPORT. The model's own tests: ill-formed terms are refused, words written out bit by bit decode, one step of every
command on vectors of 95_test_vectors.md, and for every obligation with hypotheses a witness that meets them. -/

namespace Sys2Proof.Tests

open Sys2Proof.Machine

-- One kernel evaluation at a time: the tests below would otherwise all be held in memory at once.
set_option Elab.async false

/-! ### Ill-formed terms are refused -/

theorem test_wf_reserved_bit_refused : CmdFields.wellFormed ⟨0, 0, 1⟩ = false := by decide

theorem test_wf_reserved_codec_refused :
    CmdFields.wellFormed ⟨5, 0, 0⟩ = false ∧ CmdFields.wellFormed ⟨15, 1, 0⟩ = false ∧
      CmdFields.wellFormed ⟨4, 1, 0⟩ = true := by decide

theorem test_wf_host_statements_refused :
    HostStmt.wellFormed (.memw 0 []) = false ∧ HostStmt.wellFormed (.memw64 0 []) = false ∧
      HostStmt.wellFormed (.bz 0 64 0) = false ∧ HostStmt.wellFormed (.bz 0 63 0) = true := by decide

/-- Each item of R192 broken in turn (row ranges and payloads, disjoint codes, 64-bit values, rising Max, last Max,
first payload), and no row at all. -/
theorem test_wf_tables_refused :
    tableLegal [] = false ∧
    tableLegal [⟨0, 240, 0⟩, ⟨241, 256, 1⟩, ⟨250, 250, 8⟩] = false ∧
    tableLegal [⟨3, 2, 0⟩, ⟨250, 250, 8⟩] = false ∧
    tableLegal [⟨0, 240, 0⟩, ⟨250, 250, 9⟩] = false ∧
    tableLegal [⟨0, 240, 0⟩, ⟨240, 240, 8⟩] = false ∧
    tableLegal [⟨0, 240, 0⟩, ⟨241, 242, 8⟩] = false ∧
    tableLegal [⟨0, 240, 0⟩, ⟨242, 242, 2⟩, ⟨243, 243, 1⟩, ⟨244, 244, 8⟩] = false ∧
    tableLegal [⟨0, 240, 0⟩, ⟨241, 241, 7⟩] = false ∧
    tableLegal [⟨0, 240, 1⟩, ⟨241, 241, 8⟩] = false := by decide

theorem test_wf_params_refused :
    Params.legal { Params.default with addrBits := 0 } = false ∧
    Params.legal { Params.default with addrBits := 65 } = false ∧
    Params.legal { Params.default with nanologPad := 16 } = false ∧
    Params.legal { Params.default with lesqliteTable := [] } = false ∧
    Params.legal { Params.default with lesqlite2Table := [] } = false ∧
    Params.legal { Params.default with addrBits := 1, nanologPad := 15 } = true := by decide

/-! ### Words, from the encoding of R91 (bits 3:0 CODEC, bit 4 DIR) -/

theorem test_decode_encLeb128 : decodeTableWord 64 0b0_0000 = some .encLeb128 := by decide

theorem test_decode_decLeb128 : decodeTableWord 64 0b1_0000 = some .decLeb128 := by decide

theorem test_decode_encPrefixVarint : decodeTableWord 64 0b0_0001 = some .encPrefixVarint := by decide

theorem test_decode_decPrefixVarint : decodeTableWord 64 0b1_0001 = some .decPrefixVarint := by decide

theorem test_decode_encLesqlite : decodeTableWord 64 0b0_0010 = some .encLesqlite := by decide

theorem test_decode_decLesqlite : decodeTableWord 64 0b1_0010 = some .decLesqlite := by decide

theorem test_decode_encLesqlite2 : decodeTableWord 64 0b0_0011 = some .encLesqlite2 := by decide

theorem test_decode_decLesqlite2 : decodeTableWord 64 0b1_0011 = some .decLesqlite2 := by decide

theorem test_decode_encNanolog : decodeTableWord 64 0b0_0100 = some .encNanolog := by decide

theorem test_decode_decNanolog : decodeTableWord 64 0b1_0100 = some .decNanolog := by decide

/-- The illegal words of the start-check vectors (95_test_vectors.md section 4). -/
theorem test_decode_illegal_words_refused :
    [0x05, 0x0F, 0x15, 0x20, 0x100000000, 0x8000000000000000].map (decodeTableWord 64)
      = [none, none, none, none, none, none] := by decide

/-! ### One step of every command -/

/-- An idle machine with CTRL.STRICT = `strict`, on which `accessible` answers, and with `bytes` from 0x1000 up. -/
def machine (accessible : List Range) (strict : Bool) (bytes : List Byte) : State :=
  State.powerOn { Params.default with accessible := accessible, strictReset := strict } (Memory.writeBytes [] 0x1000 bytes)

/-- Every address answers. -/
def everywhere : List Range := Params.default.accessible

/-- The machine above, its command of 0x1000 to 0x2000 accepted. -/
def started (i : Instr) (accessible : List Range) (strict : Bool) (bytes : List Byte) (slen cap cnt : Word) : State :=
  commanded i 0x1000 slen 0x2000 cap cnt (machine accessible strict bytes)

/-- ERR, RESULT_BYTES, RESULT_COUNT, ERR_ADDR and the `n` bytes at 0x2000 after one step. -/
def resultOf (n : Nat) (s : State) : Option (ErrCode × Word × Word × Word × List Byte) :=
  match step s with
  | .next t => some (t.csr.err, t.csr.resultBytes, t.csr.resultCount, t.csr.errAddr, t.mem.readBytes 0x2000 n)
  | _ => none

/-- 300, 300, 300 in six bytes (section 4). -/
theorem test_encLeb128 :
    resultOf 7 (started .encLeb128 everywhere true (elementBytes [300, 300, 300]) 0 6 3)
      = some (.ok, 6, 3, 0, [0xAC, 0x02, 0xAC, 0x02, 0xAC, 0x02, 0]) := by decide +kernel

/-- 300, 300, 300 does not fit in five bytes (section 4). -/
theorem test_encLeb128_too_small :
    resultOf 5 (started .encLeb128 everywhere true (elementBytes [300, 300, 300]) 0 5 3)
      = some (.bufferTooSmall, 4, 2, 0x2004, [0xAC, 0x02, 0xAC, 0x02, 0]) := by decide +kernel

/-- A tenth byte whose bits 6:1 are dropped (section 3). -/
theorem test_decLeb128 :
    resultOf 9 (started .decLeb128 everywhere true (List.replicate 9 0xFF ++ [0x7F]) 10 8 1)
      = some (.ok, 10, 1, 0, List.replicate 8 0xFF ++ [0]) := by decide +kernel

/-- A tenth byte with bit 7 set (section 3). -/
theorem test_decLeb128_malformed :
    resultOf 1 (started .decLeb128 everywhere true (List.replicate 10 0xFF ++ [0x01]) 11 8 1)
      = some (.malformedInput, 0, 0, 0x1009, [0]) := by decide +kernel

/-- 2^56 and 1 in ten bytes (section 4). -/
theorem test_encPrefixVarint :
    resultOf 11 (started .encPrefixVarint everywhere true (elementBytes [0x100000000000000, 1]) 0 10 2)
      = some (.ok, 10, 2, 0, [0xFF, 0, 0, 0, 0, 0, 0, 0, 1, 2, 0]) := by decide +kernel

/-- 2^14 - 1 and 2^14 (section 2). -/
theorem test_encPrefixVarint_tags :
    resultOf 6 (started .encPrefixVarint everywhere true (elementBytes [16383, 16384]) 0 32 2)
      = some (.ok, 5, 2, 0, [0xFD, 0xFF, 0x03, 0x00, 0x02, 0]) := by decide +kernel

/-- A tag longer than needed: 5 in nine bytes (section 3). -/
theorem test_decPrefixVarint :
    resultOf 8 (started .decPrefixVarint everywhere true [0xFF, 5, 0, 0, 0, 0, 0, 0, 0] 9 8 1)
      = some (.ok, 9, 1, 0, [5, 0, 0, 0, 0, 0, 0, 0]) := by decide +kernel

/-- A buffer that ends inside a group (section 3). -/
theorem test_decPrefixVarint_truncated :
    resultOf 1 (started .decPrefixVarint everywhere true [0xFF, 0, 0] 3 8 1)
      = some (.truncatedInput, 0, 0, 0x1003, [0]) := by decide +kernel

/-- 240, 241 and 300 (section 2). -/
theorem test_encLesqlite :
    resultOf 6 (started .encLesqlite everywhere true (elementBytes [240, 241, 300]) 0 48 3)
      = some (.ok, 5, 3, 0, [0xF0, 0xF1, 0xF1, 0xF2, 0x2C, 0]) := by decide +kernel

/-- 2^24 takes six bytes (section 4). -/
theorem test_encLesqlite_wide :
    resultOf 7 (started .encLesqlite everywhere true (elementBytes [16777216]) 0 6 1)
      = some (.ok, 6, 1, 0, [0xFB, 0, 0, 0, 1, 0, 0]) := by decide +kernel

/-- A group left over with STRICT (section 3). -/
theorem test_decLesqlite_count_mismatch :
    resultOf 16 (started .decLesqlite everywhere true [0xF2, 0x2C, 0x07, 0xFE] 4 16 2)
      = some (.countMismatch, 3, 2, 0x1003, [0x2C, 1, 0, 0, 0, 0, 0, 0, 7, 0, 0, 0, 0, 0, 0, 0]) := by decide +kernel

/-- A reserved first byte (section 3). -/
theorem test_decLesqlite_malformed :
    resultOf 9 (started .decLesqlite everywhere true [0x05, 0xFF] 2 16 2)
      = some (.malformedInput, 1, 1, 0x1001, [5, 0, 0, 0, 0, 0, 0, 0, 0]) := by decide +kernel

/-- 300, 12287 and 12288 (section 2). -/
theorem test_encLesqlite2 :
    resultOf 8 (started .encLesqlite2 everywhere true (elementBytes [300, 12287, 12288]) 0 48 3)
      = some (.ok, 7, 3, 0, [0xC1, 0x2C, 0xEF, 0xFF, 0xF0, 0x00, 0x30, 0]) := by decide +kernel

/-- 2^24 does not fit in four bytes (section 4). -/
theorem test_encLesqlite2_too_small :
    resultOf 1 (started .encLesqlite2 everywhere true (elementBytes [16777216]) 0 4 1)
      = some (.bufferTooSmall, 0, 0, 0x2000, [0]) := by decide +kernel

/-- 300 (section 3). -/
theorem test_decLesqlite2 :
    resultOf 9 (started .decLesqlite2 everywhere true [0xC1, 0x2C] 2 8 1)
      = some (.ok, 2, 1, 0, [0x2C, 1, 0, 0, 0, 0, 0, 0, 0]) := by decide +kernel

/-- A LESQLITE group read as LESQLITE2 (section 3). -/
theorem test_decLesqlite2_truncated :
    resultOf 1 (started .decLesqlite2 everywhere true [0xF2, 0x2C] 2 8 1)
      = some (.truncatedInput, 0, 0, 0x1002, [0]) := by decide +kernel

/-- A pair and a singleton (section 4). -/
theorem test_encNanolog :
    resultOf 6 (started .encNanolog everywhere true (elementBytes [1, 2, 3]) 0 5 3)
      = some (.ok, 5, 3, 0, [0x11, 1, 2, 0x10, 3, 0]) := by decide +kernel

/-- A pair whose values have different lengths (section 2). -/
theorem test_encNanolog_pair :
    resultOf 5 (started .encNanolog everywhere true (elementBytes [300, 5]) 0 32 2)
      = some (.ok, 4, 2, 0, [0x21, 0x2C, 0x01, 0x05, 0]) := by decide +kernel

/-- The low nibble of a singleton is ignored (section 3). -/
theorem test_decNanolog_single :
    resultOf 9 (started .decNanolog everywhere true [0x1F, 7] 2 8 1)
      = some (.ok, 2, 1, 0, [7, 0, 0, 0, 0, 0, 0, 0, 0]) := by decide +kernel

/-- A singleton read as a pair under a wrong count (section 3). -/
theorem test_decNanolog_wrong_count :
    resultOf 17 (started .decNanolog everywhere true [0x21, 0x2C, 1, 5, 0x50, 0, 0, 0, 0, 1] 10 32 4)
      = some (.malformedInput, 4, 2, 0x1004, [0x2C, 1, 0, 0, 0, 0, 0, 0, 5, 0, 0, 0, 0, 0, 0, 0, 0]) := by
  decide +kernel

/-- The illegal word 0x05 as the first word after reset. -/
theorem test_illegal_word : resultOf 1 (State.reset.withFetchWord 64 0x05) = some (.badCommand, 0, 0, 0, [0]) := by
  decide +kernel

/-- Reset memory has the canonical form. -/
theorem test_reset_memory_wf : State.reset.mem.wf = true := by decide

/-! ### Witnesses: how a concrete state meets the hypotheses -/

/-- `Startable` as a check. -/
def startableCheck (d : Dir) (s : State) : Bool :=
  s.params.legal && !s.raced d && decide (s.eng.rc = 0) && decide (s.eng.wc = 0) && decide (s.eng.ei = 0)
    && !pastTop s.params (srcRegion d s.eng.latch) && !pastTop s.params (dstRegion s.eng.latch)
    && !(srcRegion d s.eng.latch).meets (dstRegion s.eng.latch)
    && (decide (d = .enc) || decide (8 * s.eng.latch.cnt.toNat ≤ s.eng.latch.cap.toNat))

theorem startable_of_check {d : Dir} {s : State} (h : startableCheck d s = true) : Startable d s := by
  simp only [startableCheck, Bool.and_eq_true, Bool.not_eq_true', decide_eq_true_eq, Bool.or_eq_true] at h
  obtain ⟨⟨⟨⟨⟨⟨⟨⟨h1, h2⟩, h3⟩, h4⟩, h5⟩, h6⟩, h7⟩, h8⟩, h9⟩ := h
  exact ⟨h1, h2, ⟨h3, h4, h5⟩, h6, h7, h8, fun hd => h9.resolve_left (by rw [hd]; decide)⟩

theorem allAccessible_of_check {p : Params} {a n : Nat}
    (h : (List.range n).all (fun j => p.accessibleAt (a + j)) = true) : AllAccessible p a n :=
  fun j hj => List.all_eq_true.1 h j (List.mem_range.2 hj)

/-- `SourceStarts` as a check. -/
def sourceStartsCheck (s : State) (bs : List Byte) : Bool :=
  decide (bs.length ≤ s.eng.latch.slen.toNat)
    && (List.range bs.length).all (fun j => s.params.accessibleAt (s.eng.latch.src.toNat + j))
    && decide (s.mem.readBytes s.eng.latch.src.toNat bs.length = bs)

theorem sourceStarts_of_check {s : State} {bs : List Byte} (h : sourceStartsCheck s bs = true) : SourceStarts s bs := by
  simp only [sourceStartsCheck, Bool.and_eq_true, decide_eq_true_eq] at h
  exact ⟨h.1.1, allAccessible_of_check h.1.2, h.2⟩

/-- `SourceHas` as a check. -/
def sourceHasCheck (p : Params) (bs : List Byte) (w : Work) : Bool :=
  decide (w.eng.p.toNat + bs.length ≤ w.eng.latch.slen.toNat)
    && (List.range bs.length).all (fun j => p.accessibleAt (w.eng.latch.src.toNat + w.eng.p.toNat + j))
    && decide (w.mem.readBytes (w.eng.latch.src.toNat + w.eng.p.toNat) bs.length = bs)

theorem sourceHas_of_check {p : Params} {bs : List Byte} {w : Work} (h : sourceHasCheck p bs w = true) :
    SourceHas p bs w := by
  simp only [sourceHasCheck, Bool.and_eq_true, decide_eq_true_eq] at h
  exact ⟨h.1.1, allAccessible_of_check h.1.2, h.2⟩

/-- A loop over one element meets the buffers below. -/
theorem buffer_one {p : Params} {c : Codec} {g : List Byte} {v : Word} (h : ElementGroup p c g v) : Buffer p c g [v] := by
  have := Buffer.element c g [] v [] h (Buffer.nil c)
  rwa [List.append_nil] at this

/-- Every address answers but this one. -/
def allBut (a : Nat) : List Range := [⟨0, a⟩, ⟨a + 1, 2 ^ 64⟩]

/-- A running machine on which a command has three elements to encode. -/
def enc3 (i : Instr) : State := started i everywhere true (elementBytes [300, 5, 0x100000000]) 0 48 3

/-- The canonical buffer of three elements. -/
def buffer3 (c : Codec) : List Byte := canonicalBuffer (machine everywhere true []).params c [300, 5, 0x100000000]

/-- A running machine on which a command has three elements to decode. -/
def dec3 (i : Instr) (strict : Bool) : State :=
  started i everywhere strict (buffer3 i.codec) (BitVec.ofNat 64 (buffer3 i.codec).length) 24 3

/-! ### Witnesses: decoding, parameters, CSRs -/

theorem witness_DecodeAndEncodeAgree :
    decode 0x13 = .ok .decLesqlite2 ∧ (0x13 : Word).toNat / 32 = 0 ∧ (0x13 : Word).toNat % 16 ≤ 4 := ⟨rfl, by decide, by decide⟩

theorem witness_StepRunsDecodedCommand (i : Instr) :
    (enc3 i).params.legal = true ∧ (enc3 i).eng.phase = .run ∧ decode (fetchCommand (enc3 i)) = .ok i ∧
      (enc3 i).turns = [] ∧ { enc3 i with turns := [.engine, .host] }.turns = .engine :: [.host] := by
  cases i <;> exact ⟨by decide +kernel, rfl, rfl, rfl, rfl⟩

theorem witness_IllegalWordEndsBadCommand (w : Nat) (hw : w ∈ [0x20, 0x8000000000000000, 0x05, 0x0F, 0x15]) :
    let s := State.reset.withFetchWord 64 w
    s.params.legal = true ∧ s.eng.phase = .run ∧ s.turns = [] ∧ Fresh s.eng ∧ s.raced (dirOf (fetchCommand s)) = false ∧
      ((fetchCommand s).toNat / 32 ≠ 0 ∨ 5 ≤ (fetchCommand s).toNat % 16) := by
  simp only [List.mem_cons, List.not_mem_nil, or_false] at hw
  rcases hw with rfl | rfl | rfl | rfl | rfl <;>
    exact ⟨by decide +kernel, rfl, rfl, ⟨rfl, rfl, rfl⟩, by decide +kernel, by decide +kernel⟩

theorem witness_IllegalParametersRefused :
    { State.reset with params := { Params.default with addrBits := 65 } }.params.legal = false := by decide +kernel

theorem witness_CsrAccessRule :
    (64 = 64 ∧ 0x58 = State.reset.params.csrBase + csrOffset .errAddr) ∧
    (∀ aw ∈ [(0x00, 32), (0x04, 64), (0x60, 64), (0xFF, 64)],
      State.reset.params.csrBase ≤ aw.1 ∧ aw.1 < State.reset.params.csrBase + 256 ∧
        (aw.2 ≠ 64 ∨ ∀ n ∈ csrNames, aw.1 ≠ State.reset.params.csrBase + csrOffset n)) := by decide

theorem witness_OperandCsrReadsBack (n : CsrName) (hn : n ∈ [CsrName.srcAddr, .srcLen, .dstAddr, .dstCap, .count]) :
    (n = .srcAddr ∨ n = .srcLen ∨ n = .dstAddr ∨ n = .dstCap ∨ n = .count) ∧ CsrName.cmd ≠ n := by
  simp only [List.mem_cons, List.not_mem_nil, or_false] at hn
  refine ⟨hn, ?_⟩
  rcases hn with rfl | rfl | rfl | rfl | rfl <;> decide

theorem witness_StatusWordFields : 3 ≤ 3 ∧ 3 ≤ 7 ∧ 3 ≤ 7 ∧ 7 ≤ 7 ∧ 16 ≤ 16 ∧ 16 ≤ 63 := by decide

theorem witness_StatusWriteOneToClear : CsrName.ctrl ≠ .status := by decide

theorem witness_CtrlWriteKeepsTwoBits : CsrName.status ≠ .ctrl := by decide

theorem witness_AcceptedCmdWrite : State.reset.eng.phase = .idle := rfl

theorem witness_DroppedCmdWrite : (enc3 .encLeb128).eng.phase = .run := rfl

theorem witness_InterruptLevel :
    BitVec.getLsbD (2 : Word) 1 = true ∧ State.reset.eng.phase = .idle ∧ BitVec.getLsbD (2 : Word) 0 = false ∧
      BitVec.getLsbD (1 : Word) 0 = true ∧ (enc3 .encLeb128).eng.phase = .run :=
  ⟨by decide, rfl, by decide, by decide, rfl⟩

theorem witness_ResetValues :
    (CsrName.cmd ≠ .id ∧ CsrName.cmd ≠ .ctrl) ∧ (0x60 ≤ 0x60 ∧ 0x60 ≤ 0xF8) ∧ (0x60 ≤ 0xF8 ∧ 0xF8 ≤ 0xF8) := by decide

theorem witness_ResetStep :
    (State.reset.params.legal = true ∧ { State.reset with turns := [.reset] }.turns = .reset :: [] ∧
      State.reset.eng.phase = .idle) ∧
    (let s := { enc3 .encLeb128 with turns := [.reset] }
    s.params.legal = true ∧ s.turns = .reset :: [] ∧ s.eng.phase = .run ∧ 0x1FFF < s.eng.latch.dst.toNat ∧
      s.eng.latch.dst.toNat + s.eng.latch.cap.toNat ≤ 0x2030 ∧ s.mem.wf = true ∧ 47 < s.eng.latch.cap.toNat ∧
      s.eng.latch.dst.toNat + 47 < s.params.memTop) := by decide +kernel

/-! ### Witnesses: memory and groups -/

theorem witness_MemoryReadAfterWrite : Memory.wf [(0x1000, 1), (0x1001, 2)] = true := by decide

theorem witness_ElementLayout : Memory.wf [(0x1003, 9)] = true ∧ 7 < 8 ∧ 1 < [(300 : Word), 5].length := by decide

theorem witness_BytesAndLittleEndianInverse : 65535 < 2 ^ (8 * 2) ∧ 1 < 2 := by decide

theorem witness_TrailingOnesOfByte : 2 < trailingOnes8 0x37 := by decide

theorem witness_NibblesPackAndUnpack : 15 ≤ 15 ∧ 0 ≤ 15 := by decide

theorem witness_Leb128GroupBytes :
    1 ≤ 1 ∧ 1 < (encGroupLeb128 300).length ∧ 1 < (encGroupLeb128 300).length := by decide +kernel

theorem witness_Leb128AloneHasTenByteGroups : Params.default.legal = true ∧ Codec.nanolog ≠ .leb128 := by decide +kernel

theorem witness_PrefixVarintGroupBytes :
    (0xFFFFFFFFFFFFFF : Word).toNat < 2 ^ 56 ∧ 2 ^ 56 ≤ (0x100000000000000 : Word).toNat ∧ 1 ≤ 7 ∧
      7 < (encGroupPrefixVarint 0xFFFFFFFFFFFFFF).length := by decide +kernel

theorem witness_PrefixVarintNeverLongerThanLeb128 :
    (0x7FFFFFFFFFFFFFFF : Word).toNat < 2 ^ 63 ∧ 2 ^ 63 ≤ (0x8000000000000000 : Word).toNat := by decide

theorem witness_BucketGroupBytes : tableLegal lesqliteDefault = true ∧ tableLegal lesqlite2Default = true := by decide

theorem witness_NanologGroupBytes : 15 ≤ 15 ∧ 0 ≤ 15 := by decide

theorem witness_CanonicalGroupsReadBack :
    let s (i : Instr) := started i everywhere true (canonicalGroup Params.default i.codec 300) 2 8 1
    (s .decLeb128).params.legal = true ∧ tableLegal lesqliteDefault = true ∧
      SourceHas (s .decLeb128).params (encGroupLeb128 300) ⟨(s .decLeb128).eng, (s .decLeb128).mem⟩ ∧
      SourceHas (s .decPrefixVarint).params (encGroupPrefixVarint 300)
        ⟨(s .decPrefixVarint).eng, (s .decPrefixVarint).mem⟩ ∧
      SourceHas (s .decLesqlite).params (encGroupBucket lesqliteDefault 300)
        ⟨(s .decLesqlite).eng, (s .decLesqlite).mem⟩ :=
  ⟨by decide +kernel, by decide, sourceHas_of_check (by decide +kernel), sourceHas_of_check (by decide +kernel),
    sourceHas_of_check (by decide +kernel)⟩

theorem witness_CanonicalBufferBounds : Params.default.legal = true ∧ Codec.lesqlite ≠ .leb128 := by decide +kernel

/-! ### Witnesses: commands that complete -/

theorem witness_EncodeCompletes (i : Instr) (hi : i.dir = .enc) :
    let s := enc3 i
    let l := s.eng.latch
    let out := canonicalBuffer s.params i.codec (elementsFrom s.mem l.src.toNat 0 l.cnt.toNat)
    Startable .enc s ∧ AllAccessible s.params l.src.toNat (8 * l.cnt.toNat) ∧ out.length ≤ l.cap.toNat ∧
      AllAccessible s.params l.dst.toNat out.length := by
  cases i <;> first
    | exact absurd hi (by decide)
    | exact ⟨startable_of_check (by decide +kernel), allAccessible_of_check (by decide +kernel), by decide +kernel,
        allAccessible_of_check (by decide +kernel)⟩

theorem witness_DecodeCompletes (i : Instr) (hi : i.dir = .dec) (strict : Bool) :
    let s := dec3 i strict
    Startable .dec s ∧ Buffer s.params i.codec (buffer3 i.codec) [300, 5, 0x100000000] ∧
      [(300 : Word), 5, 0x100000000].length = s.eng.latch.cnt.toNat ∧ SourceStarts s (buffer3 i.codec) ∧
      (s.eng.latch.strict = true → (buffer3 i.codec).length = s.eng.latch.slen.toNat) ∧
      AllAccessible s.params s.eng.latch.dst.toNat (8 * [(300 : Word), 5, 0x100000000].length) := by
  cases i <;> first
    | exact absurd hi (by decide)
    | exact ⟨startable_of_check (by cases strict <;> decide +kernel),
        by cases strict <;> exact canonical_buffer (dec3 _ _).params (by decide +kernel) _ _, rfl,
        sourceStarts_of_check (by cases strict <;> decide +kernel), by cases strict <;> decide +kernel,
        allAccessible_of_check (by cases strict <;> decide +kernel)⟩

/-- The hypotheses of the round trip as a check, but for the accessible bytes. -/
def roundTripCheck (c : Codec) (s : State) (a b d n cap cap' : Word) : Bool :=
  let m := (canonicalBuffer s.params c (elementsFrom s.mem a.toNat 0 n.toNat)).length
  let inside := fun (base size : Nat) => decide (0 < size → base + size ≤ 2 ^ s.params.addrBits)
  let apart := fun (x xs y ys : Nat) => decide (¬ (0 < xs ∧ 0 < ys ∧ x < y + ys ∧ y < x + xs))
  s.params.legal && decide (s.eng.phase = .idle) && decide (s.turns = []) && s.mem.wf && decide (m ≤ cap.toNat)
    && decide (8 * n.toNat ≤ cap'.toNat) && inside a.toNat (8 * n.toNat) && inside b.toNat cap.toNat
    && inside d.toNat cap'.toNat && apart a.toNat (8 * n.toNat) b.toNat cap.toNat && apart b.toNat m d.toNat cap'.toNat
    && s.params.sideEffects.all (fun r => apart r.base r.size a.toNat (8 * n.toNat)
      && apart r.base r.size b.toNat cap.toNat && apart r.base r.size d.toNat cap'.toNat)

/-- Three elements, beside a device that touches the last region without sharing a byte with it. -/
theorem witness_RoundTrip (c : Codec) :
    let s := { machine everywhere true (elementBytes [300, 5, 0x100000000]) with
      params := { Params.default with sideEffects := [⟨0x3018, 8⟩] } }
    let m := (canonicalBuffer s.params c (elementsFrom s.mem 0x1000 0 3)).length
    roundTripCheck c s 0x1000 0x2000 0x3000 3 0x1000 24 = true ∧ AllAccessible s.params 0x1000 (8 * 3) ∧
      AllAccessible s.params 0x2000 m ∧ AllAccessible s.params 0x3000 (8 * 3) := by
  cases c <;> exact ⟨by decide +kernel, allAccessible_of_check (by decide +kernel),
    allAccessible_of_check (by decide +kernel), allAccessible_of_check (by decide +kernel)⟩

/-- No element, its place inside the buffer's region, and the buffer's place inside the destination's. -/
theorem witness_RoundTrip_empty (c : Codec) :
    roundTripCheck c (machine everywhere true []) 0x2004 0x2000 0x1FFC 0 16 8 = true := by
  cases c <;> decide +kernel

/-! ### Witnesses: start checks (rows of 95_test_vectors.md section 4) -/

/-- The hypotheses of the start-check statement but for the region arithmetic. -/
def beforeChecks (i : Instr) (s : State) : Prop := s.params.legal = true ∧ s.raced i.dir = false ∧ Fresh s.eng

theorem witness_StartChecksInOrder_source_past_top :
    let s := commanded .encLeb128 0xFFFFFFFFFFFFFFF8 0 0x1000 16 2 (machine everywhere true [])
    beforeChecks .encLeb128 s ∧ 0 < 8 * s.eng.latch.cnt.toNat ∧
      2 ^ s.params.addrBits < s.eng.latch.src.toNat + 8 * s.eng.latch.cnt.toNat :=
  ⟨⟨by decide +kernel, by decide +kernel, rfl, rfl, rfl⟩, by decide +kernel, by decide +kernel⟩

theorem witness_StartChecksInOrder_destination_past_top :
    let s := commanded .decLeb128 0x1000 4 0xFFFFFFFFFFFFFFF8 16 1 (machine everywhere true [])
    beforeChecks .decLeb128 s ∧ ¬ (2 ^ s.params.addrBits < s.eng.latch.src.toNat + s.eng.latch.slen.toNat) ∧
      0 < s.eng.latch.cap.toNat ∧ 2 ^ s.params.addrBits < s.eng.latch.dst.toNat + s.eng.latch.cap.toNat :=
  ⟨⟨by decide +kernel, by decide +kernel, rfl, rfl, rfl⟩, by decide +kernel, by decide +kernel, by decide +kernel⟩

theorem witness_StartChecksInOrder_overlap :
    let s := commanded .encLeb128 0x1000 0 0x100F 1 2 (machine everywhere true [])
    let l := s.eng.latch
    beforeChecks .encLeb128 s ∧ ¬ (2 ^ s.params.addrBits < l.src.toNat + 8 * l.cnt.toNat) ∧
      ¬ (2 ^ s.params.addrBits < l.dst.toNat + l.cap.toNat) ∧ 0 < 8 * l.cnt.toNat ∧ 0 < l.cap.toNat ∧
      l.src.toNat < l.dst.toNat + l.cap.toNat ∧ l.dst.toNat < l.src.toNat + 8 * l.cnt.toNat :=
  ⟨⟨by decide +kernel, by decide +kernel, rfl, rfl, rfl⟩, by decide +kernel, by decide +kernel, by decide +kernel,
    by decide +kernel, by decide +kernel, by decide +kernel⟩

theorem witness_StartChecksInOrder_no_room :
    let s := commanded .decLeb128 0x1000 4 0x2000 23 3 (machine everywhere true [])
    let l := s.eng.latch
    beforeChecks .decLeb128 s ∧ ¬ (2 ^ s.params.addrBits < l.src.toNat + l.slen.toNat) ∧
      ¬ (2 ^ s.params.addrBits < l.dst.toNat + l.cap.toNat) ∧ ¬ (l.dst.toNat < l.src.toNat + l.slen.toNat) ∧
      l.cap.toNat < 8 * l.cnt.toNat :=
  ⟨⟨by decide +kernel, by decide +kernel, rfl, rfl, rfl⟩, by decide +kernel, by decide +kernel, by decide +kernel,
    by decide +kernel⟩

/-- Regions that touch without sharing a byte pass. -/
theorem witness_StartChecksInOrder_touching :
    let s := commanded .encLeb128 0x1000 0 0x1010 1 2 (machine everywhere true [])
    let l := s.eng.latch
    beforeChecks .encLeb128 s ∧ ¬ (2 ^ s.params.addrBits < l.src.toNat + 8 * l.cnt.toNat) ∧
      ¬ (2 ^ s.params.addrBits < l.dst.toNat + l.cap.toNat) ∧ ¬ (l.dst.toNat < l.src.toNat + 8 * l.cnt.toNat) :=
  ⟨⟨by decide +kernel, by decide +kernel, rfl, rfl, rfl⟩, by decide +kernel, by decide +kernel, by decide +kernel⟩

/-! ### Witnesses: errors (rows of 95_test_vectors.md sections 3 to 5) -/

theorem witness_EncodeBufferTooSmall :
    (let s := started .encLeb128 everywhere true (elementBytes [300, 300, 300]) 0 5 3
    Startable .enc s ∧ 2 < s.eng.latch.cnt.toNat ∧
      AllAccessible s.params 0x1000 (8 * (2 + groupElements .leb128 (3 - 2))) ∧
      (canonicalBuffer s.params .leb128 (elementsFrom s.mem 0x1000 0 2)).length = 4 ∧ 4 ≤ s.eng.latch.cap.toNat ∧
      AllAccessible s.params 0x2000 4 ∧
      s.eng.latch.cap.toNat < 4 + (firstGroup s.params .leb128 (elementsFrom s.mem 0x1000 2 (3 - 2))).length) ∧
    (let s := started .encNanolog everywhere true (elementBytes [1, 2, 3]) 0 4 3
    Startable .enc s ∧ 2 < s.eng.latch.cnt.toNat ∧ 2 % 2 = 0 ∧
      AllAccessible s.params 0x1000 (8 * (2 + groupElements .nanolog (3 - 2))) ∧
      (canonicalBuffer s.params .nanolog (elementsFrom s.mem 0x1000 0 2)).length = 3 ∧ 3 ≤ s.eng.latch.cap.toNat ∧
      AllAccessible s.params 0x2000 3 ∧
      s.eng.latch.cap.toNat < 3 + (firstGroup s.params .nanolog (elementsFrom s.mem 0x1000 2 (3 - 2))).length) :=
  ⟨⟨startable_of_check (by decide +kernel), by decide +kernel, allAccessible_of_check (by decide +kernel),
    by decide +kernel, by decide +kernel, allAccessible_of_check (by decide +kernel), by decide +kernel⟩,
   ⟨startable_of_check (by decide +kernel), by decide +kernel, by decide, allAccessible_of_check (by decide +kernel),
    by decide +kernel, by decide +kernel, allAccessible_of_check (by decide +kernel), by decide +kernel⟩⟩

theorem witness_EncodeBusErrorOnWrite :
    let s := started .encLeb128 (allBut 0x2005) true (elementBytes [300, 300, 300]) 0 6 3
    Startable .enc s ∧ 2 < s.eng.latch.cnt.toNat ∧
      AllAccessible s.params 0x1000 (8 * (2 + groupElements .leb128 (3 - 2))) ∧
      (canonicalBuffer s.params .leb128 (elementsFrom s.mem 0x1000 0 2)).length = 4 ∧
      4 + (firstGroup s.params .leb128 (elementsFrom s.mem 0x1000 2 (3 - 2))).length ≤ s.eng.latch.cap.toNat ∧
      1 < (firstGroup s.params .leb128 (elementsFrom s.mem 0x1000 2 (3 - 2))).length ∧
      AllAccessible s.params 0x2000 (4 + 1) ∧ s.params.accessibleAt (0x2000 + 4 + 1) = false :=
  ⟨startable_of_check (by decide +kernel), by decide +kernel, allAccessible_of_check (by decide +kernel),
    by decide +kernel, by decide +kernel, by decide +kernel, allAccessible_of_check (by decide +kernel),
    by decide +kernel⟩

theorem witness_EncodeBusErrorOnRead :
    let s := started .encLeb128 (allBut 0x1009) true (elementBytes [300, 300, 300]) 0 6 3
    Startable .enc s ∧ 1 < s.eng.latch.cnt.toNat ∧ 1 < 8 * groupElements .leb128 (3 - 1) ∧
      AllAccessible s.params 0x1000 (8 * 1 + 1) ∧ s.params.accessibleAt (0x1000 + 8 * 1 + 1) = false ∧
      (canonicalBuffer s.params .leb128 (elementsFrom s.mem 0x1000 0 1)).length = 2 ∧ 2 ≤ s.eng.latch.cap.toNat ∧
      AllAccessible s.params 0x2000 2 :=
  ⟨startable_of_check (by decide +kernel), by decide +kernel, by decide, allAccessible_of_check (by decide +kernel),
    by decide +kernel, by decide +kernel, by decide +kernel, allAccessible_of_check (by decide +kernel)⟩

/-- The hypotheses that the failing decodes share, on these first bytes and elements. -/
def decodesUpTo (i : Instr) (s : State) (bs part : List Byte) (vs : List Word) : Prop :=
  Startable .dec s ∧ Buffer s.params i.codec bs vs ∧ MoreToDecode i.codec s vs ∧ SourceStarts s (bs ++ part) ∧
    AllAccessible s.params s.eng.latch.dst.toNat (8 * vs.length)

/-- A buffer that ends inside a group: in every codec. -/
theorem witness_DecodeTruncated_inside :
    (let s := started .decLeb128 everywhere true [0x80] 1 8 1
    decodesUpTo .decLeb128 s [] [0x80] [] ∧ Incomplete s.params .leb128 (lastAfter s 0) [0x80] ∧
      0 + [(0x80 : Byte)].length = s.eng.latch.slen.toNat) ∧
    (let s := started .decPrefixVarint everywhere true [0xFF, 0, 0] 3 8 1
    decodesUpTo .decPrefixVarint s [] [0xFF, 0, 0] [] ∧ Incomplete s.params .prefixVarint (lastAfter s 0) [0xFF, 0, 0]) ∧
    (let s := started .decLesqlite everywhere true [0xFA, 0, 0] 3 8 1
    decodesUpTo .decLesqlite s [] [0xFA, 0, 0] [] ∧ Incomplete s.params .lesqlite (lastAfter s 0) [0xFA, 0, 0]) ∧
    (let s := started .decLesqlite2 everywhere true [0xF2, 0x2C] 2 8 1
    decodesUpTo .decLesqlite2 s [] [0xF2, 0x2C] [] ∧ Incomplete s.params .lesqlite2 (lastAfter s 0) [0xF2, 0x2C]) ∧
    (let s := started .decNanolog everywhere true [0x11, 5] 2 16 2
    decodesUpTo .decNanolog s [] [0x11, 5] [] ∧ Incomplete s.params .nanolog (lastAfter s 0) [0x11, 5]) := by
  have up : ∀ (i : Instr) (s : State) (part : List Byte), startableCheck .dec s = true → 0 < s.eng.latch.cnt.toNat →
      sourceStartsCheck s part = true → decodesUpTo i s [] part [] := fun i s part h1 h2 h3 =>
    ⟨startable_of_check h1, Buffer.nil _, ⟨h2, fun _ => rfl⟩, sourceStarts_of_check h3, fun j hj => absurd hj (Nat.not_lt_zero j)⟩
  refine ⟨⟨up _ _ _ (by decide +kernel) (by decide +kernel) (by decide +kernel), ⟨by decide, by decide⟩, rfl⟩,
    ⟨up _ _ _ (by decide +kernel) (by decide +kernel) (by decide +kernel), ?_⟩,
    ⟨up _ _ _ (by decide +kernel) (by decide +kernel) (by decide +kernel), ⟨⟨250, 250, 3⟩, rfl, by decide⟩⟩,
    ⟨up _ _ _ (by decide +kernel) (by decide +kernel) (by decide +kernel), ⟨⟨240, 247, 2⟩, rfl, by decide⟩⟩,
    ⟨up _ _ _ (by decide +kernel) (by decide +kernel) (by decide +kernel), ?_⟩⟩
  · show [(0 : Byte), 0].length < trailingOnes8 0xFF
    decide
  · refine ⟨by unfold badNibble; decide, ?_⟩
    rw [if_neg (by decide +kernel)]
    exact ⟨by unfold badNibble; decide, by decide⟩

/-- A buffer that ends before a group. -/
theorem witness_DecodeTruncated_between :
    let s := started .decLeb128 everywhere true [0x01] 1 16 2
    decodesUpTo .decLeb128 s [0x01] [] [1] ∧ Incomplete s.params .leb128 (lastAfter s 1) [] ∧
      [(0x01 : Byte)].length + 0 = s.eng.latch.slen.toNat := by
  refine ⟨⟨startable_of_check (by decide +kernel), buffer_one ⟨by unfold leb128Chained; decide, by decide, by decide⟩,
    ⟨by decide +kernel, fun h => by cases h⟩, sourceStarts_of_check (by decide +kernel),
    allAccessible_of_check (by decide +kernel)⟩, ⟨by decide, by simp⟩, rfl⟩

theorem witness_DecodeBusErrorOnRead :
    let s := started .decLeb128 (allBut 0x1001) true [0x80, 0x01] 2 8 1
    decodesUpTo .decLeb128 s [] [0x80] [] ∧ Incomplete s.params .leb128 (lastAfter s 0) [0x80] ∧
      0 + [(0x80 : Byte)].length < s.eng.latch.slen.toNat ∧
      s.params.accessibleAt (s.eng.latch.src.toNat + 0 + [(0x80 : Byte)].length) = false :=
  ⟨⟨startable_of_check (by decide +kernel), Buffer.nil _, ⟨by decide +kernel, fun _ => rfl⟩,
    sourceStarts_of_check (by decide +kernel), fun j hj => absurd hj (Nat.not_lt_zero j)⟩, ⟨by decide, by decide⟩,
    by decide +kernel, by decide +kernel⟩

/-- Every malformed form of R276. -/
theorem witness_DecodeMalformed :
    (let s := started .decLeb128 everywhere true (List.replicate 10 0xFF) 10 8 1
    decodesUpTo .decLeb128 s [] (List.replicate 10 0xFF) [] ∧
      Malformed s.params .leb128 (lastAfter s 0) (List.replicate 10 0xFF)) ∧
    (let s := started .decLesqlite everywhere true [0xFE] 1 8 1
    decodesUpTo .decLesqlite s [] [0xFE] [] ∧ Malformed s.params .lesqlite (lastAfter s 0) [0xFE]) ∧
    (let s := started .decLesqlite2 everywhere true [0xFF] 1 8 1
    decodesUpTo .decLesqlite2 s [] [0xFF] [] ∧ Malformed s.params .lesqlite2 (lastAfter s 0) [0xFF]) ∧
    (let s := started .decNanolog everywhere true [0x1F, 7, 0] 3 16 2
    decodesUpTo .decNanolog s [] [0x1F] [] ∧ Malformed s.params .nanolog (lastAfter s 0) [0x1F]) ∧
    (let s := started .decNanolog everywhere true [0x00] 1 8 1
    decodesUpTo .decNanolog s [] [0x00] [] ∧ Malformed s.params .nanolog (lastAfter s 0) [0x00]) := by
  have up : ∀ (i : Instr) (s : State) (part : List Byte), startableCheck .dec s = true → 0 < s.eng.latch.cnt.toNat →
      sourceStartsCheck s part = true → decodesUpTo i s [] part [] := fun i s part h1 h2 h3 =>
    ⟨startable_of_check h1, Buffer.nil _, ⟨h2, fun _ => rfl⟩, sourceStarts_of_check h3, fun j hj => absurd hj (Nat.not_lt_zero j)⟩
  exact ⟨⟨up _ _ _ (by decide +kernel) (by decide +kernel) (by decide +kernel), by decide, by decide⟩,
    ⟨up _ _ _ (by decide +kernel) (by decide +kernel) (by decide +kernel), 0xFE, rfl, by decide⟩,
    ⟨up _ _ _ (by decide +kernel) (by decide +kernel) (by decide +kernel), 0xFF, rfl, by decide⟩,
    ⟨up _ _ _ (by decide +kernel) (by decide +kernel) (by decide +kernel), 0x1F, rfl, Or.inr
      ⟨by decide +kernel, by unfold badNibble; decide⟩⟩,
    ⟨up _ _ _ (by decide +kernel) (by decide +kernel) (by decide +kernel), 0x00, rfl, Or.inl
      (by unfold badNibble; decide)⟩⟩

theorem witness_DecodeBusErrorOnWrite :
    let s := started .decLeb128 (allBut 0x200B) true [0xAC, 0x02, 0x05] 3 16 2
    Startable .dec s ∧ Buffer s.params .leb128 [0xAC, 0x02] [300] ∧ MoreToDecode .leb128 s [300] ∧
      SourceStarts s ([0xAC, 0x02] ++ [0x05]) ∧ OneGroup s.params .leb128 (lastAfter s 1) [0x05] [5] ∧
      3 < 8 * [(5 : Word)].length ∧ AllAccessible s.params s.eng.latch.dst.toNat (8 * 1 + 3) ∧
      s.params.accessibleAt (s.eng.latch.dst.toNat + 8 * 1 + 3) = false :=
  ⟨startable_of_check (by decide +kernel), buffer_one ⟨by unfold leb128Chained leb128Chained; decide, by decide, by decide⟩,
    ⟨by decide +kernel, fun h => by cases h⟩, sourceStarts_of_check (by decide +kernel),
    ⟨5, rfl, by unfold leb128Chained; decide, by decide, by decide⟩, by decide, allAccessible_of_check (by decide +kernel),
    by decide +kernel⟩

theorem witness_DecodeCountMismatch :
    let s := started .decLeb128 everywhere true [0xAC, 0x02, 0x05] 3 8 1
    Startable .dec s ∧ Buffer s.params .leb128 [0xAC, 0x02] [300] ∧ [(300 : Word)].length = s.eng.latch.cnt.toNat ∧
      SourceStarts s [0xAC, 0x02] ∧ s.eng.latch.strict = true ∧ [(0xAC : Byte), 0x02].length < s.eng.latch.slen.toNat ∧
      AllAccessible s.params s.eng.latch.dst.toNat (8 * [(300 : Word)].length) :=
  ⟨startable_of_check (by decide +kernel), buffer_one ⟨by unfold leb128Chained leb128Chained; decide, by decide, by decide⟩,
    rfl, sourceStarts_of_check (by decide +kernel), rfl, by decide +kernel, allAccessible_of_check (by decide +kernel)⟩

/-! ### Witnesses: every command, races, the whole machine -/

theorem witness_EveryCommandCompletes (i : Instr) : (enc3 i).params.legal = true ∧ (enc3 i).raced i.dir = false := by
  cases i <;> decide +kernel

/-- An unraced command answers a next state. -/
theorem enc3_next (i : Instr) : (enc3 i).raced i.dir = false ∧ ∃ t, exec i (enc3 i) = .next t := by
  obtain ⟨hl, hr⟩ := witness_EveryCommandCompletes i
  rcases exec_cases i (enc3 i) hl with ⟨h, -⟩ | ⟨-, t, w, c, a, h, -⟩
  · rw [hr] at h; cases h
  · exact ⟨hr, t, h⟩

theorem witness_DatapathFrame (i : Instr) : (enc3 i).raced i.dir = false ∧ ∃ t, exec i (enc3 i) = .next t := enc3_next i

theorem witness_EngineWritesOnlyDestination (i : Instr) :
    (∃ t, exec i (enc3 i) = .next t) ∧ (enc3 i).raced i.dir = false ∧ 0x1FFF < (enc3 i).eng.latch.dst.toNat ∧
      (enc3 i).eng.latch.dst.toNat + (enc3 i).eng.latch.cap.toNat ≤ 0x2030 ∧
      (srcRegion .enc (enc3 i).eng.latch).has 0x1000 = true :=
  ⟨(enc3_next i).2, (enc3_next i).1, by cases i <;> decide +kernel, by cases i <;> decide +kernel,
    by cases i <;> decide +kernel⟩

/-- Two machines whose memories differ outside the source region. -/
theorem witness_CommandIsFunctionOfInputs :
    let s := enc3 .encNanolog
    let s' := { enc3 .encNanolog with mem := (enc3 .encNanolog).mem.write 0x5000 7 }
    s.params = s'.params ∧ s.params.legal = true ∧ s.eng.latch = s'.eng.latch ∧ Fresh s.eng ∧ Fresh s'.eng ∧
      s.raced .enc = false ∧ s'.raced .enc = false ∧ s.mem.wf = true ∧ s'.mem.wf = true ∧
      (∀ a, (srcRegion .enc s.eng.latch).has a = true → s.mem.read a = s'.mem.read a) ∧ s.mem ≠ s'.mem := by
  refine ⟨rfl, by decide +kernel, rfl, ⟨rfl, rfl, rfl⟩, ⟨rfl, rfl, rfl⟩, by decide +kernel, by decide +kernel,
    by decide +kernel, by decide +kernel, fun a ha => ?_, by decide +kernel⟩
  have h : a ≠ 0x5000 := by
    rintro rfl
    revert ha
    decide +kernel
  exact (Memory.read_write_other _ _ _ _ h).symm

theorem witness_RaceRule :
    let s := enc3 .encLeb128
    let r := { s with eng := { s.eng with race := true } }
    let v := { s with params := { s.params with sideEffects := [⟨0x202F, 8⟩] } }
    0x1000 < 2 ^ s.params.addrBits ∧
      (r.params.legal = true ∧ r.eng.race = true ∧ 0x1FFF < r.eng.latch.dst.toNat ∧ r.mem.wf = true ∧
        47 < r.eng.latch.cap.toNat ∧ r.eng.latch.dst.toNat + 47 < 2 ^ r.params.addrBits) ∧
      (v.params.legal = true ∧ v.eng.race = false ∧
        v.params.sideEffects.any (fun r => r.meets (dstRegion v.eng.latch)) = true) ∧
      (0x202F < 2 ^ s.params.addrBits ∧ s.eng.phase = .run ∧ s.eng.latch.dst.toNat ≤ 0x202F ∧
        0x202F < s.eng.latch.dst.toNat + s.eng.latch.cap.toNat) := by decide +kernel

/-- A machine on which a command into 0x2000 to 0x200F has completed, and the host has not read STATUS since. -/
def completedUnseen : State :=
  { machine everywhere true [0xAC, 0x02] with
    csr := { (machine everywhere true []).csr with done := true }, unseen := [⟨0x2000, 16⟩] }

/-- The first and the last byte of the region are hidden, the byte after it is not, and a read of DONE = 1 is possible. -/
theorem witness_RaceRule_reads :
    (∀ a ∈ [0x2000, 0x200F], ∃ r ∈ completedUnseen.unseen, r.base ≤ a ∧ a < r.base + r.size) ∧
      ¬ (completedUnseen.eng.phase = .run ∧ completedUnseen.eng.latch.dst.toNat ≤ 0x2010 ∧
        0x2010 < completedUnseen.eng.latch.dst.toNat + completedUnseen.eng.latch.cap.toNat) ∧
      ¬ (∃ r ∈ completedUnseen.unseen, r.base ≤ 0x2010 ∧ 0x2010 < r.base + r.size) ∧
      completedUnseen.eng.phase = .idle ∧ completedUnseen.csr.done = true ∧
      0x2010 < 2 ^ completedUnseen.params.addrBits := by decide +kernel

/-- A completion puts its destination region among the unseen ones, and a read of STATUS with DONE = 1 takes all of them
out, which a read of another CSR does not (R74, R321 item 3). -/
theorem test_unseen :
    (match step (started .encLeb128 everywhere true (elementBytes [300]) 0 6 1) with
      | .next t => t.unseen
      | _ => []) = [⟨0x2000, 6⟩] ∧
    (match step { completedUnseen with turns := [.bus (.csrRead 0x10 64)] } with
      | .next t => some (t.unseen, t.host.rdata)
      | _ => none) = some ([], 2) ∧
    (match step { completedUnseen with turns := [.bus (.csrRead 0x48 64)] } with
      | .next t => t.unseen
      | _ => []) = [⟨0x2000, 16⟩] := by decide +kernel

/-- What the reading agent has received after one step. -/
def received (s : State) : Option Word :=
  match step s with
  | .next t => some t.host.rdata
  | _ => none

/-- An ordinary read of a byte, and one of a source byte while a command runs (R60). -/
theorem test_host_read :
    received { machine everywhere true [0xAC, 0x02] with turns := [.bus (.memRead 0x1001)] } = some 2 ∧
    received { enc3 .encLeb128 with turns := [.bus (.memRead 0x1001)] } = some 1 := by decide +kernel

theorem witness_RespectfulAccessStartsNoRace :
    let s := { enc3 .encLeb128 with turns := [.bus (.memWrite 0x2030 1)] }
    s.eng.race = false ∧ (∀ acc, nextAccess s = some acc → accessRespects s acc = true) ∧ ∃ t, step s = .next t := by
  refine ⟨rfl, fun acc h => ?_, ?_⟩
  · obtain rfl : Access.memWrite 0x2030 1 = acc := Option.some.inj h
    decide +kernel
  · rw [step_eq _ (by decide +kernel)]
    simp only [performTurn, access]
    rw [if_pos (by decide +kernel)]
    exact ⟨_, rfl⟩

/-- The invariant holds of a running machine, which takes a step. -/
theorem witness_StepKeepsInvariant : Inv (enc3 .encLeb128) ∧ ∃ t, step (enc3 .encLeb128) = .next t := by
  refine ⟨⟨by decide +kernel, by decide +kernel, by decide +kernel, by decide +kernel, fun _ =>
    ⟨⟨rfl, rfl, rfl⟩, rfl, rfl, rfl, rfl, rfl, rfl⟩⟩, ?_⟩
  have hl : (enc3 .encLeb128).params.legal = true := by decide +kernel
  rw [step_eq _ hl]
  obtain ⟨d, ⟨-, h⟩ | ⟨-, t, w, c, a, h, -⟩⟩ := engineStep_cases (enc3 .encLeb128) hl
  · exact ⟨_, h⟩
  · exact ⟨_, h⟩

theorem witness_IdleEngineTakesNoStep :
    State.reset.params.legal = true ∧ State.reset.eng.phase = .idle ∧
      { State.reset with turns := [.engine] }.turns = .engine :: [] := by decide +kernel

theorem witness_RunningCommandEnds :
    let s := { enc3 .encLeb128 with turns := [.bus (.memWrite 0x1000 1), .bus (.csrWrite 0x18 64 0), .host] }
    s.params.legal = true ∧ s.eng.phase = .run ∧ allInSpace s = true := by decide +kernel

theorem witness_HostStatementSteps (st : HostStmt)
    (_ : st ∈ [.csrw .cmd 0, .csrr 1 .status, .bz 1 63 0, .memw 0x1000 [1], .memw64 0x1000 [1], .halt]) :
    (let s := withProgram [st] State.reset
    s.params.legal = true ∧ (s.turns = [] ∧ ([] : List Turn) = [] ∧ s.eng.phase = .idle) ∧ s.host.pending = [] ∧
      s.host.prog[s.host.pc]? = some st) ∧
    (let s := { withProgram [st] (enc3 .encLeb128) with turns := [.host, .engine] }
    s.params.legal = true ∧ s.turns = .host :: [.engine] ∧ s.eng.phase = .run ∧ s.host.pending = [] ∧
      s.host.prog[s.host.pc]? = some st) ∧
    { State.reset.host with pending := [.memWrite 0x1000 1] }.pending = .memWrite 0x1000 1 :: [] ∧
    State.reset.host.pending = [] ∧ State.reset.host.prog[State.reset.host.pc]? = none :=
  ⟨⟨show Params.default.legal = true by decide +kernel, ⟨rfl, rfl, rfl⟩, rfl, rfl⟩,
    ⟨show Params.default.legal = true by decide +kernel, rfl, rfl, rfl, rfl⟩, rfl, rfl, rfl⟩

theorem witness_HostMemoryStatements :
    (let s := withProgram [.memw 0x1000 [1, 2]] State.reset
    s.params.legal = true ∧ s.eng.phase = .idle ∧ s.turns = [] ∧ s.host.pending = [] ∧
      0x1000 + [(1 : Byte), 2].length ≤ s.params.memTop ∧ s.host.prog[s.host.pc]? = some (.memw 0x1000 [1, 2])) ∧
    (let s := withProgram [.memw64 0x1000 [300]] State.reset
    s.params.legal = true ∧ s.eng.phase = .idle ∧ s.turns = [] ∧ s.host.pending = [] ∧
      0x1000 + (elementBytes [300]).length ≤ s.params.memTop ∧ s.host.prog[s.host.pc]? = some (.memw64 0x1000 [300])) := by
  decide +kernel

/-- An empty rest of the program assembles, after any of the four. -/
theorem witness_PseudoInstructionsExpand : ∀ i ∈ [2, 1, 7, 8], assembleFrom [] i [] = some [] := by decide

end Sys2Proof.Tests
end

section
/-! PROOFS. What parameter values are legal (R10, R192), the laws of data memory and of byte strings (R14, R16, R60), and
the commands that the bus stops (R278). -/

namespace Sys2Proof.Machine

/-! ### Bucket tables and parameters (R10, R192) -/

theorem bucketRow_max_eq (r : BucketRow) : r.max = (r.hi - r.lo + 1) * 2 ^ (8 * r.p) - 1 := by
  rw [BucketRow.max, Nat.shiftLeft_eq]

/-- R192 items 1 and 3, the size of a row by its place value. -/
theorem bucketRow_legal_iff (r : BucketRow) : r.legal = true ↔
    (r.lo ≤ r.hi ∧ r.hi ≤ 255 ∧ r.p ≤ 8) ∧ (r.hi - r.lo + 1) * 2 ^ (8 * r.p) ≤ 2 ^ 64 := by
  simp only [BucketRow.legal, Nat.shiftLeft_eq, Bool.and_eq_true, decide_eq_true_eq, and_assoc]

theorem bucketRow_disjoint_iff (r r' : BucketRow) : r.disjoint r' = true ↔ r.hi < r'.lo ∨ r'.hi < r.lo := by
  simp only [BucketRow.disjoint, Bool.or_eq_true, decide_eq_true_eq]

/-- The recursion of `tableOrdered` is the pairwise relation of R192 items 2 and 4. -/
theorem tableOrdered_iff (T : List BucketRow) : tableOrdered T = true ↔
    T.Pairwise (fun r r' => (r.hi < r'.lo ∨ r'.hi < r.lo) ∧ r.max < r'.max) := by
  induction T with
  | nil => simp [tableOrdered]
  | cons r rest ih =>
    simp only [tableOrdered, Bool.and_eq_true, List.all_eq_true, bucketRow_disjoint_iff, decide_eq_true_eq, ih,
      List.pairwise_cons]

/-- A full row holds exactly the values below 2^64: its size is positive, so Max + 1 loses nothing. -/
theorem bucketRow_max_full_iff (r : BucketRow) :
    r.max = 2 ^ 64 - 1 ↔ (r.hi - r.lo + 1) * 2 ^ (8 * r.p) = 2 ^ 64 := by
  have hpos : 0 < (r.hi - r.lo + 1) * 2 ^ (8 * r.p) := by positivity
  rw [bucketRow_max_eq]
  omega

theorem tableLastFull_iff (T : List BucketRow) : tableLastFull T = true ↔
    T ≠ [] ∧ ∀ r, T.getLast? = some r → (r.hi - r.lo + 1) * 2 ^ (8 * r.p) = 2 ^ 64 := by
  unfold tableLastFull
  cases hT : T.getLast? with
  | none => simp [List.getLast?_eq_none_iff.1 hT]
  | some r =>
    have hne : T ≠ [] := by rintro rfl; simp at hT
    simp only [decide_eq_true_eq, bucketRow_max_full_iff, ne_eq, hne, not_false_eq_true, true_and, Option.some.injEq,
      forall_eq']

theorem tableFirstBare_iff (T : List BucketRow) : tableFirstBare T = true ↔
    T ≠ [] ∧ ∀ r, T.head? = some r → r.p = 0 := by
  cases T <;> simp [tableFirstBare]

/-- R191, R192: a legal table, item by item. -/
theorem tableLegal_iff (T : List BucketRow) : tableLegal T = true ↔
    (T ≠ [] ∧
     (∀ r ∈ T, r.lo ≤ r.hi ∧ r.hi ≤ 255 ∧ r.p ≤ 8) ∧
     T.Pairwise (fun r r' => r.hi < r'.lo ∨ r'.hi < r.lo) ∧
     (∀ r ∈ T, (r.hi - r.lo + 1) * 2 ^ (8 * r.p) ≤ 2 ^ 64) ∧
     T.Pairwise (fun r r' => (r.hi - r.lo + 1) * 2 ^ (8 * r.p) - 1 < (r'.hi - r'.lo + 1) * 2 ^ (8 * r'.p) - 1) ∧
     (∀ r, T.getLast? = some r → (r.hi - r.lo + 1) * 2 ^ (8 * r.p) = 2 ^ 64) ∧
     (∀ r, T.head? = some r → r.p = 0)) := by
  simp only [tableLegal, Bool.and_eq_true, List.all_eq_true, bucketRow_legal_iff, tableOrdered_iff, tableLastFull_iff,
    tableFirstBare_iff, bucketRow_max_eq, List.pairwise_and_iff]
  constructor
  · rintro ⟨⟨⟨hrows, hdisj, hmax⟩, hne, hlast⟩, -, hfirst⟩
    exact ⟨hne, fun r hr => (hrows r hr).1, hdisj, fun r hr => (hrows r hr).2, hmax, hlast, hfirst⟩
  · rintro ⟨hne, hrange, hdisj, hsize, hmax, hlast, hfirst⟩
    exact ⟨⟨⟨fun r hr => ⟨hrange r hr, hsize r hr⟩, hdisj, hmax⟩, hne, hlast⟩, hne, hfirst⟩

theorem params_legal_iff (p : Params) : p.legal = true ↔
    (1 ≤ p.addrBits ∧ p.addrBits ≤ 64 ∧ tableLegal p.lesqliteTable = true ∧ tableLegal p.lesqlite2Table = true ∧
      p.nanologPad ≤ 15) := by
  simp only [Params.legal, Bool.and_eq_true, decide_eq_true_eq, and_assoc]

theorem lesqliteDefault_legal : tableLegal lesqliteDefault = true := by decide

theorem lesqlite2Default_legal : tableLegal lesqlite2Default = true := by decide

theorem params_default_legal : Params.default.legal = true :=
  (params_legal_iff _).2 ⟨by decide, by decide, lesqliteDefault_legal, lesqlite2Default_legal, by decide⟩

theorem step_illegal_params (s : State) (hl : s.params.legal = false) : step s = .refused .illegalParameters :=
  if_pos hl

/-- Settles O5: the items of R192 one by one, and the clauses of R10. -/
theorem legalParametersMeaning : Obligations.LegalParametersMeaning :=
  ⟨params_legal_iff, tableLegal_iff⟩

/-- Settles O6: closed tables, evaluated; the parameters are legal because their tables are. -/
theorem defaultTablesLegal : Obligations.DefaultTablesLegal :=
  ⟨lesqliteDefault_legal, lesqlite2Default_legal, by decide, by decide, params_default_legal⟩

/-- Settles O7: the step tests the parameters first, and so does every command. -/
theorem illegalParametersRefused : Obligations.IllegalParametersRefused :=
  fun s hl => ⟨step_illegal_params s hl, fun i => exec_illegal_params i s hl⟩

/-! ### Equality of memories (R60) -/

/-- A canonical memory lists a byte that differs from an unlisted one, and then the rest, above it. -/
theorem Memory.wf_cons_iff (k : Nat) (b : Byte) (rest : Memory) :
    Memory.wf ((k, b) :: rest) = true ↔ b ≠ initByte ∧ Memory.wfFrom (some k) rest = true := by
  simp only [wf, wfFrom, Bool.true_and, Bool.and_eq_true, decide_eq_true_eq]

theorem Memory.read_cons_self (k : Nat) (b : Byte) (rest : Memory) : Memory.read ((k, b) :: rest) k = b := by
  rw [read_cons, if_pos rfl]

theorem Memory.read_below_head {k a : Nat} {b : Byte} {rest : Memory} (hw : Memory.wf ((k, b) :: rest) = true)
    (ha : a < k) : Memory.read ((k, b) :: rest) a = initByte := by
  obtain ⟨-, hrest⟩ := (wf_cons_iff k b rest).1 hw
  rw [read_cons, if_neg (by omega)]
  exact read_of_wfFrom_le rest k a hrest (by omega)

/-- Of two canonical memories that read alike neither starts below the other. -/
theorem Memory.head_le_head {k k' : Nat} {b b' : Byte} {rest rest' : Memory}
    (hw : Memory.wf ((k, b) :: rest) = true) (hw' : Memory.wf ((k', b') :: rest') = true)
    (h : ∀ a, Memory.read ((k, b) :: rest) a = Memory.read ((k', b') :: rest') a) : k ≤ k' := by
  by_contra hlt
  have hb' : b' = initByte := by
    rw [← read_cons_self k' b' rest', ← h k', read_below_head hw (by omega)]
  exact ((wf_cons_iff k' b' rest').1 hw').1 hb'

/-- Memories in canonical form are equal when they read alike: the form lists exactly the bytes that differ from an
unlisted one, in order. -/
theorem Memory.eq_of_read_eq (m m' : Memory) (hw : m.wf = true) (hw' : m'.wf = true)
    (h : ∀ a, m.read a = m'.read a) : m = m' := by
  induction m generalizing m' with
  | nil =>
    cases m' with
    | nil => rfl
    | cons c' rest' =>
      obtain ⟨k', b'⟩ := c'
      exact absurd ((read_cons_self k' b' rest').symm.trans (h k').symm) ((wf_cons_iff k' b' rest').1 hw').1
  | cons c rest ih =>
    obtain ⟨k, b⟩ := c
    obtain ⟨hb, hrest⟩ := (wf_cons_iff k b rest).1 hw
    cases m' with
    | nil => exact absurd ((read_cons_self k b rest).symm.trans (h k)) hb
    | cons c' rest' =>
      obtain ⟨k', b'⟩ := c'
      obtain ⟨-, hrest'⟩ := (wf_cons_iff k' b' rest').1 hw'
      obtain rfl : k = k' := le_antisymm (head_le_head hw hw' h) (head_le_head hw' hw fun a => (h a).symm)
      obtain rfl : b = b' := by rw [← read_cons_self k b rest, h k, read_cons_self]
      have htails : ∀ a, Memory.read rest a = Memory.read rest' a := by
        intro a
        by_cases ha : a = k
        · rw [read_of_wfFrom_le rest k a hrest ha.le, read_of_wfFrom_le rest' k a hrest' ha.le]
        · simpa only [read_cons, if_neg ha] using h a
      rw [ih rest' (wf_of_wfFrom rest k hrest) (wf_of_wfFrom rest' k hrest') htails]

theorem Memory.read_write (m : Memory) (a a' : Nat) (b : Byte) (hw : m.wf = true) :
    (m.write a b).read a' = if a' = a then b else m.read a' := by
  split
  case isTrue h => rw [h, read_write_same m a b hw]
  case isFalse h => exact read_write_other m a a' b h

/-- Settles O20: the read and frame laws of a write, and equality by the canonical form. -/
theorem memoryReadAfterWrite : Obligations.MemoryReadAfterWrite :=
  ⟨fun m a a' b hw => ⟨Memory.read_write m a a' b hw, Memory.wf_write m a b hw⟩, Memory.eq_of_read_eq⟩

/-! ### bytes_n and LE (R14) -/

/-- Byte j of bytes_n(v) is bits 8j+7 to 8j of v. -/
theorem bytesLE_getElem? (n v j : Nat) (hj : j < n) :
    (bytesLE n v)[j]? = some (BitVec.ofNat 8 (v / 256 ^ j)) := by
  induction n generalizing v j with
  | zero => omega
  | succ n ih =>
    cases j with
    | zero => simp [bytesLE]
    | succ j => rw [bytesLE, List.getElem?_cons_succ, ih (v / 256) j (by omega), Nat.div_div_eq_div_mul, ← Nat.pow_succ']

/-- LE is the sum of its bytes by place. -/
theorem leNat_eq_sum (bs : List Byte) :
    leNat bs = ((List.range bs.length).map (fun j => (bs.getD j 0).toNat * 256 ^ j)).sum := by
  induction bs with
  | nil => rfl
  | cons b bs ih =>
    have hplace : ∀ j, (bs.getD j 0).toNat * 256 ^ (j + 1) = 256 * ((bs.getD j 0).toNat * 256 ^ j) := by
      intro j; ring
    simp only [leNat, ih, List.length_cons, List.range_succ_eq_map, List.map_cons, List.map_map, List.sum_cons,
      Function.comp_def, List.getD_cons_zero, List.getD_cons_succ, Nat.succ_eq_add_one, hplace, List.sum_map_mul_left,
      pow_zero, mul_one]

/-- Settles O22: both inverses, each byte by its place, and the sum. -/
theorem bytesAndLittleEndianInverse : Obligations.BytesAndLittleEndianInverse :=
  ⟨fun n v hv => leNat_bytesLE_of_lt n v (by rwa [pow_mul] at hv), bytesLE_leNat, bytesLE_getElem?, leNat_eq_sum⟩

/-! ### A command that raises an error after some groups (R131) -/

/-- An encode whose loop raises, `out` having been emitted for `j` elements and `part` written after it, ends with that
error, the progress of the `j` elements and exactly those bytes written. -/
theorem enc_raise_ends {i : Instr} {s : State} {j addr : Nat} {code : ErrCode} {out part : List Byte} {w w' : Work}
    (hd : i.dir = .enc) (h : Startable .enc s)
    (hraise : encBody s.params i.codec s.eng.latch.cnt.toNat 0 ⟨s.eng, s.mem⟩ = .raise code addr w')
    (hout : Emitted out j ⟨s.eng, s.mem⟩ w)
    (hpart : Kept { w with mem := w.mem.writeBytes (s.eng.latch.dst.toNat + out.length) part } w') :
    ∃ t, exec i s = .next t ∧ Ended s t code addr out.length j ∧ Wrote s t s.eng.latch.dst.toNat (out ++ part) := by
  have hwc : s.eng.wc.toNat = 0 := by rw [h.fresh.wc]; rfl
  refine ⟨complete .enc code addr (withWork w' s), ?_, ?_, wrote_of_mem ?_⟩
  · have hi : instrOf i.codec .enc = i := by rw [← hd, instrOf_codec_dir]
    have hexec := exec_enc_startable i.codec s h
    rw [hi, hraise] at hexec
    exact hexec
  · refine ended_complete .enc s w' code addr out.length j (hpart.latch.trans hout.latch) (hpart.race.trans hout.race) ?_
      (hpart.ei.trans hout.ei)
    rw [progressBytes, hpart.wc, hout.wc, hwc, Nat.zero_add]
  · rw [complete_mem, withWork_mem, hpart.mem, hout.mem, hwc, Nat.add_zero, Memory.writeBytes_append]

/-- A decode whose loop raises, `vs` having been stored from `bs` and `part` written after them, ends with that error,
the progress of `vs` and exactly those bytes written. -/
theorem dec_raise_ends {i : Instr} {s : State} {addr : Nat} {code : ErrCode} {bs part : List Byte} {vs : List Word}
    {w w' : Work} (hd : i.dir = .dec) (h : Startable .dec s)
    (hraise : decBody s.params i.codec s.eng.latch.cnt.toNat 0 ⟨s.eng, s.mem⟩ = .raise code addr w')
    (hvs : Stored bs vs 0 ⟨s.eng, s.mem⟩ w)
    (hpart : Kept { w with mem := w.mem.writeBytes (s.eng.latch.dst.toNat + 8 * vs.length) part } w') :
    ∃ t, exec i s = .next t ∧ Ended s t code addr bs.length vs.length ∧
      Wrote s t s.eng.latch.dst.toNat (elementBytes vs ++ part) := by
  have hrc : s.eng.rc.toNat = 0 := by rw [h.fresh.rc]; rfl
  refine ⟨complete .dec code addr (withWork w' s), ?_, ?_, wrote_of_mem ?_⟩
  · have hi : instrOf i.codec .dec = i := by rw [← hd, instrOf_codec_dir]
    have hexec := exec_dec_startable i.codec s h
    rw [hi, hraise] at hexec
    exact hexec
  · refine ended_complete .dec s w' code addr bs.length vs.length (hpart.latch.trans hvs.latch)
      (hpart.race.trans hvs.race) ?_ ?_
    · rw [progressBytes, hpart.rc, hvs.rc, hrc, Nat.zero_add]
    · rw [hpart.ei, hvs.ei, Nat.zero_add]
  · rw [complete_mem, withWork_mem, hpart.mem, hvs.mem, Nat.mul_zero, Nat.add_zero, Memory.writeBytes_append,
      elementBytes_length]

/-- The element after `n` is the last one exactly when one element is left to decode (R240). -/
theorem lastAfter_eq (s : State) (n : Nat) : lastAfter s n = decide (s.eng.latch.cnt.toNat - n = 1) := by
  simp only [lastAfter, decide_eq_decide]
  omega

/-- Settles O41: the loop's first `j` elements go through, the next group fits, and its write stops at byte `k`. -/
theorem encodeBusErrorOnWrite : Obligations.EncodeBusErrorOnWrite := by
  intro i s j k hd h l n out g hj hpair hsrc hcap hk hdst hf
  obtain ⟨w, hloop, hout, hwc, hels⟩ := enc_prefix (c := i.codec) h j hj.le hpair
    (accessible_left (by rwa [Nat.mul_add] at hsrc)) (le_trans (Nat.le_add_right _ _) hcap) (accessible_left hdst)
  have hl : w.eng.latch = s.eng.latch := hout.latch
  obtain ⟨rest, hfirst⟩ := encBody_first s.params i.codec (n - j) j w (by omega)
    (by rw [hl]; exact accessible_right (by rwa [Nat.mul_add] at hsrc))
  have hemit := emitGroup_bus_error s.params g k w (by rw [hwc, hl]; exact hcap) hk
    (by rw [hwc, hl]; exact accessible_right hdst) (by rw [hwc, hl]; exact hf)
  rw [hl, hels, hemit, hwc, hl] at hfirst
  exact enc_raise_ends hd h (hloop.trans hfirst) hout ⟨rfl, rfl, rfl, rfl, rfl, rfl, rfl⟩

/-- Settles O42: the loop's first `j` elements go through, and the read of the next ones stops at byte `k`. -/
theorem encodeBusErrorOnRead : Obligations.EncodeBusErrorOnRead := by
  intro i s j k hd h l n out hj hpair hk hsrc hf hcap hdst
  obtain ⟨w, hloop, hout, -, -⟩ := enc_prefix (c := i.codec) h j hj.le hpair (accessible_left hsrc) hcap hdst
  have hl : w.eng.latch = s.eng.latch := hout.latch
  have hread := encBody_read_fails s.params i.codec (n - j) j k w hk (by rw [hl]; exact accessible_right hsrc)
    (by rw [hl]; exact hf)
  rw [hl] at hread
  have hend := enc_raise_ends (part := []) hd h (hloop.trans hread) hout (Kept.refl w)
  rwa [List.append_nil] at hend

/-- Settles O46: the groups of `vs` go through, and the store of the next group's elements stops at byte `k`. -/
theorem decodeBusErrorOnWrite : Obligations.DecodeBusErrorOnWrite := by
  intro i s bs g vs xs k hd h hb hm hs hg hk hdst hf
  obtain ⟨w, hloop, hvs, -, hsrc⟩ := dec_prefix h hb hm hs (accessible_left hdst)
  have hl : w.eng.latch = s.eng.latch := hvs.latch
  rw [lastAfter_eq] at hg
  obtain ⟨w', m, hstore, rfl, hpart⟩ := decBody_store_fails s.params i.codec (s.eng.latch.cnt.toNat - vs.length) vs.length
    k w g xs (by have := hm.1; omega) hg hsrc hk (by rw [hl]; exact accessible_right hdst) (by rw [hl]; exact hf)
  rw [hl] at hstore hpart
  exact dec_raise_ends hd h (hloop.trans hstore) hvs hpart

end Sys2Proof.Machine
end

section
/-! PROOFS. What one step can do to the VCE (R322), the invariant it keeps (R43, R60, R321), when a step starts a race
(R44), and reset (R310). -/

namespace Sys2Proof.Machine

/-! ### What one step can do (R322) -/

/-- The VCE itself, its CSR file, engine and data memory (R20), is the same in both states; the host, the schedule, the
hidden regions and the count of draws may differ. -/
structure SameVce (s u : State) : Prop where
  csr : u.csr = s.csr
  eng : u.eng = s.eng
  mem : u.mem = s.mem
  params : u.params = s.params

theorem SameVce.refl (s : State) : SameVce s s := ⟨rfl, rfl, rfl, rfl⟩

theorem SameVce.withTurns (s : State) (rest : List Turn) : SameVce s { s with turns := rest } := ⟨rfl, rfl, rfl, rfl⟩

theorem SameVce.trans {s u v : State} (h : SameVce s u) (h' : SameVce u v) : SameVce s v :=
  ⟨h'.csr.trans h.csr, h'.eng.trans h.eng, h'.mem.trans h.mem, h'.params.trans h.params⟩

theorem csrWrite_csrAddress (n : CsrName) (v : Word) (s : State) :
    csrWrite (csrAddress s.params n) 64 v s = writeCsr n v s := by
  simp only [csrWrite, csrReached_csrAddress]

/-- What the engine does at the end of a command that ran on `u`: one of its two completions (R72, R130). -/
def EngineEnds (u t : State) : Prop := t = completeRaced u ∨ ∃ d w c a, Completion d u t w c a

theorem engineStep_ends {s t : State} (hl : s.params.legal = true) (h : engineStep s = .next t) : EngineEnds s t := by
  obtain ⟨d, ⟨-, hraced⟩ | ⟨-, t', w, c, a, hnext, hc⟩⟩ := engineStep_cases s hl
  · rw [hraced] at h
    exact Or.inl (Host.Outcome.next.inj h).symm
  · rw [hnext] at h
    obtain rfl := Host.Outcome.next.inj h
    exact Or.inr ⟨d, w, c, a, hc⟩

/-- The host's step leaves the VCE alone, or is the access that `hostAccess` names (R96). -/
theorem hostStep_cases {s t : State} (h : hostStep s = .next t) :
    SameVce s t ∨ ∃ u acc, SameVce s u ∧ hostAccess s = some acc ∧ access acc u = .next t := by
  cases hp : s.host.pending with
  | cons acc rest =>
    simp only [hostStep, hp] at h
    exact Or.inr ⟨{ s with host := { s.host with pending := rest } }, acc, ⟨rfl, rfl, rfl, rfl⟩,
      by simp only [hostAccess, hp], h⟩
  | nil =>
    cases hst : s.host.prog[s.host.pc]? with
    | none =>
      simp only [hostStep, hp, hst] at h
      obtain rfl := Host.Outcome.next.inj h
      exact Or.inl (SameVce.refl s)
    | some st =>
      simp only [hostStep, hp, hst] at h
      obtain rfl := Host.Outcome.next.inj h
      cases st with
      | csrw r v =>
        exact Or.inr ⟨nextStatement s, .csrWrite (csrAddress s.params r) 64 v, ⟨rfl, rfl, rfl, rfl⟩,
          by simp only [hostAccess, hp, hst], rfl⟩
      | bz t k target =>
        simp only [hostStatement]
        split <;> exact Or.inl ⟨rfl, rfl, rfl, rfl⟩
      | csrr | memw | memw64 | halt => exact Or.inl ⟨rfl, rfl, rfl, rfl⟩

/-- Everything a step can do to the VCE (R322): nothing, a reset, the end of a command, or the one access that
`nextAccess` names. -/
theorem step_cases {s t : State} (h : step s = .next t) :
    SameVce s t ∨ ∃ u, SameVce s u ∧
      (t = resetStep u ∨ EngineEnds u t ∨ ∃ acc, nextAccess s = some acc ∧ access acc u = .next t) := by
  have hl := step_legal h
  rw [step_eq s hl] at h
  cases hturns : s.turns with
  | nil =>
    rw [hturns] at h
    cases hphase : s.eng.phase with
    | run =>
      simp only [defaultTurn, hphase] at h
      exact Or.inr ⟨s, SameVce.refl s, Or.inr (Or.inl (engineStep_ends hl h))⟩
    | idle =>
      simp only [defaultTurn, hphase] at h
      have hnext : nextAccess s = hostAccess s := by simp [nextAccess, hturns, State.busy, hphase]
      rw [hnext]
      exact (hostStep_cases h).imp_right fun ⟨u, acc, hu, hacc, ht⟩ => ⟨u, hu, Or.inr (Or.inr ⟨acc, hacc, ht⟩)⟩
  | cons turn rest =>
    rw [hturns] at h
    have hu := SameVce.withTurns s rest
    cases turn with
    | engine =>
      cases hphase : s.eng.phase with
      | run =>
        simp only [performTurn, engineTurn, hphase] at h
        exact Or.inr ⟨_, hu, Or.inr (Or.inl (engineStep_ends hl h))⟩
      | idle =>
        simp only [performTurn, engineTurn, hphase] at h
        obtain rfl := Host.Outcome.next.inj h
        exact Or.inl hu
    | host =>
      have hnext : nextAccess s = hostAccess { s with turns := rest } := by simp only [nextAccess, hturns]; rfl
      rw [hnext]
      rcases hostStep_cases h with hsame | ⟨v, acc, hv, hacc, ht⟩
      · exact Or.inl (hu.trans hsame)
      · exact Or.inr ⟨v, hu.trans hv, Or.inr (Or.inr ⟨acc, hacc, ht⟩)⟩
    | bus acc => exact Or.inr ⟨_, hu, Or.inr (Or.inr ⟨acc, by simp only [nextAccess, hturns], h⟩)⟩
    | reset => exact Or.inr ⟨_, hu, Or.inl (Host.Outcome.next.inj h).symm⟩

end Sys2Proof.Machine

namespace Sys2Proof

open Sys2Proof.Machine

/-! ### The invariant of the machine (R43, R60, R321) -/

/-- The invariant speaks of the VCE alone. -/
theorem Inv.of_sameVce {s u : State} (h : Inv s) (hu : SameVce s u) : Inv u := by
  obtain ⟨hcsr, heng, hmem, hparams⟩ := hu
  obtain ⟨hwf, hspace, hsh, hg, hrun⟩ := h
  refine ⟨hmem ▸ hwf, by rw [hmem, hparams]; exact hspace, heng ▸ hsh, heng ▸ hg, fun hp => ?_⟩
  obtain ⟨⟨hrc, hwc, hei⟩, hdone, herr, hbytes, hcount, haddr, hcmd⟩ := hrun (heng ▸ hp)
  exact ⟨⟨heng ▸ hrc, heng ▸ hwc, heng ▸ hei⟩, hcsr ▸ hdone, hcsr ▸ herr, hcsr ▸ hbytes, hcsr ▸ hcount, hcsr ▸ haddr,
    by rw [hcsr, heng]; exact hcmd⟩

/-- An idle machine meets the invariant by its memory and its datapath alone. -/
theorem Inv.of_idle {s : State} (hwf : s.mem.wf = true) (hspace : s.mem.inSpace s.params.memTop = true)
    (hsh : s.eng.sh.toNat ≤ 63) (hg : s.eng.g.length ≤ 17) (hidle : s.eng.phase = .idle) : Inv s :=
  ⟨hwf, hspace, hsh, hg, fun hrun => by rw [hidle] at hrun; cases hrun⟩

/-- A change of the CSR file keeps the invariant where it keeps what is clear while a command runs. -/
theorem Inv.withCsr {s : State} (h : Inv s) {c : Csrs} (hdone : s.csr.done = false → c.done = false)
    (herr : c.err = s.csr.err) (hbytes : c.resultBytes = s.csr.resultBytes)
    (hcount : c.resultCount = s.csr.resultCount) (haddr : c.errAddr = s.csr.errAddr) (hcmd : c.cmd = s.csr.cmd) :
    Inv { s with csr := c } := by
  refine ⟨h.wf, h.inSpace, h.shift, h.group, fun hp => ?_⟩
  have hclear := h.running hp
  exact ⟨hclear.fresh, hdone hclear.done, herr.trans hclear.err, hbytes.trans hclear.resultBytes,
    hcount.trans hclear.resultCount, haddr.trans hclear.errAddr, hcmd.trans hclear.cmd⟩

end Sys2Proof

namespace Sys2Proof.Machine

theorem startCommand_inv {s : State} (h : Inv s) (v : Word) : Inv (startCommand v s) :=
  ⟨h.wf, h.inSpace, h.shift, h.group, fun _ => ⟨⟨rfl, rfl, rfl⟩, rfl, rfl, rfl, rfl, rfl, rfl⟩⟩

theorem writeCsr_inv {s : State} (h : Inv s) (n : CsrName) (v : Word) : Inv (writeCsr n v s) := by
  cases n with
  | id | resultBytes | resultCount | errAddr => exact h
  | ctrl | srcAddr | srcLen | dstAddr | dstCap | count => exact h.withCsr id rfl rfl rfl rfl rfl
  | status => exact h.withCsr (fun hd => by simp only [writeStatus, hd, Bool.false_and]) rfl rfl rfl rfl rfl
  | cmd =>
    simp only [writeCsr, writeCmd]
    split
    · exact startCommand_inv h v
    · exact h.withCsr id rfl rfl rfl rfl rfl

theorem memWrite_inv {s : State} (h : Inv s) {a : Nat} (b : Byte) (ha : a < s.params.memTop) : Inv (memWrite a b s) := by
  refine ⟨Memory.wf_write _ _ _ h.wf, Memory.inSpace_write _ _ _ _ h.inSpace ha, h.shift, h.group, fun hp => ?_⟩
  obtain ⟨⟨hrc, hwc, hei⟩, hdone, herr, hbytes, hcount, haddr, hcmd⟩ := h.running hp
  exact ⟨⟨hrc, hwc, hei⟩, hdone, herr, hbytes, hcount, haddr, hcmd⟩

theorem memRead_sameVce (a : Nat) (s : State) : SameVce s (memRead a s) := by
  cases hfree : readIsFree s a with
  | true => rw [memRead_free hfree]; exact ⟨rfl, rfl, rfl, rfl⟩
  | false => rw [memRead_stored hfree]; exact ⟨rfl, rfl, rfl, rfl⟩

/-- An access to a byte that data memory does not have is the only one without a next state (R60). -/
theorem access_memWrite_eq_next {a : Nat} {b : Byte} {s t : State} (h : access (.memWrite a b) s = .next t) :
    a < s.params.memTop ∧ t = memWrite a b s := by
  simp only [access] at h
  split at h
  · next ha => exact ⟨ha, (Host.Outcome.next.inj h).symm⟩
  · cases h

theorem access_memRead_eq_next {a : Nat} {s t : State} (h : access (.memRead a) s = .next t) :
    a < s.params.memTop ∧ t = memRead a s := by
  simp only [access] at h
  split at h
  · next ha => exact ⟨ha, (Host.Outcome.next.inj h).symm⟩
  · cases h

theorem access_inv {s t : State} (h : Inv s) (acc : Access) (ht : access acc s = .next t) : Inv t := by
  cases acc with
  | csrRead addr width =>
    obtain rfl := Host.Outcome.next.inj ht
    exact h.of_sameVce ⟨rfl, rfl, rfl, rfl⟩
  | csrWrite addr width v =>
    obtain rfl := Host.Outcome.next.inj ht
    simp only [csrWrite]
    split
    · exact writeCsr_inv h _ v
    · exact h
  | memRead a =>
    obtain ⟨-, rfl⟩ := access_memRead_eq_next ht
    exact h.of_sameVce (memRead_sameVce a s)
  | memWrite a b =>
    obtain ⟨ha, rfl⟩ := access_memWrite_eq_next ht
    exact memWrite_inv h b ha

/-- Free values of the datapath respect its bounds (R43; log 4, log 7). -/
theorem freeWorking_bounded (k : Nat) (e : Engine) :
    (freeWorking k e).sh.toNat ≤ 63 ∧ (freeWorking k e).g.length ≤ 17 := by
  refine ⟨?_, List.length_take_le _ _⟩
  have := (Config.freeShift k).isLt
  simp only [freeWorking, BitVec.toNat_ofNat]
  omega

theorem completeRaced_mem_inv {s : State} (h : Inv s) :
    (completeRaced s).mem.wf = true ∧ (completeRaced s).mem.inSpace s.params.memTop = true := by
  refine ⟨Memory.wf_scramble _ _ _ _ h.wf, Memory.inSpace_scramble _ _ _ _ _ h.inSpace ?_⟩
  simp only [dstBytes]
  omega

theorem completeRaced_inv {s : State} (h : Inv s) : Inv (completeRaced s) := by
  obtain ⟨hwf, hspace⟩ := completeRaced_mem_inv h
  obtain ⟨hsh, hg⟩ := freeWorking_bounded (s.draws + 3) s.eng
  exact .of_idle hwf hspace hsh hg rfl

theorem resetMemory_idle {s : State} (h : s.eng.phase = .idle) : resetMemory s = s.mem := by
  simp only [resetMemory, h]

/-- Reset leaves of an abandoned command's memory what a race leaves of it (R310, R72). -/
theorem resetMemory_run {s : State} (h : s.eng.phase = .run) : resetMemory s = (completeRaced s).mem := by
  simp only [resetMemory, h, completeRaced_mem]

theorem resetStep_inv {s : State} (h : Inv s) : Inv (resetStep s) := by
  obtain ⟨hsh, hg⟩ := freeWorking_bounded s.draws s.eng
  have hmem : (resetMemory s).wf = true ∧ (resetMemory s).inSpace s.params.memTop = true := by
    cases hp : s.eng.phase with
    | idle => rw [resetMemory_idle hp]; exact ⟨h.wf, h.inSpace⟩
    | run => rw [resetMemory_run hp]; exact completeRaced_mem_inv h
  obtain ⟨hwf, hspace⟩ := hmem
  exact .of_idle hwf hspace hsh hg rfl

/-- Work that stays within an empty range changes no memory. -/
theorem Within.mem_eq_of_empty {a : Nat} {w w' : Work} (h : Within a a w w') (hwf : w.mem.wf = true) :
    w'.mem = w.mem :=
  Memory.eq_of_read_eq _ _ (h.wf hwf) hwf fun x => h.read x (by omega)

/-- A completed command's writes lie in data memory: its destination region passed the start check of R123, or is empty,
or nothing was written. -/
theorem Completion.inSpace {d : Dir} {s t : State} {w : Work} {c : ErrCode} {a : Nat} (h : Completion d s t w c a)
    (hs : Inv s) : w.mem.inSpace s.params.memTop = true := by
  rcases h.apart with hsame | ⟨hdst, -⟩
  · rw [hsame]; exact hs.inSpace
  · rcases (pastTop_false_iff _ _).1 hdst with hempty | hfits
    · have hcap : s.eng.latch.cap.toNat = 0 := hempty
      have hwithin := h.within
      rw [hcap, Nat.add_zero] at hwithin
      rw [hwithin.mem_eq_of_empty hs.wf]
      exact hs.inSpace
    · exact h.within.inSpace _ hfits hs.inSpace

theorem EngineEnds.inv {s t : State} (hs : Inv s) (h : EngineEnds s t) : Inv t := by
  rcases h with rfl | ⟨d, w, c, a, hc⟩
  · exact completeRaced_inv hs
  · obtain ⟨hsh, hg⟩ := hc.bounded ⟨hs.shift, hs.group⟩
    have hspace := hc.inSpace hs
    rw [hc.eq]
    exact .of_idle (hc.within.wf hs.wf) hspace hsh hg rfl

/-- Settles O55: by the cases of a step, each of which keeps the invariant. -/
theorem stepKeepsInvariant : Obligations.StepKeepsInvariant := by
  intro s t hs h
  rcases step_cases h with hsame | ⟨u, hu, hcase⟩
  · exact hs.of_sameVce hsame
  · have hui := hs.of_sameVce hu
    rcases hcase with rfl | hends | ⟨acc, -, hacc⟩
    · exact resetStep_inv hui
    · exact hends.inv hui
    · exact access_inv hui acc hacc

/-- Settles O54: the reset machine is idle, with nothing listed in memory and its datapath at 0. -/
theorem invariantHoldsAtReset : Obligations.InvariantHoldsAtReset :=
  .of_idle rfl rfl (by decide) (by decide) rfl

/-! ### No race without a write into the regions (R44, R72) -/

theorem writeCsr_race {s : State} (h : s.eng.race = false) (n : CsrName) (v : Word) :
    (writeCsr n v s).eng.race = false := by
  cases n with
  | cmd =>
    simp only [writeCsr, writeCmd]
    split
    · exact startCommand_eng_race s v
    · exact h
  | _ => exact h

/-- Of all accesses only a write into the running command's regions starts a race (R44). -/
theorem access_race {s t : State} {acc : Access} (h : s.eng.race = false)
    (houtside : ∀ a b, acc = .memWrite a b → (s.busy && inRegions s a) = false) (ht : access acc s = .next t) :
    t.eng.race = false := by
  cases acc with
  | csrRead addr width =>
    obtain rfl := Host.Outcome.next.inj ht
    exact h
  | csrWrite addr width v =>
    obtain rfl := Host.Outcome.next.inj ht
    simp only [csrWrite]
    split
    · exact writeCsr_race h _ v
    · exact h
  | memRead a =>
    obtain ⟨-, rfl⟩ := access_memRead_eq_next ht
    rw [(memRead_sameVce a s).eng, h]
  | memWrite a b =>
    obtain ⟨-, rfl⟩ := access_memWrite_eq_next ht
    rw [memWrite_eng_race, h, houtside a b rfl, Bool.or_false]

theorem EngineEnds.frame {s t : State} (h : EngineEnds s t) : CommandFrame s t := by
  rcases h with rfl | ⟨d, w, c, a, hc⟩
  · exact completeRaced_frame s
  · exact hc.frame

/-- Which bytes are the running command's is a matter of the engine alone (R44). -/
theorem SameVce.busy_inRegions {s u : State} (h : SameVce s u) (a : Nat) :
    (u.busy && inRegions u a) = (s.busy && inRegions s a) := by
  simp only [State.busy, inRegions, fetchCommand, h.eng]

/-- Settles O53: by the cases of a step; only an access could set i.RACE, and it respects the regions. -/
theorem respectfulAccessStartsNoRace : Obligations.RespectfulAccessStartsNoRace := by
  intro s t hrace hrespects h
  rcases step_cases h with hsame | ⟨u, hu, hcase⟩
  · rw [hsame.eng, hrace]
  · have hurace : u.eng.race = false := by rw [hu.eng, hrace]
    rcases hcase with rfl | hends | ⟨acc, hnext, hacc⟩
    · exact resetStep_eng_race u
    · rw [hends.frame.race, hurace]
    · refine access_race hurace (fun a b hwrite => ?_) hacc
      have := hrespects acc hnext
      rw [hu.busy_inRegions]
      simpa only [hwrite, accessRespects, Bool.not_eq_true'] using this

/-! ### Reset (R310) -/

/-- Settles O19: memory by the phase; an abandoned command leaves it as a race does. -/
theorem resetStepAtAnyTime : Obligations.ResetStep := by
  intro s rest hl hturns
  refine ⟨resetStep { s with turns := rest }, ?_, rfl, rfl, rfl, rfl, rfl, rfl, rfl, rfl, ?_, ?_⟩
  · rw [step_eq s hl, hturns]
    rfl
  · intro hidle
    exact resetMemory_idle (s := { s with turns := rest }) hidle
  · intro hrun
    have hmem := resetMemory_run (s := { s with turns := rest }) hrun
    rw [resetStep_mem, hmem]
    exact ⟨completeRaced_read_other _, completeRaced_read_in _⟩

end Sys2Proof.Machine
end

section
/-! PROOFS. The CSR file (R21 to R39, R120, R270): which accesses reach a register, STATUS and CTRL bit by bit, what the
writes change; and the values after reset (R311). -/

namespace Sys2Proof.Machine

/-! ### The CSR map (R22, R23) -/

theorem csrNames_complete (n : CsrName) : n ∈ csrNames := by cases n <;> decide

theorem csrOffset_le (n : CsrName) : csrOffset n ≤ 0x58 := by cases n <;> decide

theorem csrAt_iff (off : Nat) (n : CsrName) : csrAt off = some n ↔ csrOffset n = off := by
  constructor
  · intro h
    exact of_decide_eq_true (List.find?_some (p := fun n => decide (csrOffset n = off)) h)
  · rintro rfl
    cases n <;> rfl

/-- A register is reached by 64-bit accesses at its own address, and by no other (R22, R23). -/
theorem csrReached_iff (p : Params) (addr width : Nat) (n : CsrName) :
    csrReached p addr width = some n ↔ width = 64 ∧ addr = csrAddress p n := by
  have hn := csrOffset_le n
  simp only [csrReached, csrAddress]
  split
  · next h =>
    obtain ⟨hwidth, hlow, -⟩ := h
    rw [csrAt_iff]
    omega
  · next h =>
    simp only [reduceCtorEq, false_iff]
    omega

theorem csrReached_eq_none {p : Params} {addr width : Nat} (h : width ≠ 64 ∨ ∀ n, addr ≠ csrAddress p n) :
    csrReached p addr width = none := by
  rw [Option.eq_none_iff_forall_ne_some]
  intro n hn
  obtain ⟨hwidth, haddr⟩ := (csrReached_iff p addr width n).1 hn
  exact h.elim (fun hw => hw hwidth) (fun ha => ha n haddr)

theorem csrRead_csrAddress (s : State) (n : CsrName) : csrRead s (csrAddress s.params n) 64 = csrValue s n := by
  simp only [csrRead, csrReached_csrAddress]

/-- What a CSR read leaves unseen, by the address of the access (R74). -/
theorem unseenAfterRead_eq (s : State) (addr width : Nat) : unseenAfterRead s addr width =
    if width = 64 ∧ addr = csrAddress s.params .status ∧ s.csr.done = true then [] else s.unseen := by
  simp only [unseenAfterRead, acquires, Bool.and_eq_true, decide_eq_true_eq, csrReached_iff, and_assoc]

/-- Settles O8: the two lists agree entry by entry, and the list names every constructor. -/
theorem csrMap : Obligations.CsrMap := ⟨by decide, csrNames_complete⟩

/-- Settles O9: by which accesses reach a register. -/
theorem csrAccessRule : Obligations.CsrAccessRule := by
  intro s addr width v
  refine ⟨?_, ?_, ?_, ?_⟩
  · rintro n rfl rfl
    exact ⟨csrRead_csrAddress s n, csrWrite_csrAddress n v s⟩
  · intro _ _ hmiss
    have hnone := csrReached_eq_none hmiss
    exact ⟨by simp only [csrRead, hnone], by simp only [csrWrite, hnone]⟩
  · rintro n (rfl | rfl | rfl | rfl) <;> rfl
  · simp only [access, readCsr, unseenAfterRead_eq]
    rfl

/-! ### STATUS and CTRL, bit by bit (R25 to R28, R270) -/

theorem bitNat_add_double (b : Bool) (n : Nat) : bitNat b + 2 * n = Nat.bit b n := by
  cases b <;> simp [bitNat, Nat.bit_val, Nat.add_comm]

theorem bitNat_lt_two (b : Bool) : bitNat b < 2 := by cases b <;> decide

theorem errNumber_le (e : ErrCode) : errNumber e ≤ 8 := by cases e <;> decide

/-- STATUS as a number: the three flags from bit 0 on, and the error code from bit 8 on. -/
theorem statusWord_toNat (s : State) : (statusWord s).toNat =
    Nat.bit s.busy (Nat.bit s.csr.done (Nat.bit s.csr.drop (2 ^ 5 * errNumber s.csr.err))) := by
  have := bitNat_lt_two s.busy
  have := bitNat_lt_two s.csr.done
  have := bitNat_lt_two s.csr.drop
  have := errNumber_le s.csr.err
  simp only [statusWord, BitVec.toNat_ofNat, ← bitNat_add_double]
  omega

theorem statusWord_getLsbD_zero (s : State) : (statusWord s).getLsbD 0 = s.busy := by
  rw [BitVec.getLsbD, statusWord_toNat, Nat.testBit_bit_zero]

theorem statusWord_getLsbD_one (s : State) : (statusWord s).getLsbD 1 = s.csr.done := by
  rw [BitVec.getLsbD, statusWord_toNat, Nat.testBit_bit_succ, Nat.testBit_bit_zero]

theorem statusWord_getLsbD_two (s : State) : (statusWord s).getLsbD 2 = s.csr.drop := by
  rw [BitVec.getLsbD, statusWord_toNat, Nat.testBit_bit_succ, Nat.testBit_bit_succ, Nat.testBit_bit_zero]

/-- Above the three flags STATUS holds the error code alone, from bit 8 on. -/
theorem statusWord_getLsbD_add_three (s : State) (k : Nat) :
    (statusWord s).getLsbD (k + 3) = (decide (5 ≤ k) && (errNumber s.csr.err).testBit (k - 5)) := by
  rw [BitVec.getLsbD, statusWord_toNat, Nat.testBit_bit_succ, Nat.testBit_bit_succ, Nat.testBit_bit_succ,
    Nat.testBit_two_pow_mul]

theorem statusWord_err (s : State) : (statusWord s).extractLsb' 8 8 = BitVec.ofNat 8 (errNumber s.csr.err) := by
  ext k hk
  rw [BitVec.getElem_extractLsb', show 8 + k = k + 5 + 3 by omega, statusWord_getLsbD_add_three, Nat.add_sub_cancel,
    decide_eq_true (by omega), Bool.true_and, ← BitVec.getLsbD_eq_getElem, BitVec.getLsbD_ofNat, decide_eq_true hk,
    Bool.true_and]

theorem statusWord_getLsbD_high (s : State) {k : Nat} (hk : 16 ≤ k) : (statusWord s).getLsbD k = false := by
  obtain ⟨j, rfl⟩ := Nat.exists_eq_add_of_le' (show 3 ≤ k by omega)
  have herr : errNumber s.csr.err < 2 ^ (j - 5) :=
    calc errNumber s.csr.err ≤ 8 := errNumber_le _
      _ < 2 ^ 8 := by decide
      _ ≤ 2 ^ (j - 5) := Nat.pow_le_pow_right (by decide) (by omega)
  rw [statusWord_getLsbD_add_three, Nat.testBit_lt_two_pow herr, Bool.and_false]

/-- Settles O11: each bit by its place in the sum. -/
theorem statusWordFields : Obligations.StatusWordFields := by
  refine ⟨fun s => ⟨statusWord_getLsbD_zero s, statusWord_getLsbD_one s, statusWord_getLsbD_two s, fun k h3 h7 => ?_,
    statusWord_err s, fun k => statusWord_getLsbD_high s⟩, rfl, rfl, rfl, rfl, rfl, rfl, rfl, rfl, rfl⟩
  obtain ⟨j, rfl⟩ := Nat.exists_eq_add_of_le' h3
  rw [show csrValue s .status = statusWord s from rfl, statusWord_getLsbD_add_three, decide_eq_false (by omega),
    Bool.false_and]

/-- A word of few bits has no higher ones. -/
theorem getLsbD_of_toNat_lt {w : Word} {i k : Nat} (hw : w.toNat < 2 ^ i) (hk : i ≤ k) : w.getLsbD k = false :=
  Nat.testBit_lt_two_pow (lt_of_lt_of_le hw (Nat.pow_le_pow_right (by decide) hk))

/-- What a write of `w` to STATUS clears, bit by bit (R28). -/
theorem statusWord_write (s : State) (w : Word) :
    statusWord (writeCsr .status w s) = statusWord s &&& ~~~(w &&& 6#64) := by
  refine BitVec.eq_of_getLsbD_eq fun k hk => ?_
  rw [BitVec.getLsbD_and, BitVec.getLsbD_not, BitVec.getLsbD_and, decide_eq_true hk, Bool.true_and]
  match k with
  | 0 =>
    rw [show (6#64).getLsbD 0 = false by decide, Bool.and_false, Bool.not_false, Bool.and_true,
      statusWord_getLsbD_zero, statusWord_getLsbD_zero]
    rfl
  | 1 =>
    rw [show (6#64).getLsbD 1 = true by decide, Bool.and_true, statusWord_getLsbD_one, statusWord_getLsbD_one]
    rfl
  | 2 =>
    rw [show (6#64).getLsbD 2 = true by decide, Bool.and_true, statusWord_getLsbD_two, statusWord_getLsbD_two]
    rfl
  | k + 3 =>
    rw [getLsbD_of_toNat_lt (i := 3) (w := 6#64) (by decide) (by omega), Bool.and_false, Bool.not_false, Bool.and_true,
      statusWord_getLsbD_add_three, statusWord_getLsbD_add_three]
    rfl

/-- Settles O12: STATUS bit by bit; the rest of the state does not depend on the two flags. -/
theorem statusWriteOneToClear : Obligations.StatusWriteOneToClear := by
  refine fun s w => ⟨statusWord_write s w, fun m hm => ?_, rfl⟩
  cases m with
  | status => exact absurd rfl hm
  | _ => rfl

/-- CTRL keeps the two lowest bits of what was written (R25). -/
theorem ctrlWord_write (c : Csrs) (w : Word) : ctrlWord (writeCtrl c w) = w &&& 3#64 := by
  have hctrl : (ctrlWord (writeCtrl c w)).toNat = Nat.bit (w.getLsbD 0) (Nat.bit (w.getLsbD 1) 0) := by
    have := bitNat_lt_two (w.getLsbD 0)
    have := bitNat_lt_two (w.getLsbD 1)
    simp only [ctrlWord, writeCtrl, BitVec.toNat_ofNat, ← bitNat_add_double]
    omega
  refine BitVec.eq_of_getLsbD_eq fun k hk => ?_
  rw [BitVec.getLsbD_and, BitVec.getLsbD, hctrl]
  match k with
  | 0 => rw [Nat.testBit_bit_zero, show (3#64).getLsbD 0 = true by decide, Bool.and_true]
  | 1 => rw [Nat.testBit_bit_succ, Nat.testBit_bit_zero, show (3#64).getLsbD 1 = true by decide, Bool.and_true]
  | k + 2 =>
    rw [Nat.testBit_bit_succ, Nat.testBit_bit_succ, Nat.zero_testBit,
      getLsbD_of_toNat_lt (i := 2) (w := 3#64) (by decide) (by omega), Bool.and_false]

/-- Settles O13: CTRL bit by bit; the rest of the state does not depend on its two bits. -/
theorem ctrlWriteKeepsTwoBits : Obligations.CtrlWriteKeepsTwoBits := by
  refine fun s w => ⟨ctrlWord_write s.csr w, fun m hm => ?_, rfl⟩
  cases m with
  | ctrl => exact absurd rfl hm
  | _ => rfl

/-! ### Operands, commands and the interrupt (R38, R39, R120, R124, R283) -/

/-- The five operand registers (R30 to R34). -/
def IsOperand (n : CsrName) : Prop := n = .srcAddr ∨ n = .srcLen ∨ n = .dstAddr ∨ n = .dstCap ∨ n = .count

/-- Each operand register is a field of its own (R38). -/
theorem csrValue_writeCsr_operand {n : CsrName} (hn : IsOperand n) (s : State) (v : Word) (m : CsrName) :
    csrValue (writeCsr n v s) m = if m = n then v else csrValue s m := by
  rcases hn with rfl | rfl | rfl | rfl | rfl <;> cases m <;> rfl

theorem writeCsr_operand_frame {n : CsrName} (hn : IsOperand n) (s : State) (v : Word) :
    writeCsr n v s = { s with csr := (writeCsr n v s).csr } := by
  rcases hn with rfl | rfl | rfl | rfl | rfl <;> rfl

/-- Settles O10: what an operand register, and every other one, reads as after the write. -/
theorem operandCsrReadsBack : Obligations.OperandCsrReadsBack := by
  intro s n v hn
  refine ⟨?_, fun m hm => ?_, writeCsr_operand_frame hn s v⟩
  · rw [csrValue_writeCsr_operand hn, if_pos rfl]
  · rw [csrValue_writeCsr_operand hn, if_neg hm]

theorem writeCsr_cmd_idle {s : State} (h : s.eng.phase = .idle) (w : Word) : writeCsr .cmd w s = startCommand w s := by
  simp only [writeCsr, writeCmd, h]

theorem writeCsr_cmd_run {s : State} (h : s.eng.phase = .run) (w : Word) : writeCsr .cmd w s = dropCommand s := by
  simp only [writeCsr, writeCmd, h]

theorem irq_of_not_done {s : State} (h : s.csr.done = false) : s.irq = false := by
  rw [State.irq, h, Bool.and_false]

/-- Settles O14: in the idle engine the write is `startCommand`, which clears DONE. -/
theorem acceptedCmdWrite : Obligations.AcceptedCmdWrite := by
  intro s w hidle
  rw [writeCsr_cmd_idle hidle]
  exact ⟨rfl, irq_of_not_done (startCommand_csr_done s w)⟩

/-- Settles O16: what each write leaves of IE and DONE. -/
theorem interruptLevel : Obligations.InterruptLevel := by
  intro s w
  refine ⟨rfl, fun hw => irq_of_not_done ?_, fun hidle => ?_, fun hw => ?_, fun hw => ?_, rfl, fun hrun => ?_⟩
  · simp only [writeCsr, writeStatus, hw, Bool.not_true, Bool.and_false]
  · rw [writeCsr_cmd_idle hidle]
    exact irq_of_not_done (startCommand_csr_done s w)
  · simp only [State.irq, writeCsr, writeCtrl, hw, Bool.false_and]
  · simp only [State.irq, writeCsr, writeCtrl, hw, Bool.true_and]
  · rw [writeCsr_cmd_run hrun]
    rfl

/-- The acknowledgement clears DONE and nothing else (R283). -/
theorem acknowledge_eq (s : State) : acknowledge s = { s with csr := { s.csr with done := false } } := by
  have hdone : (2 : Word).getLsbD 1 = true := by decide
  have hdrop : (2 : Word).getLsbD 2 = false := by decide
  simp only [acknowledge, writeStatus, hdone, hdrop, Bool.not_true, Bool.and_false, Bool.not_false, Bool.and_true]

/-- Settles O17: with DONE cleared irq is low. -/
theorem acknowledgeReturns : Obligations.AcknowledgeReturns := by
  intro s
  have hack := acknowledge_eq s
  exact ⟨rfl, irq_of_not_done (by rw [hack]), hack⟩

/-! ### The values after reset (R311) -/

/-- Above the last register the window holds reserved offsets, which read 0 (R22, R23). -/
theorem csrRead_reserved (s : State) {off : Nat} (h : 0x60 ≤ off) : csrRead s (s.params.csrBase + off) 64 = 0 := by
  have hnone : csrReached s.params (s.params.csrBase + off) 64 = none :=
    csrReached_eq_none (Or.inr fun n => by
      have := csrOffset_le n
      simp only [csrAddress]
      omega)
  simp only [csrRead, hnone]

theorem csrValue_powerOn (p : Params) (m : Memory) (n : CsrName) (hid : n ≠ .id) (hctrl : n ≠ .ctrl) :
    csrValue (State.powerOn p m) n = 0 := by
  cases n with
  | id => exact absurd rfl hid
  | ctrl => exact absurd rfl hctrl
  | _ => rfl

/-- Settles O18: the fields of `State.powerOn`; a reserved offset reaches no register. -/
theorem resetValues : Obligations.ResetValues := by
  refine ⟨fun p m => ⟨rfl, rfl, rfl, rfl, csrValue_powerOn p m, fun off hlow _ => ?_, rfl, rfl, rfl, rfl, rfl⟩, rfl⟩
  exact csrRead_reserved (State.powerOn p m) hlow

end Sys2Proof.Machine
end

section
/-! PROOFS. Every command: that it completes, what it leaves alone of the engine and of memory (R42, R43, R70, R130),
and the outcome of a race (R72). -/

namespace Sys2Proof.Machine

/-! ### Completion (R130) -/

theorem errAddrWord_zero (d : Dir) (c : ErrCode) (e : Engine) : errAddrWord d c 0 e = 0 := if_pos (by decide)

theorem progressBytes_eq (d : Dir) (e : Engine) : progressBytes d e = if d = .enc then e.wc else e.rc := by
  cases d <;> rfl

/-- Settles O48: both completions set DONE; the unraced one reports the cursors, and address 0 with OK. -/
theorem everyCommandCompletes : Obligations.EveryCommandCompletes := by
  intro i s hl
  rcases exec_cases i s hl with ⟨hraced, hnext⟩ | ⟨-, t, w, c, a, hnext, hc⟩
  · refine ⟨_, hnext, rfl, rfl, ?_, completeRaced_frame s, fun hunraced => ?_⟩
    · rw [State.irq, completeRaced_csr_ie, completeRaced_csr_done, Bool.and_true]
    · rw [hraced] at hunraced
      cases hunraced
  · have hframe := hc.frame
    obtain ⟨rfl, hok, -, -, -⟩ := hc
    refine ⟨_, hnext, rfl, rfl, ?_, hframe, fun _ => ⟨progressBytes_eq i.dir w.eng, rfl, rfl, fun herr => ?_⟩⟩
    · rw [State.irq, complete_csr_ie, complete_csr_done, Bool.and_true, withWork_csr]
    · rw [complete_csr_errAddr, hok herr, errAddrWord_zero]

/-- A byte of the source region is none of the destination region where the two do not overlap (R123). -/
theorem not_has_of_apart {r r' : Range} {a : Nat} (h : r.meets r' = false) (ha : r.has a = true) :
    a < r'.base ∨ r'.base + r'.size ≤ a := by
  rw [Range.has_iff] at ha
  by_contra hin
  have : r.meets r' = true := (Range.meets_iff _ _).2 (by omega)
  rw [h] at this
  cases this

/-- A completed command wrote no byte of its source region. -/
theorem Completion.read_source {d : Dir} {s t : State} {w : Work} {c : ErrCode} {a : Nat} (h : Completion d s t w c a)
    {x : Nat} (hx : (srcRegion d s.eng.latch).has x = true) : w.mem.read x = s.mem.read x := by
  rcases h.apart with hsame | ⟨-, hapart⟩
  · rw [hsame]
  · exact h.within.read x (not_has_of_apart hapart hx)

/-- Only legal parameters give a command a meaning (R10). -/
theorem exec_legal {i : Instr} {s t : State} (h : exec i s = .next t) : s.params.legal = true := by
  by_contra hl
  rw [exec_illegal_params i s (by simpa using hl)] at h
  cases h

/-- Settles O50: a raced command frees the destination region alone, and any other one works within it. -/
theorem engineWritesOnlyDestination : Obligations.EngineWritesOnlyDestination := by
  intro i s t h
  rcases exec_cases i s (exec_legal h) with ⟨hraced, hnext⟩ | ⟨-, t', w, c, a, hnext, hc⟩
  · obtain rfl := Host.Outcome.next.inj (hnext.symm.trans h)
    refine ⟨completeRaced_frame s, completeRaced_read_other s, fun hunraced => ?_⟩
    rw [hraced] at hunraced
    cases hunraced
  · obtain rfl := Host.Outcome.next.inj (hnext.symm.trans h)
    have hmem : t'.mem = w.mem := by rw [hc.eq]; rfl
    rw [hmem]
    exact ⟨hc.frame, hc.within.read, fun _ x hx => hc.read_source hx⟩

/-! ### The registers a command leaves alone (R42, R43) -/

/-- A relation that chains holds along two pieces in a row, whether or not the first one raises. -/
theorem Res.after_bind {α β : Type} {R : Work → Work → Prop} (htrans : ∀ {a b c}, R a b → R b c → R a c) {w : Work}
    {x : Res α} {f : α → Work → Res β} (hx : R w x.after) (hf : ∀ a w', R w' (f a w').after) :
    R w (x.bind f).after := by
  cases x with
  | ok a w' => exact htrans hx (hf a w')
  | raise c n w' => exact hx

/-- The registers no encode changes. -/
structure EncKept (w w' : Work) : Prop where
  rc : w'.eng.rc = w.eng.rc
  p : w'.eng.p = w.eng.p
  acc : w'.eng.acc = w.eng.acc
  sh : w'.eng.sh = w.eng.sh
  hdr : w'.eng.hdr = w.eng.hdr

theorem EncKept.refl (w : Work) : EncKept w w := ⟨rfl, rfl, rfl, rfl, rfl⟩

theorem EncKept.trans {a b c : Work} (h : EncKept a b) (h' : EncKept b c) : EncKept a c :=
  ⟨h'.rc.trans h.rc, h'.p.trans h.p, h'.acc.trans h.acc, h'.sh.trans h.sh, h'.hdr.trans h.hdr⟩

theorem EncKept.bind {α β : Type} {w : Work} {x : Res α} {f : α → Work → Res β} (hx : EncKept w x.after)
    (hf : ∀ a w', EncKept w' (f a w').after) : EncKept w (x.bind f).after :=
  Res.after_bind (R := EncKept) EncKept.trans hx hf

theorem busWrites_after_eng (p : Params) (a : Nat) (bs : List Byte) (w : Work) :
    (busWrites p a bs w).after.eng = w.eng := by
  obtain ⟨j, -, h⟩ := busWrites_after p a bs w
  rw [h]

theorem readElem_encKept (p : Params) (e : Nat) (w : Work) : EncKept w (readElem p e w).after := by
  rw [readElem_after]
  exact EncKept.refl w

theorem emitGroup_encKept (p : Params) (g : List Byte) (w : Work) : EncKept w (emitGroup p g w).after := by
  have hg : EncKept w { w with eng := { w.eng with g := g } } := ⟨rfl, rfl, rfl, rfl, rfl⟩
  simp only [emitGroup]
  split
  · exact hg
  · refine EncKept.bind ?_ fun _ w' => ⟨rfl, rfl, rfl, rfl, rfl⟩
    have heng := busWrites_after_eng p (w.eng.latch.dst.toNat + w.eng.wc.toNat) g
      { w with eng := { w.eng with g := g } }
    exact ⟨by rw [heng], by rw [heng], by rw [heng], by rw [heng], by rw [heng]⟩

theorem setElements_encKept (n : Nat) (w : Work) : EncKept w (setElements n w) := ⟨rfl, rfl, rfl, rfl, rfl⟩

theorem encodeLoop_encKept (p : Params) (grp : Word → List Byte) (n e : Nat) (w : Work) :
    EncKept w (encodeLoop p grp n e w).after := by
  induction n generalizing e w with
  | zero => exact EncKept.refl w
  | succ n ih =>
    exact (readElem_encKept p e w).bind fun _ w => (emitGroup_encKept p _ w).bind fun _ w =>
      (setElements_encKept _ w).trans (ih _ _)

theorem encNanologLoop_encKept (p : Params) (n e : Nat) (w : Work) : EncKept w (encNanologLoop p n e w).after := by
  induction n using Nat.twoStepInduction generalizing e w with
  | zero => exact EncKept.refl w
  | one =>
    exact (readElem_encKept p e w).bind fun _ w => (emitGroup_encKept p _ w).bind fun _ w => setElements_encKept _ w
  | more n ih _ =>
    exact (readElem_encKept p e w).bind fun _ w => (readElem_encKept p _ w).bind fun _ w =>
      (emitGroup_encKept p _ w).bind fun _ w => (setElements_encKept _ w).trans (ih _ _)

theorem encBody_encKept (p : Params) (c : Codec) (n e : Nat) (w : Work) : EncKept w (encBody p c n e w).after := by
  cases c with
  | nanolog => exact encNanologLoop_encKept p n e w
  | _ => exact encodeLoop_encKept p _ n e w

/-- The registers a decode of this codec leaves alone: only LEB128 accumulates, and only NANOLOG has a header. -/
structure DecKept (c : Codec) (w w' : Work) : Prop where
  wc : w'.eng.wc = w.eng.wc
  leb : c ≠ .leb128 → w'.eng.acc = w.eng.acc ∧ w'.eng.sh = w.eng.sh
  hdr : c ≠ .nanolog → w'.eng.hdr = w.eng.hdr

section

variable {c : Codec}

theorem DecKept.refl (w : Work) : DecKept c w w := ⟨rfl, fun _ => ⟨rfl, rfl⟩, fun _ => rfl⟩

theorem DecKept.of_eng {w w' : Work} (h : w'.eng = w.eng) : DecKept c w w' := by
  refine ⟨?_, fun _ => ⟨?_, ?_⟩, fun _ => ?_⟩ <;> rw [h]

theorem DecKept.trans {u v w : Work} (h : DecKept c u v) (h' : DecKept c v w) : DecKept c u w :=
  ⟨h'.wc.trans h.wc, fun hc => ⟨(h'.leb hc).1.trans (h.leb hc).1, (h'.leb hc).2.trans (h.leb hc).2⟩,
    fun hc => (h'.hdr hc).trans (h.hdr hc)⟩

theorem DecKept.bind {α β : Type} {w : Work} {x : Res α} {f : α → Work → Res β} (hx : DecKept c w x.after)
    (hf : ∀ a w', DecKept c w' (f a w').after) : DecKept c w (x.bind f).after :=
  Res.after_bind (R := DecKept c) DecKept.trans hx hf

theorem rdByte_decKept (p : Params) (w : Work) : DecKept c w (rdByte p w).after := by
  rcases rdByte_after p w with h | ⟨b, h⟩ <;> rw [h]
  · exact DecKept.refl w
  · exact ⟨rfl, fun _ => ⟨rfl, rfl⟩, fun _ => rfl⟩

theorem rdBytes_decKept (p : Params) (n : Nat) (w : Work) : DecKept c w (rdBytes p n w).after := by
  induction n generalizing w with
  | zero => exact DecKept.refl w
  | succ n ih => exact (rdByte_decKept p w).bind fun _ w => (ih w).bind fun _ w => DecKept.refl w

theorem storeElem_decKept (p : Params) (e : Nat) (v : Word) (w : Work) : DecKept c w (storeElem p e v w).after :=
  DecKept.of_eng (busWrites_after_eng p _ _ w)

theorem startGroup_decKept (w : Work) : DecKept c w (startGroup w) := ⟨rfl, fun _ => ⟨rfl, rfl⟩, fun _ => rfl⟩

theorem commit_decKept (n : Nat) (w : Work) : DecKept c w (setElements n (commitGroup w)) :=
  ⟨rfl, fun _ => ⟨rfl, rfl⟩, fun _ => rfl⟩

theorem strictCheck_decKept (w : Work) : DecKept c w (strictCheck w).after := by
  rw [strictCheck_after]
  exact DecKept.refl w

theorem decGroupPrefixVarint_decKept (p : Params) (w : Work) : DecKept c w (decGroupPrefixVarint p w).after := by
  refine (rdByte_decKept p w).bind fun b w => ?_
  split <;> exact (rdBytes_decKept p _ w).bind fun _ w => DecKept.refl w

theorem decGroupBucket_decKept (T : List BucketRow) (p : Params) (w : Work) :
    DecKept c w (decGroupBucket T p w).after := by
  refine (rdByte_decKept p w).bind fun b w => ?_
  cases rowOf T b.toNat with
  | none => exact DecKept.refl w
  | some r => exact (rdBytes_decKept p _ w).bind fun _ w => DecKept.refl w

end

/-- A LEB128 decode may change i.ACC and i.SH, and no other register that a decode leaves alone. -/
theorem DecKept.of_leb128 {w w' : Work} (hwc : w'.eng.wc = w.eng.wc) (hhdr : w'.eng.hdr = w.eng.hdr) :
    DecKept .leb128 w w' := ⟨hwc, fun h => absurd rfl h, fun _ => hhdr⟩

theorem decLebLoop_decKept (p : Params) (more : Nat) (w : Work) : DecKept .leb128 w (decLebLoop p more w).after := by
  have hacc : ∀ b w, DecKept .leb128 w (lebAccumulate b w) := fun _ _ => .of_leb128 rfl rfl
  have hshift : ∀ w, DecKept .leb128 w (lebShift w) := fun _ => .of_leb128 rfl rfl
  induction more generalizing w with
  | zero =>
    unfold decLebLoop
    refine (rdByte_decKept p w).bind fun b w => ?_
    split <;> exact hacc b w
  | succ k ih =>
    unfold decLebLoop
    refine (rdByte_decKept p w).bind fun b w => ?_
    split
    · exact hacc b w
    · exact ((hacc b w).trans (hshift _)).trans (ih (lebShift (lebAccumulate b w)))

/-- A NANOLOG decode may change i.HDR (R43). -/
theorem rdHeader_decKept (p : Params) (w : Work) : DecKept .nanolog w (rdHeader p w).after :=
  (rdByte_decKept p w).bind fun _ _ => ⟨rfl, fun _ => ⟨rfl, rfl⟩, fun h => absurd rfl h⟩

theorem decNibbleLen_decKept (n : Nat) (w : Work) : DecKept .nanolog w (decNibbleLen n w).after := by
  rw [decNibbleLen_after]
  exact DecKept.refl w

theorem rdValue_decKept (p : Params) (n : Nat) (w : Work) : DecKept .nanolog w (rdValue p n w).after :=
  (rdBytes_decKept p n w).bind fun _ w => DecKept.refl w

theorem decSingle_decKept (p : Params) (w : Work) : DecKept .nanolog w (decSingle p w).after :=
  (rdHeader_decKept p w).bind fun _ w => (decNibbleLen_decKept _ w).bind fun _ w => rdValue_decKept p _ w

theorem decPair_decKept (p : Params) (w : Work) : DecKept .nanolog w (decPair p w).after :=
  (rdHeader_decKept p w).bind fun _ w => (decNibbleLen_decKept _ w).bind fun _ w =>
    (decNibbleLen_decKept _ w).bind fun _ w => (rdValue_decKept p _ w).bind fun _ w =>
      (rdValue_decKept p _ w).bind fun _ w => DecKept.refl w

theorem elementReader_decKept (p : Params) (c : Codec) (w : Work) : DecKept c w (elementReader p c w).after := by
  cases c with
  | leb128 =>
    have hclear : DecKept .leb128 w { w with eng := { w.eng with acc := 0, sh := 0 } } := .of_leb128 rfl rfl
    exact hclear.trans (decLebLoop_decKept p 9 _)
  | prefixVarint => exact decGroupPrefixVarint_decKept p w
  | lesqlite | lesqlite2 => exact decGroupBucket_decKept _ p w
  | nanolog => exact decSingle_decKept p w

theorem decodeLoop_decKept (p : Params) (c : Codec) (n e : Nat) (w : Work) :
    DecKept c w (decodeLoop p (elementReader p c) n e w).after := by
  induction n generalizing e w with
  | zero => exact DecKept.refl w
  | succ n ih =>
    exact (startGroup_decKept w).trans <| (elementReader_decKept p c _).bind fun v w =>
      (storeElem_decKept p e v w).bind fun _ w => (commit_decKept _ w).trans (ih _ _)

theorem decNanologLoop_decKept (p : Params) (n e : Nat) (w : Work) :
    DecKept .nanolog w (decNanologLoop p n e w).after := by
  induction n using Nat.twoStepInduction generalizing e w with
  | zero => exact DecKept.refl w
  | one =>
    exact (startGroup_decKept w).trans <| (decSingle_decKept p _).bind fun v w =>
      (storeElem_decKept p e v w).bind fun _ w => commit_decKept _ w
  | more n ih _ =>
    exact (startGroup_decKept w).trans <| (decPair_decKept p _).bind fun ab w =>
      (storeElem_decKept p e ab.1 w).bind fun _ w => (storeElem_decKept p (e + 1) ab.2 w).bind fun _ w =>
        (commit_decKept _ w).trans (ih _ _)

theorem decBody_decKept (p : Params) (c : Codec) (n e : Nat) (w : Work) : DecKept c w (decBody p c n e w).after := by
  cases c with
  | nanolog => exact decNanologLoop_decKept p n e w
  | _ => exact decodeLoop_decKept p _ n e w

/-- An unraced command's registers, but for the phase, are those its start checks and its work leave. -/
theorem runCommand_work {legal : Bool} {d : Dir} {body : Params → Work → Res Unit} {s t : State}
    (hunraced : s.raced d = false) (h : runCommand legal d body s = .next t) :
    t.eng = { ((startChecks s.params legal d ⟨s.eng, s.mem⟩).bind fun _ w => body s.params w).after.eng with
      phase := .idle } := by
  obtain ⟨-, ⟨hraced, -⟩ | ⟨-, c, a, rfl⟩⟩ := runCommand_cases legal d body s t h
  · rw [hunraced] at hraced
    cases hraced
  · rfl

theorem exec_encKept {c : Codec} {s t : State} (hunraced : s.raced .enc = false)
    (h : exec (instrOf c .enc) s = .next t) : EncKept ⟨s.eng, s.mem⟩ ⟨t.eng, t.mem⟩ := by
  rw [exec_enc] at h
  have hkept : EncKept ⟨s.eng, s.mem⟩ ((startChecks s.params true .enc ⟨s.eng, s.mem⟩).bind fun _ w =>
      encBody s.params c w.eng.latch.cnt.toNat 0 w).after :=
    EncKept.bind (by rw [startChecks_after]; exact EncKept.refl _) fun _ w => encBody_encKept _ _ _ _ w
  have heng := runCommand_work hunraced h
  exact ⟨by rw [heng, ← hkept.rc], by rw [heng, ← hkept.p], by rw [heng, ← hkept.acc], by rw [heng, ← hkept.sh],
    by rw [heng, ← hkept.hdr]⟩

theorem exec_decKept {c : Codec} {s t : State} (hunraced : s.raced .dec = false)
    (h : exec (instrOf c .dec) s = .next t) : DecKept c ⟨s.eng, s.mem⟩ ⟨t.eng, t.mem⟩ := by
  rw [exec_dec] at h
  have hkept : DecKept c ⟨s.eng, s.mem⟩ ((startChecks s.params true .dec ⟨s.eng, s.mem⟩).bind fun _ w =>
      (decBody s.params c w.eng.latch.cnt.toNat 0 w).bind fun _ w => strictCheck w).after :=
    DecKept.bind (by rw [startChecks_after]; exact DecKept.refl _) fun _ w =>
      (decBody_decKept _ _ _ _ w).bind fun _ w => strictCheck_decKept w
  have heng := runCommand_work hunraced h
  exact ⟨by rw [heng, ← hkept.wc], fun hc => ⟨by rw [heng, ← (hkept.leb hc).1], by rw [heng, ← (hkept.leb hc).2]⟩,
    fun hc => by rw [heng, ← hkept.hdr hc]⟩

/-- Settles O49: the registers kept by every piece of an encode, and of a decode by its codec. -/
theorem datapathFrame : Obligations.DatapathFrame := by
  intro i s t hunraced h
  rw [← instrOf_codec_dir i] at h
  cases hd : i.dir with
  | enc =>
    rw [hd] at hunraced h
    obtain ⟨hrc, hp, hacc, hsh, hhdr⟩ := exec_encKept hunraced h
    exact ⟨fun _ => ⟨hrc, hp⟩, nofun, fun _ => ⟨hacc, hsh⟩, fun _ => hhdr⟩
  | dec =>
    rw [hd] at hunraced h
    obtain ⟨hwc, hleb, hhdr⟩ := exec_decKept hunraced h
    have hi := instrOf_codec_dir i
    rw [hd] at hi
    refine ⟨nofun, fun _ => hwc, fun hne => hleb fun hc => hne ?_, fun hne => hhdr fun hc => hne ?_⟩
    · rw [← hi, hc]; rfl
    · rw [← hi, hc]; rfl

/-! ### Races and host reads (R44, R68, R72, R74, R321) -/

/-- A command is raced by a write into its regions, or by a device that shares a byte with one of them (R44, R68). -/
theorem raced_iff (d : Dir) (s : State) : s.raced d = true ↔
    (s.eng.race = true ∨ ∃ r ∈ s.params.sideEffects,
      r.meets (srcRegion d s.eng.latch) = true ∨ r.meets (dstRegion s.eng.latch) = true) := by
  simp only [State.raced, touchesDevice, Bool.or_eq_true, List.any_eq_true]

theorem exec_raced {i : Instr} {s : State} (hl : s.params.legal = true) (h : s.raced i.dir = true) :
    exec i s = .next (completeRaced s) := by
  rcases exec_cases i s hl with ⟨-, hnext⟩ | ⟨hunraced, -⟩
  · exact hnext
  · rw [h] at hunraced
    cases hunraced

theorem access_memWrite {a : Nat} {s : State} (ha : a < s.params.memTop) (b : Byte) :
    access (.memWrite a b) s = .next (memWrite a b s) := if_pos ha

theorem access_memRead {a : Nat} {s : State} (ha : a < s.params.memTop) :
    access (.memRead a) s = .next (memRead a s) := if_pos ha

/-- Settles O52: the write's effect on i.RACE, the raced completion, and which bytes a read may rely on. -/
theorem raceRule : Obligations.RaceRule := by
  refine ⟨fun s a b ha => access_memWrite ha b, fun i s hl hrace => ?_,
    fun s a ha => ⟨fun hhidden => ?_, fun hseen => ?_⟩, fun s a hidle hdone ha => ?_⟩
  · exact ⟨_, exec_raced hl ((raced_iff i.dir s).2 hrace), rfl, rfl, completeRaced_frame s, rfl, rfl, rfl, rfl,
      completeRaced_read_other s, completeRaced_read_in s⟩
  · rw [access_memRead ha, memRead_free ((readIsFree_iff s a).2 hhidden)]
  · have hstored : readIsFree s a = false := by rw [← Bool.not_eq_true, readIsFree_iff]; exact hseen
    rw [access_memRead ha, memRead_stored hstored]
  · refine ⟨readCsr (csrAddress s.params .status) 64 s, rfl, rfl, ?_⟩
    rw [access_memRead (s := readCsr (csrAddress s.params .status) 64 s) ha,
      memRead_stored (readIsFree_after_done hdone hidle a), readCsr_mem]

end Sys2Proof.Machine
end

section
/-! PROOFS. The host's step: its pending byte writes and the statements of its program (R96, R322). -/

namespace Sys2Proof.Machine


/-- Whenever the host moves, the step is the host's, on the state with its turn taken (R322; log 5). -/
theorem step_eq_hostStep {s : State} {rest : List Turn} (hl : s.params.legal = true)
    (h : s.turns = .host :: rest ∨ (s.turns = [] ∧ rest = [] ∧ s.eng.phase = .idle)) :
    step s = hostStep { s with turns := rest } := by
  rw [step_eq s hl]
  rcases h with hturns | ⟨hturns, rfl, hidle⟩
  · rw [hturns]
    rfl
  · have hs : s = { s with turns := [] } := by rw [← hturns]
    simp only [hturns, defaultTurn, hidle]
    exact congrArg hostStep hs

theorem hostStep_pending {s : State} {acc : Access} {more : List Access} (h : s.host.pending = acc :: more) :
    hostStep s = access acc { s with host := { s.host with pending := more } } := by
  simp only [hostStep, h]

theorem hostStep_ended {s : State} (h : s.host.pending = []) (hpc : s.host.prog[s.host.pc]? = none) :
    hostStep s = .next s := by
  simp only [hostStep, h, hpc]

theorem hostStep_statement {s : State} {st : HostStmt} (h : s.host.pending = [])
    (hpc : s.host.prog[s.host.pc]? = some st) : hostStep s = .next (hostStatement st s) := by
  simp only [hostStep, h, hpc]

theorem hostStatement_csrw (r : CsrName) (v : Word) (s : State) :
    hostStatement (.csrw r v) s = writeCsr r v (nextStatement s) :=
  csrWrite_csrAddress r v (nextStatement s)

theorem csrValue_nextStatement (s : State) (r : CsrName) : csrValue (nextStatement s) r = csrValue s r := by
  cases r <;> rfl

/-- A read of a CSR at its own address: its value, and the acquire where it is STATUS with DONE = 1 (R23, R74). -/
theorem readCsr_csrAddress (s : State) (r : CsrName) : readCsr (csrAddress s.params r) 64 s = { s with
      host := { s.host with rdata := csrValue s r }
      unseen := if r = .status ∧ s.csr.done = true then [] else s.unseen } := by
  rw [readCsr, csrRead_csrAddress, unseenAfterRead_csrAddress]

theorem hostStatement_csrr (t : Nat) (r : CsrName) (s : State) : hostStatement (.csrr t r) s = { s with
      host := { s.host with
        pc := s.host.pc + 1, vars := setVar s.host.vars t (csrValue s r), rdata := csrValue s r }
      unseen := if r = .status ∧ s.csr.done = true then [] else s.unseen } := by
  rw [hostStatement, csrRead_csrAddress, ← nextStatement_params s, readCsr_csrAddress, csrValue_nextStatement]
  rfl

theorem hostStatement_bz (t k target : Nat) (s : State) : hostStatement (.bz t k target) s = { s with
      host := { s.host with pc := if (getVar s.host.vars t).getLsbD k = false then target else s.host.pc + 1 } } := by
  simp only [hostStatement]
  split <;> rfl

/-- Settles O58: what the host does next, statement by statement. -/
theorem hostStatementSteps : Obligations.HostStatementSteps := by
  intro s rest hl hturns u
  rw [step_eq_hostStep hl hturns]
  refine ⟨fun acc more hp => hostStep_pending (s := u) hp, fun hp hpc => hostStep_ended (s := u) hp hpc,
    fun st hp hpc => ?_⟩
  rw [hostStep_statement (s := u) hp hpc]
  cases st with
  | csrw r v => exact congrArg _ (hostStatement_csrw r v u)
  | csrr t r =>
    have hvalue : csrValue u r = csrValue s r := by cases r <;> rfl
    rw [hostStatement_csrr, hvalue]
    refine ⟨_, rfl, ?_, rfl, fun v hv => ?_, rfl, rfl⟩
    · rw [getVar_setVar, if_pos rfl]
    · rw [getVar_setVar, if_neg hv]
  | bz t k target => exact congrArg _ (hostStatement_bz t k target u)
  | memw | memw64 | halt => rfl

end Sys2Proof.Machine
end

section
/-! PROOFS. A step as the meaning of its decoded command (R121, R322), the elements of a sequence in memory (R63), and
the memory statements of the host (R96). -/

namespace Sys2Proof.Machine

/-! ### The step of a running command (R121, R322) -/

theorem engineStep_of_decode {s : State} {i : Instr} (h : decode (fetchCommand s) = .ok i) :
    engineStep s = exec i s := by
  simp only [engineStep, h]

/-- Where no turn is scheduled and a command runs, the engine moves (R320; log 5). -/
theorem step_run_unscheduled {s : State} (hl : s.params.legal = true) (hrun : s.eng.phase = .run)
    (hturns : s.turns = []) : step s = engineStep s := by
  rw [step_eq s hl]
  simp only [hturns, defaultTurn, hrun]

theorem step_run_engineTurn {s : State} {rest : List Turn} (hl : s.params.legal = true) (hrun : s.eng.phase = .run)
    (hturns : s.turns = .engine :: rest) : step s = engineStep { s with turns := rest } := by
  rw [step_eq s hl]
  simp only [hturns, performTurn, engineTurn, hrun]

/-- Settles O3: either way the engine moves, and its step is the meaning of what the latch decodes to. -/
theorem stepRunsDecodedCommand : Obligations.StepRunsDecodedCommand := by
  intro s i hl hrun hdec
  constructor
  · intro hturns
    exact (step_run_unscheduled hl hrun hturns).trans (engineStep_of_decode hdec)
  · intro rest hturns
    exact (step_run_engineTurn hl hrun hturns).trans (engineStep_of_decode (s := { s with turns := rest }) hdec)

/-! ### The bytes of a sequence, one by one (R63) -/

theorem Memory.readBytes_getElem? (m : Memory) (a n j : Nat) (hj : j < n) :
    (m.readBytes a n)[j]? = some (m.read (a + j)) := by
  induction n generalizing a j with
  | zero => omega
  | succ n ih =>
    cases j with
    | zero => rfl
    | succ j => rw [readBytes, List.getElem?_cons_succ, ih (a + 1) j (by omega), Nat.add_right_comm, Nat.add_assoc]

/-- Byte 8e + j of a sequence is byte j of its element e. -/
theorem elementBytes_getElem? (vs : List Word) (e j : Nat) (hj : j < 8) (he : e < vs.length) :
    (elementBytes vs)[8 * e + j]? = some (BitVec.ofNat 8 (vs[e].toNat / 256 ^ j)) := by
  induction vs generalizing e with
  | nil => exact absurd he (Nat.not_lt_zero e)
  | cons v vs ih =>
    rw [elementBytes]
    cases e with
    | zero =>
      rw [List.getElem?_append_left (by rw [bytesLE_length]; omega), Nat.mul_zero, Nat.zero_add,
        bytesLE_getElem? 8 v.toNat j hj, List.getElem_cons_zero]
    | succ e =>
      have hplace : 8 * (e + 1) + j - 8 = 8 * e + j := by omega
      rw [List.getElem?_append_right (by rw [bytesLE_length]; omega), bytesLE_length, hplace,
        ih e (Nat.lt_of_succ_lt_succ he), List.getElem_cons_succ]

/-- Settles O21: the bytes written read back as a run, so the elements do, and each byte of the run is pinned. -/
theorem elementLayout : Obligations.ElementLayout := by
  intro m a vs hwf m'
  have hrun : m'.readBytes a (8 * vs.length) = elementBytes vs := by
    rw [← elementBytes_length]
    exact Memory.readBytes_writeBytes_same m a (elementBytes vs) hwf
  refine ⟨elementsFrom_of_bytes m' a vs 0 hrun, fun e j hj he => ?_⟩
  have hbyte : m'.read (a + 8 * e + j) = BitVec.ofNat 8 (vs[e].toNat / 256 ^ j) := by
    have hread := Memory.readBytes_getElem? m' a (8 * vs.length) (8 * e + j) (by omega)
    rw [hrun, elementBytes_getElem? vs e j hj he, ← Nat.add_assoc] at hread
    exact (Option.some.inj hread).symm
  rw [hbyte, BitVec.toNat_ofNat]

/-! ### The memory statements of the host (R96) -/

theorem core_run_succ_of_step {s t : State} (h : step s = .next t) (k : Nat) : core.run (k + 1) s = core.run k t := by
  have hcore : core.step s = .next t := h
  simp only [Host.Core.run, hcore]

/-- Where no turn is scheduled and the engine is idle, the host moves (R320; log 5). -/
theorem step_idle_unscheduled {s : State} (hl : s.params.legal = true) (hidle : s.eng.phase = .idle)
    (hturns : s.turns = []) : step s = hostStep s := by
  rw [step_eq_hostStep hl (Or.inr ⟨hturns, rfl, hidle⟩), ← hturns]

/-- An idle engine's regions are no command's, so no race starts and the byte is all that changes (R44, R72). -/
theorem access_memWrite_idle {a : Nat} {s : State} (b : Byte) (ha : a < s.params.memTop) (hidle : s.eng.phase = .idle) :
    access (.memWrite a b) s = .next { s with mem := s.mem.write a b } := by
  rw [access_memWrite ha, memWrite_idle a b s hidle]

/-- With the engine idle, a pending byte write is one step and changes that byte alone (R72, R96). -/
theorem step_pendingWrite {s : State} {a : Nat} {b : Byte} {more : List Access} (hl : s.params.legal = true)
    (hidle : s.eng.phase = .idle) (hturns : s.turns = []) (hp : s.host.pending = .memWrite a b :: more)
    (ha : a < s.params.memTop) :
    step s = .next { s with mem := s.mem.write a b, host := { s.host with pending := more } } := by
  rw [step_idle_unscheduled hl hidle hturns, hostStep_pending hp]
  exact access_memWrite_idle b ha hidle

/-- The pending bytes of a `memw` are written in one step each, and nothing else changes (R96). -/
theorem run_byteWrites (bs : List Byte) (s : State) (a : Nat) (hl : s.params.legal = true) (hidle : s.eng.phase = .idle)
    (hturns : s.turns = []) (hp : s.host.pending = byteWrites a bs) (ha : a + bs.length ≤ s.params.memTop) :
    core.run bs.length s =
      .next { s with mem := s.mem.writeBytes a bs, host := { s.host with pending := [] } } := by
  induction bs generalizing s a with
  | nil =>
    have hnone : s.host.pending = [] := hp
    have hs : s = { s with host := { s.host with pending := [] } } := by rw [← hnone]
    exact congrArg _ hs
  | cons b bs ih =>
    rw [List.length_cons] at ha
    rw [List.length_cons, core_run_succ_of_step (step_pendingWrite hl hidle hturns hp (by omega))]
    exact ih _ (a + 1) hl hidle hturns rfl (by show a + 1 + bs.length ≤ s.params.memTop; omega)

/-- Starting a `memw` or a `memw64` is one step, which queues its bytes (R96). -/
theorem step_startWrites {s : State} {a : Nat} {bs : List Byte} {vs : List Word} (hl : s.params.legal = true)
    (hidle : s.eng.phase = .idle) (hturns : s.turns = []) (hp : s.host.pending = [])
    (hst : s.host.prog[s.host.pc]? = some (.memw a bs) ∨
      (s.host.prog[s.host.pc]? = some (.memw64 a vs) ∧ bs = elementBytes vs)) :
    step s = .next (queueWrites (byteWrites a bs) (nextStatement s)) := by
  rw [step_idle_unscheduled hl hidle hturns]
  rcases hst with hmemw | ⟨hmemw64, rfl⟩
  · exact hostStep_statement hp hmemw
  · exact hostStep_statement hp hmemw64

/-- A run of bytes written into canonical memory reads back, and every other byte keeps its value (R60). -/
theorem wrote_of_writeBytes {s t : State} {a : Nat} {bs : List Byte} (h : t.mem = s.mem.writeBytes a bs) :
    Wrote s t a bs where
  bytes hwf := by rw [h, Memory.readBytes_writeBytes_same _ _ _ hwf]
  rest x hx := by rw [h, Memory.read_writeBytes_other _ _ _ _ hx]

/-- Settles O59: one step queues the bytes, then each step writes the next one, by induction on the bytes. -/
theorem hostMemoryStatements : Obligations.HostMemoryStatements := by
  intro s a bs vs hl hidle hturns hp htop hst
  have hrun := run_byteWrites bs (queueWrites (byteWrites a bs) (nextStatement s)) a hl hidle hturns rfl htop
  refine ⟨{ s with mem := s.mem.writeBytes a bs, host := { s.host with pc := s.host.pc + 1 } }, ?_,
    wrote_of_writeBytes rfl, rfl⟩
  have hdone : s.host = { s.host with pending := [] } := by rw [← hp]
  rw [Nat.add_comm, core_run_succ_of_step (step_startWrites hl hidle hturns hp hst), hrun, hdone]
  rfl

end Sys2Proof.Machine
end

section
/-! PROOFS. Command words: decoding and encoding agree in both directions (R91 to R93), what an illegal word does (R271),
and the pseudo-instructions of the host's assembly (R97). -/

namespace Sys2Proof

open Sys2Proof.Machine

/-! ### The fields of a word (R91) -/

theorem codecField_toNat (w : Word) : (codecField w).toNat = w.toNat % 16 := by
  rw [codecField, BitVec.extractLsb'_toNat, Nat.shiftRight_zero]

theorem dirField_toNat (w : Word) : (dirField w).toNat = w.toNat / 16 % 2 := by
  rw [dirField, BitVec.extractLsb'_toNat, Nat.shiftRight_eq_div_pow]

theorem rsvdField_toNat (w : Word) : (rsvdField w).toNat = w.toNat / 32 := by
  have hlt := w.isLt
  rw [rsvdField, BitVec.extractLsb'_toNat, Nat.shiftRight_eq_div_pow]
  omega

theorem rsvdField_eq_zero_iff (w : Word) : rsvdField w = 0 ↔ w.toNat / 32 = 0 := by
  rw [← rsvdField_toNat, ← BitVec.toNat_inj]
  rfl

/-- A word as a number: each field by its place. -/
theorem wordOf_toNat (f : CmdFields) :
    (wordOf f).toNat = 32 * f.rsvd.toNat + 16 * f.dir.toNat + f.codec.toNat := by
  rw [wordOf, BitVec.toNat_append, BitVec.toNat_append, ← Nat.shiftLeft_add_eq_or_of_lt f.dir.isLt,
    ← Nat.shiftLeft_add_eq_or_of_lt f.codec.isLt, Nat.shiftLeft_eq, Nat.shiftLeft_eq]
  omega

@[simp] theorem wordOf_fieldsOf (w : Word) : wordOf (fieldsOf w) = w := by
  apply BitVec.eq_of_toNat_eq
  rw [wordOf_toNat]
  simp only [fieldsOf, rsvdField_toNat, dirField_toNat, codecField_toNat]
  omega

@[simp] theorem fieldsOf_wordOf (f : CmdFields) : fieldsOf (wordOf f) = f := by
  have hcodec := f.codec.isLt
  have hdir := f.dir.isLt
  have hw := wordOf_toNat f
  have hr : rsvdField (wordOf f) = f.rsvd := BitVec.eq_of_toNat_eq (by rw [rsvdField_toNat]; omega)
  have hd : dirField (wordOf f) = f.dir := BitVec.eq_of_toNat_eq (by rw [dirField_toNat]; omega)
  have hc : codecField (wordOf f) = f.codec := BitVec.eq_of_toNat_eq (by rw [codecField_toNat]; omega)
  rw [fieldsOf, hr, hd, hc]

/-! ### Decoding (R92, R93) -/

theorem codecOf_eq_some_iff (x : BitVec 4) (c : Codec) : codecOf x = some c ↔ x = codecNumber c := by
  cases c <;> revert x <;> decide

/-- A CODEC value is some codec's number exactly when it is not reserved (R91). -/
theorem exists_codecNumber_iff (x : BitVec 4) : (∃ c, x = codecNumber c) ↔ x.toNat ≤ 4 := by
  constructor
  · rintro ⟨c, rfl⟩
    cases c <;> decide
  · intro hx
    have hsome : (codecOf x).isSome = true := by revert x; decide
    obtain ⟨c, hc⟩ := Option.isSome_iff_exists.1 hsome
    exact ⟨c, (codecOf_eq_some_iff x c).1 hc⟩

theorem dirOf_eq_iff (w : Word) (d : Dir) : dirOf w = d ↔ dirField w = dirNumber d := by
  rw [dirOf]
  generalize dirField w = x
  cases d <;> revert x <;> decide

theorem instrOf_eq_iff (c : Codec) (d : Dir) (i : Instr) : instrOf c d = i ↔ c = i.codec ∧ d = i.dir := by
  constructor
  · rintro rfl
    cases c <;> cases d <;> exact ⟨rfl, rfl⟩
  · rintro ⟨rfl, rfl⟩
    exact instrOf_codec_dir i

/-- A word selects a command exactly when its fields are the command's (R91, R93). -/
theorem decode_eq_ok_iff (w : Word) (i : Instr) :
    decode w = .ok i ↔ fieldsOf w = ⟨codecNumber i.codec, dirNumber i.dir, 0⟩ := by
  rw [fieldsOf, CmdFields.mk.injEq, ← codecOf_eq_some_iff, ← dirOf_eq_iff, decode]
  by_cases hr : rsvdField w = 0
  · rw [if_pos hr]
    cases codecOf (codecField w) with
    | none => simp
    | some c => simp [instrOf_eq_iff, hr]
  · rw [if_neg hr]
    exact iff_of_false (by simp) fun ⟨_, _, hzero⟩ => hr hzero

theorem decode_encode (i : Instr) : decode (encode i) = .ok i := by
  rw [decode_eq_ok_iff, encode, fieldsOf_wordOf]

theorem eq_encode_of_decode {w : Word} {i : Instr} (h : decode w = .ok i) : w = encode i := by
  rw [encode, ← (decode_eq_ok_iff w i).1 h, wordOf_fieldsOf]

/-- The legal words (R92). -/
theorem exists_decode_iff (w : Word) : (∃ i, decode w = .ok i) ↔ w.toNat / 32 = 0 ∧ w.toNat % 16 ≤ 4 := by
  rw [← rsvdField_eq_zero_iff, ← codecField_toNat, ← exists_codecNumber_iff]
  constructor
  · rintro ⟨i, hi⟩
    have hf := (decode_eq_ok_iff w i).1 hi
    exact ⟨congrArg CmdFields.rsvd hf, i.codec, congrArg CmdFields.codec hf⟩
  · rintro ⟨hr, c, hc⟩
    obtain ⟨hcodec, hdir⟩ := (instrOf_eq_iff c (dirOf w) _).1 rfl
    refine ⟨instrOf c (dirOf w), (decode_eq_ok_iff w _).2 ?_⟩
    rw [fieldsOf, ← hcodec, ← hdir, ← (dirOf_eq_iff w _).1 rfl, hr, hc]

theorem encode_toNat (i : Instr) :
    (encode i).toNat = 16 * (dirNumber i.dir).toNat + (codecNumber i.codec).toNat := by
  rw [encode, wordOf_toNat]
  simp

theorem encode_getLsbD_four (i : Instr) : (encode i).getLsbD 4 = true ↔ i.dir = .dec := by
  have hdir : dirField (encode i) = dirNumber i.dir :=
    congrArg CmdFields.dir ((decode_eq_ok_iff _ i).1 (decode_encode i))
  have hbit : (encode i).getLsbD 4 = (dirField (encode i)).getLsbD 0 := by simp [dirField]
  rw [hbit, hdir]
  cases i.dir <;> decide

/-- Settles O2: a word decodes to the command whose fields it has, and a word is its fields. -/
theorem decodeAndEncodeAgree : Obligations.DecodeAndEncodeAgree := by
  refine ⟨decode_encode, fun w i h => eq_encode_of_decode h, exists_decode_iff, fun i => ⟨?_, encode_getLsbD_four i⟩⟩
  have hlt := (codecNumber i.codec).isLt
  rw [encode_toNat]
  omega

/-- Settles O1: each word of the map is its command's `encode`. -/
theorem opcodeMapDecodes : Obligations.OpcodeMapDecodes := by
  have hmap (i : Instr) : (decode (encode i)).toOption = some i := by rw [decode_encode]; rfl
  exact ⟨hmap .encLeb128, hmap .decLeb128, hmap .encPrefixVarint, hmap .decPrefixVarint, hmap .encLesqlite,
    hmap .decLesqlite, hmap .encLesqlite2, hmap .decLesqlite2, hmap .encNanolog, hmap .decNanolog⟩

end Sys2Proof

namespace Sys2Proof.Machine

/-! ### An illegal word (R92, R271) -/

theorem engineStep_of_illegal {s : State} (h : ¬ ∃ i, decode (fetchCommand s) = .ok i) :
    engineStep s = execIllegal s := by
  rw [engineStep]
  cases hdec : decode (fetchCommand s) with
  | ok i => exact absurd ⟨i, hdec⟩ h
  | error e => rfl

/-- The first start check ends an illegal word, whatever the later ones would find (R123). -/
theorem startChecks_illegal (p : Params) (d : Dir) (w : Work) :
    startChecks p false d w = .raise .badCommand 0 w := by
  simp only [startChecks, if_true]

theorem execIllegal_unraced {s : State} (hl : s.params.legal = true)
    (hunraced : s.raced (dirOf (fetchCommand s)) = false) :
    execIllegal s = .next (complete (dirOf (fetchCommand s)) .badCommand 0 (withWork ⟨s.eng, s.mem⟩ s)) := by
  rw [execIllegal, runCommand_eq _ _ _ _ hl, hunraced, startChecks_illegal]
  rfl

theorem progressBytes_fresh {e : Engine} (h : Fresh e) (d : Dir) : progressBytes d e = 0 := by
  cases d
  · exact h.wc
  · exact h.rc

/-- Settles O4: an illegal word decodes to no command, so the engine's step ends at the first start check. -/
theorem illegalWordEndsBadCommand : Obligations.IllegalWordEndsBadCommand := by
  intro s hl hrun hturns hfresh hunraced hillegal
  have hnone : ¬ ∃ i, decode (fetchCommand s) = .ok i := by rw [exists_decode_iff]; omega
  refine ⟨_, (step_run_unscheduled hl hrun hturns).trans
    ((engineStep_of_illegal hnone).trans (execIllegal_unraced hl hunraced)), ?_, rfl⟩
  exact ended_complete _ s ⟨s.eng, s.mem⟩ .badCommand 0 0 0 rfl rfl (progressBytes_fresh hfresh _) hfresh.ei

/-! ### The pseudo-instructions (R97) -/

/-- A line that expands is followed by what the rest assembles to, from the index after its statements on. -/
theorem assembleFrom_cons {env : List (Nat × Nat)} {i : Nat} {l : HostLine} {rest : List HostLine}
    {stmts out : List HostStmt} (hl : expandLine env i l = some stmts)
    (hrest : assembleFrom env (i + lineSize l) rest = some out) :
    assembleFrom env i (l :: rest) = some (stmts ++ out) := by
  simp only [assembleFrom, hl, hrest]

/-- Settles O60: each expansion is the one of `expandLine`, and as long as `lineSize` says. -/
theorem pseudoInstructionsExpand : Obligations.PseudoInstructionsExpand := by
  intro env i rest out c src len n dst cap t
  exact ⟨fun hrest => assembleFrom_cons rfl hrest, fun hrest => assembleFrom_cons rfl hrest,
    fun hrest => assembleFrom_cons rfl hrest, fun hrest => assembleFrom_cons rfl hrest⟩

end Sys2Proof.Machine
end

section
/-! PROOFS. How long groups and encoded buffers can be (R106, R155), and the commands that complete with OK (R130, R132,
R133, R243, R245). -/

namespace Sys2Proof.Machine

/-! ### Lengths (R106, R155) -/

theorem leb128Bytes_ne_nil (k v : Nat) : leb128Bytes k v ≠ [] := by
  cases k with
  | zero => exact List.cons_ne_nil _ _
  | succ k =>
    rw [leb128Bytes]
    split <;> exact List.cons_ne_nil _ _

/-- A LEB128 loop writes no more than `m + 1` bytes exactly when that is all it may write or 7 bits in each hold the
value. -/
theorem leb128Bytes_length_le_iff (k m v : Nat) :
    (leb128Bytes k v).length ≤ m + 1 ↔ k ≤ m ∨ v < 128 ^ (m + 1) := by
  induction k generalizing m v with
  | zero => simp [leb128Bytes]
  | succ k ih =>
    rw [leb128Bytes]
    split
    · next hlong =>
      cases m with
      | zero =>
        have hne := leb128Bytes_ne_nil k (v >>> 7)
        exact iff_of_false (by simpa using hne) (by omega)
      | succ m =>
        rw [List.length_cons, Nat.add_le_add_iff_right, ih, Nat.shiftRight_eq_div_pow, Nat.add_le_add_iff_right,
          Nat.div_lt_iff_lt_mul (by norm_num), ← pow_succ]
    · next hshort =>
      have hpow : 128 ≤ 128 ^ (m + 1) := Nat.le_self_pow (Nat.succ_ne_zero m) 128
      exact iff_of_true (by simp) (by omega)

theorem encGroupLeb128_length_eq_ten_iff (v : Word) : (encGroupLeb128 v).length = 10 ↔ 2 ^ 63 ≤ v.toNat := by
  have hten := (encGroupLeb128_length v).2
  have hnine : (encGroupLeb128 v).length ≤ 9 ↔ 9 ≤ 8 ∨ v.toNat < 128 ^ 9 := leb128Bytes_length_le_iff 9 8 v.toNat
  norm_num at hnine ⊢
  omega

/-- Every canonical group of one element but LEB128's has at most 9 bytes (R106). -/
theorem canonicalGroup_length_le_nine {p : Params} (hp : p.legal = true) {c : Codec} (hc : c ≠ .leb128) (v : Word) :
    (canonicalGroup p c v).length ≤ 9 := by
  obtain ⟨-, -, hlesqlite, hlesqlite2, -⟩ := (params_legal_iff p).1 hp
  cases c
  case leb128 => exact absurd rfl hc
  case prefixVarint => exact (encGroupPrefixVarint_length v).2
  case lesqlite => exact (canonical_bucket _ hlesqlite v).2
  case lesqlite2 => exact (canonical_bucket _ hlesqlite2 v).2
  case nanolog =>
    have hlen := byteLen_word_le v
    rw [canonicalGroup, encSingle_length]
    omega

/-- Settles O27: LEB128 by the bits nine bytes hold, and the other codecs one by one. -/
theorem leb128AloneHasTenByteGroups : Obligations.Leb128AloneHasTenByteGroups :=
  ⟨encGroupLeb128_length_eq_ten_iff, fun _ _ v hp hc => canonicalGroup_length_le_nine hp hc v⟩

/-- A NanoLog pair has at most 17 bytes, so a buffer has at most 9 an element (R106, R241). -/
theorem nanologBuffer_length_le (pad : Nat) (vs : List Word) : (nanologBuffer pad vs).length ≤ 9 * vs.length := by
  induction vs using List.twoStepInduction with
  | nil => exact le_rfl
  | singleton a =>
    have ha := byteLen_word_le a
    rw [nanologBuffer, encSingle_length, List.length_singleton]
    omega
  | cons_cons a b vs ih _ =>
    have ha := byteLen_word_le a
    have hb := byteLen_word_le b
    simp only [nanologBuffer, List.length_append, encPair_length, List.length_cons]
    omega

/-- A bound for one group that is at least 9 bounds the canonical buffer. -/
theorem canonicalBuffer_length_le {p : Params} {c : Codec} {k : Nat} (hk : 9 ≤ k)
    (hgroup : ∀ v, (canonicalGroup p c v).length ≤ k) (vs : List Word) :
    (canonicalBuffer p c vs).length ≤ k * vs.length := by
  have hflat : (vs.flatMap (canonicalGroup p c)).length ≤ k * vs.length := by
    induction vs with
    | nil => exact le_rfl
    | cons v vs ih =>
      rw [List.flatMap_cons, List.length_append, List.length_cons, Nat.mul_succ, Nat.add_comm]
      exact Nat.add_le_add ih (hgroup v)
  cases c
  case nanolog => exact (nanologBuffer_length_le _ vs).trans (Nat.mul_le_mul_right _ hk)
  all_goals exact hflat

/-- Settles O35: the bounds of one group, for every element; and every element has a byte. -/
theorem canonicalBufferBounds : Obligations.CanonicalBufferBounds := fun p c vs hp =>
  ⟨canonicalBuffer_length_le (by norm_num) (canonicalGroup_length p hp c) vs,
    fun hc => canonicalBuffer_length_le le_rfl (canonicalGroup_length_le_nine hp hc) vs, canonicalBuffer_le p hp c vs⟩

/-! ### Commands that complete with OK (R130) -/

theorem instrOf_of_dir {i : Instr} {d : Dir} (h : i.dir = d) : instrOf i.codec d = i := by
  rw [← h, instrOf_codec_dir]

/-- Settles O36: the encode loop goes through, and the command completes with what it has emitted. -/
theorem encodeCompletes : Obligations.EncodeCompletes := by
  intro i s hd h l out hsrc hcap hdst
  have hwc : s.eng.wc.toNat = 0 := by rw [h.fresh.wc]; rfl
  have hready := enc_ready (c := i.codec) h s.eng.latch.cnt.toNat le_rfl hsrc hcap hdst
  obtain ⟨w, hloop, hout⟩ := encBody_ok s.params i.codec s.eng.latch.cnt.toNat 0 ⟨s.eng, s.mem⟩ h.fresh.ei hready
  rw [Nat.zero_add] at hout
  refine ⟨complete .enc .ok 0 (withWork w s), ?_, ?_, wrote_of_mem ?_⟩
  · have hexec := exec_enc_startable i.codec s h
    rw [instrOf_of_dir hd, hloop] at hexec
    exact hexec
  · refine ended_complete .enc s w .ok 0 out.length l.cnt.toNat hout.latch hout.race ?_ hout.ei
    rw [progressBytes, hout.wc, hwc, Nat.zero_add]
  · rw [complete_mem, withWork_mem, hout.mem, hwc, Nat.add_zero]

/-- The strict check passes where STRICT is not latched or all of the source has been consumed (R134). -/
theorem strictCheck_ok {w : Work} (h : w.eng.latch.strict = true → w.eng.rc = w.eng.latch.slen) :
    strictCheck w = .ok () w := if_neg fun ⟨hstrict, hne⟩ => hne (h hstrict)

/-- Settles O37: the decode loop goes through, the strict check passes, and the command completes with what it has
stored. -/
theorem decodeCompletes : Obligations.DecodeCompletes := by
  intro i s bs vs hd h hb hn hs hstrict hdst
  have hrc : s.eng.rc.toNat = 0 := by rw [h.fresh.rc]; rfl
  have hready := dec_ready h hb hn.le hs hdst
  obtain ⟨w, hloop, hvs⟩ := decBody_ok s.params i.codec bs vs hb 0 ⟨s.eng, s.mem⟩ h.fresh.ei hready
  have hrc' : w.eng.rc = BitVec.ofNat 64 bs.length := by rw [hvs.rc, hrc, Nat.zero_add]
  have hcheck : strictCheck w = .ok () w := strictCheck_ok fun hst => by
    rw [hvs.latch] at hst ⊢
    rw [hrc', hstrict hst, BitVec.ofNat_toNat, BitVec.setWidth_eq]
  refine ⟨complete .dec .ok 0 (withWork w s), ?_, ?_, wrote_of_mem ?_⟩
  · have hexec := exec_dec_startable i.codec s h
    rw [instrOf_of_dir hd, ← hn, hloop, Res.bind_ok, hcheck] at hexec
    exact hexec
  · refine ended_complete .dec s w .ok 0 bs.length vs.length hvs.latch hvs.race hrc' ?_
    rw [hvs.ei, Nat.zero_add]
  · rw [complete_mem, withWork_mem, hvs.mem, Nat.mul_zero, Nat.add_zero]

end Sys2Proof.Machine
end

section
/-! PROOFS. The shared bit primitives (R135 to R137) and the dropped CMD write (R124). -/

namespace Sys2Proof.Machine

/-! ### Byte lengths and nibbles (R135, R137) -/

/-- A byte length above 1 is needed: one byte less does not hold the value. -/
theorem pow_byteLen_pred_le {v : Nat} (h : byteLen v ≠ 1) : 256 ^ (byteLen v - 1) ≤ v := by
  have hpos := byteLen_pos v
  by_contra hlt
  have hle := byteLen_le_of_lt v (byteLen v - 1) (by omega) (not_le.1 hlt)
  omega

/-- Settles O23: the value fits in that many bytes, and in no fewer. -/
theorem byteLenMinimal : Obligations.ByteLenMinimal := by
  intro v
  simp only [pow_mul, show 2 ^ 8 = 256 from rfl]
  exact ⟨byteLen_pos _, byteLen_word_le v, lt_pow_byteLen _, or_iff_not_imp_left.2 pow_byteLen_pred_le⟩

theorem packNibbles_nibbles (b : Byte) : packNibbles (hiNib b) (loNib b) = b := by
  have hlt := b.isLt
  apply BitVec.eq_of_toNat_eq
  rw [packNibbles_toNat _ _ (by rw [hiNib]; omega) (by rw [loNib]; omega), hiNib, loNib, Nat.div_add_mod]

/-- Settles O25: both directions, for nibbles of at most 15. -/
theorem nibblesPackAndUnpack : Obligations.NibblesPackAndUnpack :=
  ⟨fun h l hh hl => ⟨packNibbles_toNat h l hh hl, hiNib_packNibbles h l hh hl, loNib_packNibbles h l hh hl⟩,
    fun b => ⟨rfl, rfl, packNibbles_nibbles b⟩⟩

/-! ### Trailing ones (R136) -/

theorem testBit_of_lt_trailingOnes {k n j : Nat} (h : j < trailingOnes k n) : n.testBit j = true := by
  induction k generalizing n j with
  | zero => exact absurd h (Nat.not_lt_zero j)
  | succ k ih =>
    rw [trailingOnes] at h
    split at h
    · next hone =>
      cases j with
      | zero => simpa using hone
      | succ j => rw [Nat.testBit_succ]; exact ih (by omega)
    · omega

theorem testBit_trailingOnes {k n : Nat} (h : trailingOnes k n < k) : n.testBit (trailingOnes k n) = false := by
  induction k generalizing n with
  | zero => exact absurd h (Nat.not_lt_zero _)
  | succ k ih =>
    rw [trailingOnes] at h ⊢
    split at h
    · next hone => rw [if_pos hone, Nat.add_comm, Nat.testBit_succ]; exact ih (by omega)
    · next hzero => rw [if_neg hzero]; simpa using hzero

theorem getLsbD_trailingOnes8 (b : Byte) : b.getLsbD (trailingOnes8 b) = false := by
  rcases (trailingOnes8_le b).lt_or_eq with hlt | h8
  · exact testBit_trailingOnes hlt
  · rw [h8]
    exact BitVec.getLsbD_of_ge b 8 le_rfl

/-- Eight trailing ones leave no zero bit. -/
theorem trailingOnes8_eq_eight_iff (b : Byte) : trailingOnes8 b = 8 ↔ b = 0xFF := by
  constructor
  · intro h
    apply BitVec.eq_of_getLsbD_eq
    intro j hj
    have hones : (0xFF : Byte) = BitVec.allOnes 8 := by decide
    rw [hones, BitVec.getLsbD_allOnes, decide_eq_true hj]
    exact testBit_of_lt_trailingOnes (h ▸ hj)
  · rintro rfl
    decide

/-- Settles O24: each bit by the recursion of `trailingOnes`. -/
theorem trailingOnesOfByte : Obligations.TrailingOnesOfByte := fun b =>
  ⟨trailingOnes8_le b, fun _ hk => testBit_of_lt_trailingOnes hk, getLsbD_trailingOnes8 b, trailingOnes8_eq_eight_iff b⟩

/-! ### The dropped CMD write (R124) -/

/-- Settles O15: while a command runs the write is `dropCommand`. -/
theorem droppedCmdWrite : Obligations.DroppedCmdWrite := fun _ w hrun => writeCsr_cmd_run hrun w

end Sys2Proof.Machine
end

section
/-! PROOFS. The start checks of every command in their order (R123, R272 to R274), and the commands that end with an
error after some groups (R127, R134, R275 to R278). -/

namespace Sys2Proof.Machine

/-! ### Start checks (R123) -/

theorem srcRegion_eq (d : Dir) (l : Latches) :
    srcRegion d l = ⟨l.src.toNat, if d = .enc then 8 * l.cnt.toNat else l.slen.toNat⟩ := by
  cases d <;> rfl

section

variable {p : Params} {d : Dir} {w : Work}

theorem startChecks_source_past_top (hsrc : pastTop p (srcRegion d w.eng.latch) = true) :
    startChecks p true d w = .raise .badRegion w.eng.latch.src.toNat w := by
  simp only [startChecks, Bool.true_eq_false, if_false, hsrc, if_true]
  rw [srcRegion_eq]

theorem startChecks_destination_past_top (hsrc : pastTop p (srcRegion d w.eng.latch) = false)
    (hdst : pastTop p (dstRegion w.eng.latch) = true) :
    startChecks p true d w = .raise .badRegion w.eng.latch.dst.toNat w := by
  simp only [startChecks, Bool.true_eq_false, Bool.false_eq_true, if_false, hsrc, hdst, if_true]
  rfl

theorem startChecks_overlap (hsrc : pastTop p (srcRegion d w.eng.latch) = false)
    (hdst : pastTop p (dstRegion w.eng.latch) = false)
    (hmeets : (srcRegion d w.eng.latch).meets (dstRegion w.eng.latch) = true) :
    startChecks p true d w = .raise .overlap w.eng.latch.dst.toNat w := by
  simp only [startChecks, Bool.true_eq_false, Bool.false_eq_true, if_false, hsrc, hdst, hmeets, if_true]
  rfl

theorem startChecks_no_room (hsrc : pastTop p (srcRegion d w.eng.latch) = false)
    (hdst : pastTop p (dstRegion w.eng.latch) = false)
    (hapart : (srcRegion d w.eng.latch).meets (dstRegion w.eng.latch) = false)
    (hroom : d = .dec ∧ w.eng.latch.cap.toNat < 8 * w.eng.latch.cnt.toNat) :
    startChecks p true d w = .raise .bufferTooSmall w.eng.latch.dst.toNat w := by
  simp only [startChecks, Bool.true_eq_false, Bool.false_eq_true, if_false, hsrc, hdst, hapart, if_pos hroom]
  rfl

end

/-- A command that fails a start check ends with that check's error, no progress and memory as it was (R123, R131). -/
theorem exec_startChecks_raise {i : Instr} {s : State} {code : ErrCode} {addr : Nat} (hl : s.params.legal = true)
    (hunraced : s.raced i.dir = false) (hfresh : Fresh s.eng)
    (hcheck : startChecks s.params true i.dir ⟨s.eng, s.mem⟩ = .raise code addr ⟨s.eng, s.mem⟩) :
    ∃ t, exec i s = .next t ∧ Ended s t code addr 0 0 ∧ t.mem = s.mem := by
  obtain ⟨body, hexec, -⟩ := exec_eq_runCommand i
  refine ⟨complete i.dir code addr (withWork ⟨s.eng, s.mem⟩ s), ?_, ?_, rfl⟩
  · rw [hexec, runCommand_eq _ _ _ _ hl, hunraced, hcheck]
    rfl
  · exact ended_complete _ s ⟨s.eng, s.mem⟩ code addr 0 0 rfl rfl (progressBytes_fresh hfresh _) hfresh.ei

/-- Settles O39: each check fails in its turn, the ones before it having passed. -/
theorem startChecksInOrder : Obligations.StartChecksInOrder := by
  intro i s hl hunraced hfresh l top len fails srcOut dstOut overlap noRoom
  have hsrc : srcOut ↔ pastTop s.params (srcRegion i.dir l) = true := by rw [srcRegion_eq, pastTop_iff]; rfl
  have hdst : dstOut ↔ pastTop s.params (dstRegion l) = true := by rw [pastTop_iff]; rfl
  have hmeets : overlap ↔ (srcRegion i.dir l).meets (dstRegion l) = true := by rw [srcRegion_eq, Range.meets_iff]; rfl
  have hfails {code : ErrCode} {addr : Nat}
      (h : startChecks s.params true i.dir ⟨s.eng, s.mem⟩ = .raise code addr ⟨s.eng, s.mem⟩) : fails code addr :=
    exec_startChecks_raise hl hunraced hfresh h
  rw [hsrc, hdst, hmeets]
  simp only [Bool.not_eq_true]
  refine ⟨fun h1 => hfails (startChecks_source_past_top h1),
    fun h1 h2 => hfails (startChecks_destination_past_top h1 h2),
    fun h1 h2 h3 => hfails (startChecks_overlap h1 h2 h3),
    fun h1 h2 h3 h4 => hfails (startChecks_no_room h1 h2 h3 h4), fun h1 h2 h3 h4 => ?_⟩
  exact ⟨hl, hunraced, hfresh, h1, h2, h3, fun hd => not_lt.1 fun hlt => h4 ⟨hd, hlt⟩⟩

/-! ### An encode whose next group does not fit (R127) -/

/-- Settles O40: the loop's first `j` elements go through, and the next group is longer than the room left. -/
theorem encodeBufferTooSmall : Obligations.EncodeBufferTooSmall := by
  intro i s j hd h l n out g hj hpair hsrc hcap hdst hlong
  obtain ⟨w, hloop, hout, hwc, hels⟩ := enc_prefix (c := i.codec) h j hj.le hpair
    (accessible_left (by rwa [Nat.mul_add] at hsrc)) hcap hdst
  have hl : w.eng.latch = s.eng.latch := hout.latch
  obtain ⟨rest, hfirst⟩ := encBody_first s.params i.codec (n - j) j w (by omega)
    (by rw [hl]; exact accessible_right (by rwa [Nat.mul_add] at hsrc))
  have hemit := emitGroup_too_small s.params g w (by rw [hwc, hl]; exact hlong)
  rw [hl, hels, hemit, hwc, hl] at hfirst
  have hend := enc_raise_ends (part := []) hd h (hloop.trans hfirst) hout ⟨rfl, rfl, rfl, rfl, rfl, rfl, rfl⟩
  rwa [List.append_nil] at hend

/-! ### A decode whose next group goes wrong (R275, R276, R278) -/

/-- A decode whose next group raises, once the groups of `vs` have gone through, ends with that error: the group is not
stored, and the progress is that of `vs` (R131). -/
theorem dec_group_raise_ends {i : Instr} {s : State} {bs part : List Byte} {vs : List Word} {code : ErrCode} {addr : Nat}
    (hd : i.dir = .dec) (h : Startable .dec s) (hb : Buffer s.params i.codec bs vs) (hm : MoreToDecode i.codec s vs)
    (hs : SourceStarts s (bs ++ part)) (hdst : AllAccessible s.params s.eng.latch.dst.toNat (8 * vs.length))
    (hgroup : ∀ w, w.eng.latch = s.eng.latch → w.eng.rc.toNat = bs.length → SourceHas s.params part (startGroup w) →
      ∃ w', decBody s.params i.codec (s.eng.latch.cnt.toNat - vs.length) vs.length w = .raise code addr w' ∧
        Kept w w') :
    ∃ t, exec i s = .next t ∧ Ended s t code addr bs.length vs.length ∧
      Wrote s t s.eng.latch.dst.toNat (elementBytes vs) := by
  obtain ⟨w, hloop, hvs, hrc, hsrc⟩ := dec_prefix h hb hm hs hdst
  obtain ⟨w', hraise, hkept⟩ := hgroup w hvs.latch hrc hsrc
  have hend := dec_raise_ends (part := []) hd h (hloop.trans hraise) hvs hkept
  rwa [List.append_nil] at hend

/-- A decode whose next group stops after its first bytes ends with what stopped it there. -/
theorem dec_stopped_ends {i : Instr} {s : State} {bs part : List Byte} {vs : List Word} {code : ErrCode} {addr : Nat}
    (hd : i.dir = .dec) (h : Startable .dec s) (hb : Buffer s.params i.codec bs vs) (hm : MoreToDecode i.codec s vs)
    (hs : SourceStarts s (bs ++ part)) (hpart : Incomplete s.params i.codec (lastAfter s vs.length) part)
    (hdst : AllAccessible s.params s.eng.latch.dst.toNat (8 * vs.length))
    (hstop : StopsAt s.params s.eng.latch (bs.length + part.length) code addr) :
    ∃ t, exec i s = .next t ∧ Ended s t code addr bs.length vs.length ∧
      Wrote s t s.eng.latch.dst.toNat (elementBytes vs) := by
  rw [lastAfter_eq] at hpart
  refine dec_group_raise_ends hd h hb hm hs hdst fun w hl hrc hsrc => ?_
  exact decBody_incomplete _ _ _ _ w part (Nat.sub_pos_of_lt hm.1) hpart hsrc (by rw [hl, hrc]; exact hstop)

/-- Settles O43: the end of the buffer stops the group. -/
theorem decodeTruncated : Obligations.DecodeTruncated :=
  fun _ _ _ _ _ hd h hb hm hs hpart hend hdst => dec_stopped_ends hd h hb hm hs hpart hdst (stopsAt_end _ _ _ hend)

/-- Settles O44: a byte that does not answer stops the group. -/
theorem decodeBusErrorOnRead : Obligations.DecodeBusErrorOnRead := by
  intro i s bs part vs hd h hb hm hs hpart hinside hf hdst
  rw [Nat.add_assoc] at hf ⊢
  exact dec_stopped_ends hd h hb hm hs hpart hdst (stopsAt_bus _ _ _ hinside hf)

/-- Settles O45: the next group has a byte that no well-formed group has there. -/
theorem decodeMalformed : Obligations.DecodeMalformed := by
  intro i s bs part vs hd h hb hm hs hpart hdst
  rw [lastAfter_eq] at hpart
  refine dec_group_raise_ends hd h hb hm hs hdst fun w hl hrc hsrc => ?_
  rw [Nat.add_assoc, ← hl, ← hrc]
  exact decBody_malformed _ _ _ _ w part (by rw [hl]; exact Nat.sub_pos_of_lt hm.1) (by rw [hl]; exact hpart) hsrc

/-! ### A strict decode that leaves source bytes over (R134, R277) -/

theorem strictCheck_mismatch {w : Work} (hstrict : w.eng.latch.strict = true) (hne : w.eng.rc ≠ w.eng.latch.slen) :
    strictCheck w = .raise .countMismatch (w.eng.latch.src.toNat + w.eng.rc.toNat) w := if_pos ⟨hstrict, hne⟩

/-- Settles O47: the decode loop goes through, and the strict check finds i.RC short of the buffer's end. -/
theorem decodeCountMismatch : Obligations.DecodeCountMismatch := by
  intro i s bs vs hd h hb hn hs hstrict hleft hdst
  have hready := dec_ready h hb hn.le hs hdst
  obtain ⟨w, hloop, hvs⟩ := decBody_ok s.params i.codec bs vs hb 0 ⟨s.eng, s.mem⟩ h.fresh.ei hready
  have hl : w.eng.latch = s.eng.latch := hvs.latch
  have hrc : w.eng.rc = BitVec.ofNat 64 bs.length := by rw [hvs.rc, h.fresh.rc]; simp
  have hrcNat : w.eng.rc.toNat = bs.length := by
    have hlt := s.eng.latch.slen.isLt
    rw [hrc, BitVec.toNat_ofNat, Nat.mod_eq_of_lt (by omega)]
  have hne : w.eng.rc ≠ s.eng.latch.slen := fun heq => by rw [heq] at hrcNat; omega
  have hcheck := strictCheck_mismatch (w := w) (by rw [hl]; exact hstrict) (by rw [hl]; exact hne)
  rw [hl, hrcNat] at hcheck
  refine ⟨complete .dec .countMismatch (s.eng.latch.src.toNat + bs.length) (withWork w s), ?_, ?_, wrote_of_mem ?_⟩
  · have hexec := exec_dec_startable i.codec s h
    rw [instrOf_of_dir hd, ← hn, hloop, Res.bind_ok, hcheck] at hexec
    exact hexec
  · refine ended_complete .dec s w _ _ bs.length vs.length hl hvs.race hrc ?_
    rw [hvs.ei, Nat.zero_add]
  · rw [complete_mem, withWork_mem, hvs.mem, Nat.mul_zero, Nat.add_zero]

end Sys2Proof.Machine
end

section
/-! PROOFS. A command as a function of its latches and source bytes (R121), and the round trip of every codec (R139,
R246). -/

namespace Sys2Proof.Machine

/-! ### A command is a function of its inputs (R121) -/

/-- Two completions report the same, and every byte either is the same in both memories or stands as it began. -/
structure SameOutcome (m1 m2 : Memory) (t1 t2 : State) : Prop where
  err : t1.csr.err = t2.csr.err
  errAddr : t1.csr.errAddr = t2.csr.errAddr
  resultBytes : t1.csr.resultBytes = t2.csr.resultBytes
  resultCount : t1.csr.resultCount = t2.csr.resultCount
  read : ∀ a, t1.mem.read a = t2.mem.read a ∨ (t1.mem.read a = m1.read a ∧ t2.mem.read a = m2.read a)

section

variable {k : Nat} {l : Latches} {sr : Nat → Prop} {m1 m2 : Memory}

/-- Engines that agree on the latches and the cursors report the same at completion. -/
theorem complete_sameOutcome (d : Dir) (code : ErrCode) (addr : Nat) {w1 w2 : Work} (h : Twin k l sr m1 m2 w1 w2)
    (s1 s2 : State) :
    SameOutcome m1 m2 (complete d code addr (withWork w1 s1)) (complete d code addr (withWork w2 s2)) := by
  have hprogress : progressBytes d w1.eng = progressBytes d w2.eng := by
    simp only [progressBytes_eq, h.eng.wc, h.eng.rc]
  refine ⟨rfl, ?_, hprogress, h.eng.ei, h.out⟩
  simp only [complete_csr_errAddr, withWork_eng, errAddrWord, h.eng.latch, hprogress]

theorem finish_sameOutcome (d : Dir) {x1 x2 : Res Unit} (h : TwinRes k l sr m1 m2 x1 x2) (s1 s2 : State) :
    SameOutcome m1 m2 (finish d x1 s1) (finish d x2 s2) := by
  cases x1 with
  | ok _ w1 =>
    cases x2 with
    | ok _ w2 => exact complete_sameOutcome d .ok 0 h.2 s1 s2
    | raise _ _ _ => exact h.elim
  | raise code addr w1 =>
    cases x2 with
    | ok _ _ => exact h.elim
    | raise _ _ w2 =>
      obtain ⟨rfl, rfl, htwin⟩ := h
      exact complete_sameOutcome d code addr htwin s1 s2

end

/-- Two commands just started, with equal latches, on memories that agree on a set of bytes. -/
theorem twin_of_fresh {s1 s2 : State} {sr : Nat → Prop} (hlatch : s1.eng.latch = s2.eng.latch) (h1 : Fresh s1.eng)
    (h2 : Fresh s2.eng) (hwf1 : s1.mem.wf = true) (hwf2 : s2.mem.wf = true)
    (hsr : ∀ a, sr a → s1.mem.read a = s2.mem.read a) :
    Twin 0 s1.eng.latch sr s1.mem s2.mem ⟨s1.eng, s1.mem⟩ ⟨s2.eng, s2.mem⟩ where
  eng := ⟨hlatch, h1.rc.trans h2.rc.symm, h1.wc.trans h2.wc.symm, h1.ei.trans h2.ei.symm, nofun, nofun, nofun⟩
  latch := rfl
  src := hsr
  out _ := Or.inr ⟨rfl, rfl⟩
  wf1 := hwf1
  wf2 := hwf2

/-- Settles O51: the start checks and the command's work take the same course in both runs. -/
theorem commandIsFunctionOfInputs : Obligations.CommandIsFunctionOfInputs := by
  intro i s s' hparams hl hlatch hfresh hfresh' hunraced hunraced' hwf hwf' hsrc
  obtain ⟨body, hexec, hsafe⟩ := exec_eq_runCommand i
  have hrun := startChecks_twin s.params true i.dir (twin_of_fresh hlatch hfresh hfresh' hwf hwf' hsrc)
  have hres := hrun.bind fun _ _ _ htwin => (hsafe s.params hl).twin htwin fun _ ha => ha
  obtain ⟨herr, haddr, hbytes, hcount, hread⟩ := finish_sameOutcome i.dir hres s s'
  refine ⟨_, _, ?_, ?_, herr, haddr, hbytes, hcount, hread⟩
  · rw [hexec, runCommand_eq _ _ _ _ hl, hunraced]
    rfl
  · rw [hexec, runCommand_eq _ _ _ _ (hparams ▸ hl), hunraced', hparams]
    rfl

/-! ### The round trip (R139, R246) -/

theorem instrOf_codec (c : Codec) (d : Dir) : (instrOf c d).codec = c := ((instrOf_eq_iff c d _).1 rfl).1.symm

theorem instrOf_dir (c : Codec) (d : Dir) : (instrOf c d).dir = d := ((instrOf_eq_iff c d _).1 rfl).2.symm

/-- The machine with the five operand registers set and the command just started. -/
def started (i : Instr) (src slen dst cap cnt : Word) (s : State) : State :=
  startCommand (encode i) { s with csr := { s.csr with
    srcAddr := src, srcLen := slen, dstAddr := dst, dstCap := cap, count := cnt } }

/-- What the host's writes to an idle engine do: they start the command on those operands (R120, R313). -/
theorem commanded_idle {s : State} (hidle : s.eng.phase = .idle) (i : Instr) (src slen dst cap cnt : Word) :
    commanded i src slen dst cap cnt s = started i src slen dst cap cnt s :=
  writeCsr_cmd_idle (s := { s with csr := { s.csr with
    srcAddr := src, srcLen := slen, dstAddr := dst, dstCap := cap, count := cnt } }) hidle (encode i)

/-- A command just started is startable where its operands meet the start checks and touch no device (R68, R123). -/
theorem started_startable {s : State} {d : Dir} {i : Instr} {src slen dst cap cnt : Word} {len : Nat}
    (hl : s.params.legal = true) (hlen : len = if d = .enc then 8 * cnt.toNat else slen.toNat)
    (hsrc : 0 < len → src.toNat + len ≤ 2 ^ s.params.addrBits)
    (hdst : 0 < cap.toNat → dst.toNat + cap.toNat ≤ 2 ^ s.params.addrBits)
    (hapart : ¬ (0 < len ∧ 0 < cap.toNat ∧ src.toNat < dst.toNat + cap.toNat ∧ dst.toNat < src.toNat + len))
    (hroom : d = .dec → 8 * cnt.toNat ≤ cap.toNat)
    (hdevice : ∀ r ∈ s.params.sideEffects,
      ¬ (0 < r.size ∧ 0 < len ∧ r.base < src.toNat + len ∧ src.toNat < r.base + r.size) ∧
      ¬ (0 < r.size ∧ 0 < cap.toNat ∧ r.base < dst.toNat + cap.toNat ∧ dst.toNat < r.base + r.size)) :
    Startable d (started i src slen dst cap cnt s) := by
  have hsr : srcRegion d (started i src slen dst cap cnt s).eng.latch = ⟨src.toNat, len⟩ := by
    rw [srcRegion_eq, hlen]
    rfl
  have hdr : dstRegion (started i src slen dst cap cnt s).eng.latch = ⟨dst.toNat, cap.toNat⟩ := rfl
  refine ⟨hl, ?_, ⟨rfl, rfl, rfl⟩, ?_, ?_, ?_, hroom⟩
  · rw [← Bool.not_eq_true, raced_iff, hsr, hdr]
    rintro (hrace | ⟨r, hr, hmeets | hmeets⟩)
    · cases hrace
    · exact (hdevice r hr).1 ((Range.meets_iff _ _).1 hmeets)
    · exact (hdevice r hr).2 ((Range.meets_iff _ _).1 hmeets)
  · rw [← Bool.not_eq_true, pastTop_iff, hsr]
    exact fun ⟨hpos, hlt⟩ => absurd (hsrc hpos) (not_le.2 hlt)
  · rw [← Bool.not_eq_true, pastTop_iff, hdr]
    exact fun ⟨hpos, hlt⟩ => absurd (hdst hpos) (not_le.2 hlt)
  · rw [← Bool.not_eq_true, Range.meets_iff, hsr, hdr]
    exact hapart

/-- With no turn scheduled, the step after the host has given a command to an idle engine is that command. -/
theorem step_commanded {s : State} (hl : s.params.legal = true) (hidle : s.eng.phase = .idle) (hturns : s.turns = [])
    (i : Instr) (src slen dst cap cnt : Word) :
    step (commanded i src slen dst cap cnt s) = exec i (started i src slen dst cap cnt s) := by
  rw [commanded_idle hidle]
  exact (stepRunsDecodedCommand (started i src slen dst cap cnt s) i hl rfl (decode_encode i)).1 hturns

/-- Every command keeps the canonical form of memory. -/
theorem exec_wf {i : Instr} {s t : State} (h : exec i s = .next t) (hwf : s.mem.wf = true) : t.mem.wf = true := by
  rcases exec_cases i s (exec_legal h) with ⟨-, hnext⟩ | ⟨-, t', w, c, a, hnext, hc⟩
  · obtain rfl := Host.Outcome.next.inj (hnext.symm.trans h)
    exact Memory.wf_scramble _ _ _ _ hwf
  · obtain rfl := Host.Outcome.next.inj (hnext.symm.trans h)
    rw [hc.eq]
    exact hc.within.wf hwf

/-- Settles O38: the encode writes the canonical buffer, which is a buffer of the elements; the decode stores them. -/
theorem roundTrip : Obligations.RoundTrip := by
  intro c s a b d n cap cap' len' hl hidle hturns hwf vs m i i' inside overlap hm hroom hsrc hbuf hdst hina hinb hind
    hab hbd hdevice
  have hmNat : (BitVec.ofNat 64 m).toNat = m := by
    rw [BitVec.toNat_ofNat, Nat.mod_eq_of_lt (lt_of_le_of_lt hm cap.isLt)]
  have hvs : vs.length = n.toNat := elementsFrom_length _ _ _ _
  -- The encode leaves the canonical buffer of `vs` at `b`.
  have hstart : Startable .enc (started i a len' b cap n s) :=
    started_startable hl rfl hina hinb hab nofun fun r hr => ⟨(hdevice r hr).1, (hdevice r hr).2.1⟩
  have henc := encodeCompletes i _ (instrOf_dir c .enc) hstart
  rw [instrOf_codec] at henc
  obtain ⟨t, ht, hended, hwrote⟩ := henc hsrc hm hbuf
  have hparams : t.params = s.params := hended.frame.params
  have htl : t.params.legal = true := hparams ▸ hl
  have htwf : t.mem.wf = true := exec_wf ht hwf
  have htbuf : t.mem.readBytes b.toNat m = canonicalBuffer s.params c vs := hwrote.bytes hwf
  -- The decode finds it there, and leaves `vs` at `d`.
  have hstart' : Startable .dec (started i' b (BitVec.ofNat 64 m) d cap' n t) := by
    refine started_startable (len := m) htl hmNat.symm ?_ ?_ hbd (fun _ => hroom) ?_ <;> rw [hparams]
    · intro hpos
      have hfits := hinb (by omega)
      omega
    · exact hind
    · intro r hr
      obtain ⟨-, hb, hd⟩ := hdevice r hr
      exact ⟨fun ⟨h1, h2, h3, h4⟩ => hb ⟨h1, by omega, by omega, h4⟩, hd⟩
  have hsource : SourceStarts (started i' b (BitVec.ofNat 64 m) d cap' n t) (canonicalBuffer s.params c vs) :=
    ⟨hmNat.ge, by show AllAccessible t.params _ _; rw [hparams]; exact hbuf, htbuf⟩
  have hbuffer : Buffer t.params i'.codec (canonicalBuffer s.params c vs) vs := by
    rw [instrOf_codec, hparams]
    exact canonical_buffer s.params hl c vs
  obtain ⟨t', ht', hended', hwrote'⟩ := decodeCompletes i' _ _ vs (instrOf_dir c .dec) hstart' hbuffer hvs hsource
    (fun _ => hmNat.symm) (by show AllAccessible t.params _ _; rw [hparams, hvs]; exact hdst)
  refine ⟨t, t', (step_commanded hl hidle hturns i _ _ _ _ _).trans ht, hended.err, hended.resultBytes, hended.done,
    ?_, hended'.err, hended'.resultBytes, ?_, hended'.done, ?_⟩
  · rw [hended.resultBytes, step_commanded htl hended.phase (hended.frame.turns.trans hturns)]
    exact ht'
  · rw [hended'.resultCount, hvs, BitVec.ofNat_toNat, BitVec.setWidth_eq]
  · have hread := hwrote'.bytes htwf
    rw [elementBytes_length] at hread
    rw [← hvs]
    exact elementsFrom_of_bytes t'.mem d.toNat vs 0 hread

end Sys2Proof.Machine
end

section
/-! PROOFS. The end of a running command under any schedule of accesses that name bytes data memory has (R320). -/

namespace Sys2Proof.Machine

/-- Every access still to come, of the turns and of the host's program, names bytes data memory has (R60). -/
structure AccessesInSpace (s : State) : Prop where
  bus : ∀ acc, .bus acc ∈ s.turns → accessInSpace s.params acc = true
  pending : ∀ acc ∈ s.host.pending, accessInSpace s.params acc = true
  prog : ∀ st ∈ s.host.prog, stmtInSpace s.params st = true

theorem AccessesInSpace.of_allInSpace {s : State} (h : allInSpace s = true) : AccessesInSpace s := by
  simp only [allInSpace, Bool.and_eq_true, List.all_eq_true] at h
  obtain ⟨⟨hturns, hpending⟩, hprog⟩ := h
  exact ⟨fun acc hacc => hturns _ hacc, hpending, hprog⟩

/-- A move of an agent that leaves the parameters and the schedule alone, with every access after it in space. -/
structure MovesInSpace (s t : State) : Prop where
  params : t.params = s.params
  turns : t.turns = s.turns
  inSpace : AccessesInSpace t

theorem AccessesInSpace.moves {s t : State} (h : AccessesInSpace s) (hparams : t.params = s.params)
    (hturns : t.turns = s.turns) (hpending : ∀ acc ∈ t.host.pending, accessInSpace s.params acc = true)
    (hprog : t.host.prog = s.host.prog) : MovesInSpace s t :=
  ⟨hparams, hturns, by rw [hturns, hparams]; exact h.bus, by rw [hparams]; exact hpending,
    by rw [hprog, hparams]; exact h.prog⟩

theorem writeCsr_movesInSpace {s : State} (h : AccessesInSpace s) (n : CsrName) (v : Word) :
    MovesInSpace s (writeCsr n v s) := by
  obtain ⟨-, hparams, hhost, hturns, -, -⟩ := writeCsr_frame n v s
  exact h.moves hparams hturns (by rw [hhost]; exact h.pending) (by rw [hhost])

/-- An access in space has a next state (R60). -/
theorem access_movesInSpace {s : State} {acc : Access} (h : AccessesInSpace s)
    (hacc : accessInSpace s.params acc = true) : ∃ t, access acc s = .next t ∧ MovesInSpace s t := by
  cases acc with
  | csrRead addr width => exact ⟨_, rfl, h.moves rfl rfl h.pending rfl⟩
  | csrWrite addr width v =>
    refine ⟨_, rfl, ?_⟩
    rw [csrWrite]
    split
    · exact writeCsr_movesInSpace h _ v
    · exact h.moves rfl rfl h.pending rfl
  | memRead a =>
    refine ⟨_, access_memRead (of_decide_eq_true hacc), ?_⟩
    rw [memRead]
    split <;> exact h.moves rfl rfl h.pending rfl
  | memWrite a b => exact ⟨_, access_memWrite (of_decide_eq_true hacc) b, h.moves rfl rfl h.pending rfl⟩

theorem byteWrites_inSpace {p : Params} {a : Nat} {bs : List Byte} (h : a + bs.length ≤ p.memTop) :
    ∀ acc ∈ byteWrites a bs, accessInSpace p acc = true := by
  induction bs generalizing a with
  | nil => simp [byteWrites]
  | cons b bs ih =>
    rw [List.length_cons] at h
    rw [byteWrites, List.forall_mem_cons]
    exact ⟨decide_eq_true (by omega), ih (by omega)⟩

/-- A statement in space queues byte writes in space, if any (R96). -/
theorem hostStatement_movesInSpace {s : State} {st : HostStmt} (h : AccessesInSpace s)
    (hst : stmtInSpace s.params st = true) : MovesInSpace s (hostStatement st s) := by
  cases st with
  | csrw r v =>
    have hnext : AccessesInSpace (nextStatement s) := ⟨h.bus, h.pending, h.prog⟩
    rw [hostStatement_csrw]
    obtain ⟨hparams, hturns, hspace⟩ := writeCsr_movesInSpace hnext r v
    exact ⟨hparams, hturns, hspace⟩
  | memw a bs => exact h.moves rfl rfl (byteWrites_inSpace (of_decide_eq_true hst)) rfl
  | memw64 a vs =>
    have hlen : a + (elementBytes vs).length ≤ s.params.memTop := by
      rw [elementBytes_length]
      exact of_decide_eq_true hst
    exact h.moves rfl rfl (byteWrites_inSpace hlen) rfl
  | bz t k target =>
    rw [hostStatement_bz]
    exact h.moves rfl rfl h.pending rfl
  | csrr | halt => exact h.moves rfl rfl h.pending rfl

theorem hostStep_movesInSpace {s : State} (h : AccessesInSpace s) :
    ∃ t, hostStep s = .next t ∧ MovesInSpace s t := by
  cases hp : s.host.pending with
  | cons acc rest =>
    have hall := h.pending
    rw [hp, List.forall_mem_cons] at hall
    have hrest : AccessesInSpace { s with host := { s.host with pending := rest } } := ⟨h.bus, hall.2, h.prog⟩
    obtain ⟨t, ht, hparams, hturns, hspace⟩ := access_movesInSpace hrest hall.1
    exact ⟨t, (hostStep_pending hp).trans ht, hparams, hturns, hspace⟩
  | nil =>
    cases hst : s.host.prog[s.host.pc]? with
    | none => exact ⟨s, hostStep_ended hp hst, rfl, rfl, h⟩
    | some st =>
      exact ⟨_, hostStep_statement hp hst, hostStatement_movesInSpace h (h.prog st (List.mem_of_getElem? hst))⟩

theorem engineStep_ends_idle {s : State} (hl : s.params.legal = true) :
    ∃ t, engineStep s = .next t ∧ t.eng.phase = .idle := by
  obtain ⟨d, ⟨-, hnext⟩ | ⟨-, t, w, c, a, hnext, hc⟩⟩ := engineStep_cases s hl
  · exact ⟨_, hnext, rfl⟩
  · exact ⟨t, hnext, by rw [hc.eq]; rfl⟩

/-- A scheduled turn while a command runs leaves the engine idle, or only takes itself off the schedule. -/
theorem step_turn_while_running {s : State} {turn : Turn} {rest : List Turn} (hl : s.params.legal = true)
    (hrun : s.eng.phase = .run) (h : AccessesInSpace s) (hturns : s.turns = turn :: rest) :
    ∃ t, step s = .next t ∧ (t.eng.phase = .idle ∨ MovesInSpace { s with turns := rest } t) := by
  have hall := h.bus
  rw [hturns] at hall
  have hrest : AccessesInSpace { s with turns := rest } :=
    ⟨fun acc hacc => hall acc (List.mem_cons_of_mem _ hacc), h.pending, h.prog⟩
  cases turn with
  | engine =>
    obtain ⟨t, ht, hidle⟩ := engineStep_ends_idle (s := { s with turns := rest }) hl
    exact ⟨t, (step_run_engineTurn hl hrun hturns).trans ht, Or.inl hidle⟩
  | host =>
    obtain ⟨t, ht, hmoves⟩ := hostStep_movesInSpace hrest
    exact ⟨t, (step_eq_hostStep hl (Or.inl hturns)).trans ht, Or.inr hmoves⟩
  | bus acc =>
    obtain ⟨t, ht, hmoves⟩ := access_movesInSpace hrest (hall acc List.mem_cons_self)
    exact ⟨t, by rw [step_eq s hl, hturns]; exact ht, Or.inr hmoves⟩
  | reset => exact ⟨_, by rw [step_eq s hl, hturns]; rfl, Or.inl rfl⟩

/-- Settles O57: by induction on the schedule; each turn ends the command or leaves a shorter schedule, and after the last
one the engine moves. -/
theorem runningCommandEnds : Obligations.RunningCommandEnds := by
  intro s hl hrun hspace
  have h := AccessesInSpace.of_allInSpace hspace
  clear hspace
  induction hturns : s.turns generalizing s with
  | nil =>
    obtain ⟨t, ht, hidle⟩ := engineStep_ends_idle hl
    exact ⟨1, t, le_rfl, core_run_succ_of_step ((step_run_unscheduled hl hrun hturns).trans ht) 0, hidle⟩
  | cons turn rest ih =>
    obtain ⟨t, ht, hcase⟩ := step_turn_while_running hl hrun h hturns
    cases hphase : t.eng.phase with
    | idle => exact ⟨1, t, by simp, core_run_succ_of_step ht 0, hphase⟩
    | run =>
      obtain ⟨hparams, hrest, ht'⟩ := hcase.resolve_left (by rw [hphase]; decide)
      obtain ⟨k, t', hk, hend, hidle⟩ := ih t (by rw [hparams]; exact hl) hphase ht' hrest
      exact ⟨k + 1, t', Nat.succ_le_succ hk, (core_run_succ_of_step ht k).trans hend, hidle⟩

end Sys2Proof.Machine
end

section
/-! PROOFS. The canonical LEB128 group byte by byte (R150), and what reading a canonical group back gives (R154, R174,
R196). -/

namespace Sys2Proof.Machine

/-- 7-bit places, in the two spellings of R150 and of the LEB128 loop. -/
theorem two_pow_seven_mul (n : Nat) : 2 ^ (7 * n) = 128 ^ n := pow_mul 2 7 n

/-- Byte j of what the LEB128 loop writes: the j-th 7 bits of the value, and the continuation bit in every byte but the
last. -/
theorem leb128Bytes_getElem? (k j v : Nat) (hv : v < 128 ^ (k + 1)) (hj : j < (leb128Bytes k v).length) :
    (leb128Bytes k v)[j]? =
      some (BitVec.ofNat 8 (v / 128 ^ j % 128 + if j + 1 < (leb128Bytes k v).length then 128 else 0)) := by
  induction k generalizing j v with
  | zero =>
    obtain rfl : j = 0 := Nat.lt_one_iff.1 hj
    have hlow : v % 128 = v := Nat.mod_eq_of_lt hv
    simp [leb128Bytes, hlow]
  | succ k ih =>
    rw [leb128Bytes] at hj ⊢
    by_cases hlong : 127 < v
    · rw [if_pos hlong] at hj ⊢
      cases j with
      | zero =>
        have hlow : BitVec.ofNat 8 ((v &&& 0x7F) ||| 0x80) = BitVec.ofNat 8 (v % 128 + 128) :=
          BitVec.eq_of_toNat_eq (by rw [leb128Bytes_toNat_low, BitVec.toNat_ofNat]; omega)
        have hrest : 0 < (leb128Bytes k (v >>> 7)).length := List.length_pos_iff.2 (leb128Bytes_ne_nil k _)
        simp [hlow, hrest]
      | succ j =>
        have hshift : v >>> 7 = v / 128 := Nat.shiftRight_eq_div_pow v 7
        have hdiv : v / 128 / 128 ^ j = v / 128 ^ (j + 1) := by rw [Nat.div_div_eq_div_mul, pow_succ']
        have hlt : v / 128 < 128 ^ (k + 1) := Nat.div_lt_of_lt_mul (by rwa [← pow_succ'])
        rw [hshift, List.length_cons, Nat.add_lt_add_iff_right] at hj
        simp only [hshift, List.getElem?_cons_succ, List.length_cons, Nat.add_lt_add_iff_right, ih j _ hlt hj, hdiv]
    · rw [if_neg hlong] at hj ⊢
      obtain rfl : j = 0 := Nat.lt_one_iff.1 hj
      have hlow : v % 128 = v := Nat.mod_eq_of_lt (by omega)
      simp [hlow]

/-- The length of the canonical LEB128 group is at most n exactly when n 7-bit places hold the value (R150). -/
theorem encGroupLeb128_length_le_iff (v : Word) {n : Nat} (hn : 1 ≤ n) :
    (encGroupLeb128 v).length ≤ n ↔ v.toNat < 2 ^ (7 * n) := by
  obtain ⟨m, rfl⟩ := Nat.exists_eq_add_of_le' hn
  rw [encGroupLeb128, leb128Bytes_length_le_iff, two_pow_seven_mul, or_iff_right_iff_imp]
  intro hm
  have hplaces : 128 ^ 10 ≤ 128 ^ (m + 1) := Nat.pow_le_pow_right (by norm_num) (Nat.succ_le_succ hm)
  exact v.isLt.trans_le (le_trans (by norm_num) hplaces)

/-- Settles O26: the length by the places that hold the value, and the bytes by the loop that writes them. -/
theorem leb128GroupBytes : Obligations.Leb128GroupBytes := by
  intro v g
  obtain ⟨hone, hten⟩ := encGroupLeb128_length v
  refine ⟨hone, hten, (encGroupLeb128_length_le_iff v hone).1 le_rfl, fun m hm hlt => ?_, fun j hj => ?_⟩
  · rw [← not_lt, ← encGroupLeb128_length_le_iff v hm, not_le]
    exact hlt
  · rw [two_pow_seven_mul]
    exact leb128Bytes_getElem? 9 j v.toNat (v.isLt.trans (by norm_num)) hj

/-- Settles O34: a canonical group is a group of its value, and each decoder reads every group of a value. -/
theorem canonicalGroupsReadBack : Obligations.CanonicalGroupsReadBack := by
  intro p v w _ readsBack
  refine ⟨fun hsrc => ?_, fun hsrc => ?_, fun T hT hsrc => ?_⟩
  · obtain ⟨w', hdec, hread⟩ := decGroupLeb128_ok p _ v w (canonical_leb128 v) hsrc
    exact ⟨w', hdec, hread.mem, hread.p⟩
  · exact ⟨_, decGroupPrefixVarint_ok p _ v w (canonical_prefix v) hsrc, advance_mem _ w, advance_p _ w⟩
  · obtain ⟨hgroup, -⟩ := canonical_bucket T hT v
    exact ⟨_, decGroupBucket_ok T p _ v w hgroup hsrc, advance_mem _ w, advance_p _ w⟩

end Sys2Proof.Machine
end

section
/-! PROOFS. The canonical PrefixVarint group (R170), and its length against LEB128's (R175). -/

namespace Sys2Proof.Machine

/-! ### PrefixVarint groups (R170, R175) -/

/-- The two forms of a canonical group: k bytes of value and tag, k the least length that holds the value, or 0xFF and
the eight bytes of a value that needs more than 56 bits (R170). -/
theorem encGroupPrefixVarint_cases (v : Word) :
    (∃ k, 1 ≤ k ∧ k ≤ 8 ∧ v.toNat < 2 ^ (7 * k) ∧ (∀ m, 1 ≤ m → m < k → 2 ^ (7 * m) ≤ v.toNat) ∧
      encGroupPrefixVarint v = bytesLE k (v.toNat * 2 ^ k + (2 ^ (k - 1) - 1))) ∨
    (2 ^ 56 ≤ v.toNat ∧ encGroupPrefixVarint v = 0xFF :: bytesLE 8 v.toNat) := by
  rw [encGroupPrefixVarint]
  cases hk : prefixLength 8 1 v.toNat with
  | some k =>
    obtain ⟨hone, hnine, hlt, hleast⟩ := prefixLength_eq_some 8 1 v.toNat k hk
    exact .inl ⟨k, hone, Nat.le_of_lt_succ hnine, hlt, hleast, by rw [← prefix_join v.toNat k hone]⟩
  | none => exact .inr ⟨prefixLength_eq_none 8 1 v.toNat hk 8 (by norm_num) (by norm_num), rfl⟩

/-- The k bytes of a group lose no bit of value and tag (R170). -/
theorem prefixCode_lt {v k : Nat} (hv : v < 2 ^ (7 * k)) : v * 2 ^ k + (2 ^ (k - 1) - 1) < 256 ^ k := by
  have htag : 2 ^ (k - 1) - 1 < 2 ^ k :=
    (Nat.sub_lt (by positivity) one_pos).trans_le (Nat.pow_le_pow_right (by norm_num) (Nat.sub_le k 1))
  calc v * 2 ^ k + (2 ^ (k - 1) - 1)
    _ < (v + 1) * 2 ^ k := by rw [Nat.succ_mul]; omega
    _ ≤ 2 ^ (7 * k) * 2 ^ k := Nat.mul_le_mul_right _ hv
    _ = 256 ^ k := by rw [two_pow_seven_mul, ← mul_pow]; norm_num

/-- As for LEB128 (`encGroupLeb128_length_le_iff`), but up to 8 bytes only: a group has at most n bytes exactly when n
7-bit places hold the value. -/
theorem encGroupPrefixVarint_length_le_iff (v : Word) {n : Nat} (hone : 1 ≤ n) (hmax : n ≤ 8) :
    (encGroupPrefixVarint v).length ≤ n ↔ v.toNat < 2 ^ (7 * n) := by
  obtain ⟨k, -, -, hlt, hleast, hgroup⟩ | ⟨hbig, hgroup⟩ := encGroupPrefixVarint_cases v
  · rw [hgroup, bytesLE_length]
    refine ⟨fun hkn => hlt.trans_le (Nat.pow_le_pow_right (by norm_num) (by omega)), fun hv => ?_⟩
    by_contra hnk
    exact absurd hv (hleast n hone (not_le.1 hnk)).not_gt
  · have hpow : 2 ^ (7 * n) ≤ 2 ^ 56 := Nat.pow_le_pow_right (by norm_num) (by omega)
    rw [hgroup, List.length_cons, bytesLE_length]
    omega

/-- R175 in one equation: PrefixVarint's group is LEB128's length, cut off at 9 bytes. -/
theorem encGroupPrefixVarint_length_eq_min (v : Word) :
    (encGroupPrefixVarint v).length = min 9 (encGroupLeb128 v).length := by
  obtain ⟨hpvPos, hpvNine⟩ := encGroupPrefixVarint_length v
  obtain ⟨hlebPos, -⟩ := encGroupLeb128_length v
  refine eq_of_forall_ge_iff fun n => ?_
  by_cases hn : 1 ≤ n ∧ n ≤ 8
  · obtain ⟨hone, hmax⟩ := hn
    have hnine : ¬ 9 ≤ n := by omega
    rw [min_le_iff, or_iff_right hnine, encGroupPrefixVarint_length_le_iff v hone hmax,
      encGroupLeb128_length_le_iff v hone]
  · omega

/-- Settles O28: the form of the group is the one its value asks for, and the bytes of the short form hold value and
tag. -/
theorem prefixVarintGroupBytes : Obligations.PrefixVarintGroupBytes := by
  intro v g
  obtain ⟨k, hone, hmax, hlt, hleast, hgroup⟩ | ⟨hbig, hgroup⟩ := encGroupPrefixVarint_cases v
  · have hlen : g.length = k := (congrArg List.length hgroup).trans (bytesLE_length k _)
    have hpow : 2 ^ (7 * k) ≤ 2 ^ 56 := Nat.pow_le_pow_right (by norm_num) (by omega)
    have hval : leNat g = v.toNat * 2 ^ k + (2 ^ (k - 1) - 1) :=
      (congrArg leNat hgroup).trans (leNat_bytesLE_of_lt k _ (prefixCode_lt hlt))
    rw [hlen]
    exact ⟨fun _ => ⟨hone, hmax, hlt, hleast, hval⟩,
      fun hbig => absurd (hlt.trans_le hpow) hbig.not_gt⟩
  · exact ⟨fun hsmall => absurd hsmall hbig.not_gt,
      fun _ => ⟨_, hgroup, bytesLE_length 8 _, leNat_bytesLE_of_lt 8 _ (v.isLt.trans_eq (by norm_num))⟩⟩

/-- Settles O29: the two lengths agree up to 9 bytes, and LEB128 takes its tenth from 2^63 on. -/
theorem prefixVarintNeverLongerThanLeb128 : Obligations.PrefixVarintNeverLongerThanLeb128 := by
  intro v
  have hmin := encGroupPrefixVarint_length_eq_min v
  have hleb := (encGroupLeb128_length v).2
  have hten := encGroupLeb128_length_eq_ten_iff v
  refine ⟨fun hsmall => ?_, fun hbig => ?_⟩
  · have hne : (encGroupLeb128 v).length ≠ 10 := fun h => absurd (hten.1 h) hsmall.not_ge
    omega
  · have hlen : (encGroupLeb128 v).length = 10 := hten.2 hbig
    exact ⟨by omega, hlen⟩

end Sys2Proof.Machine
end

section
/-! PROOFS. The canonical group of the bucket engine under any legal table (R194), and its length under the default
LESQLITE_TABLE (R198). -/

namespace Sys2Proof.Machine

/-! ### Bucket groups (R194, R198) -/

/-- R192 item 4 for the whole table: the Max values increase in table order. -/
theorem tableLegal_max_pairwise {T : List BucketRow} (hT : tableLegal T = true) :
    T.Pairwise fun r r' => r.max < r'.max := by
  simp only [tableLegal, Bool.and_eq_true] at hT
  obtain ⟨⟨⟨-, hord⟩, -⟩, -⟩ := hT
  exact ((tableOrdered_iff T).1 hord).imp And.right

/-- A row has at most 256 codes, so it can exceed a row's Max only with at least as many payload bytes: the reason why no
later row of a legal table has a shorter group (R194). -/
theorem bucketRow_p_le_of_max_lt {r r' : BucketRow} (hcodes : r'.hi ≤ 255) (hmax : r.max < r'.max) : r.p ≤ r'.p := by
  by_contra hlonger
  have hle : (r'.hi - r'.lo + 1) * 2 ^ (8 * r'.p) ≤ (r.hi - r.lo + 1) * 2 ^ (8 * r.p) :=
    calc (r'.hi - r'.lo + 1) * 2 ^ (8 * r'.p)
      _ ≤ 2 ^ 8 * 2 ^ (8 * r'.p) := Nat.mul_le_mul_right _ (by omega)
      _ = 2 ^ (8 + 8 * r'.p) := (pow_add 2 8 _).symm
      _ ≤ 2 ^ (8 * r.p) := Nat.pow_le_pow_right (by norm_num) (by omega)
      _ ≤ (r.hi - r.lo + 1) * 2 ^ (8 * r.p) := Nat.le_mul_of_pos_left _ (Nat.succ_pos _)
  rw [bucketRow_max_eq, bucketRow_max_eq] at hmax
  omega

/-- A value up to a row's Max selects one of the row's codes: "The first byte stays within lo_r..hi_r because
v ≤ Max(r)" (R194). -/
theorem bucketRow_code_le_hi {r : BucketRow} {v : Nat} (hlohi : r.lo ≤ r.hi) (hv : v ≤ r.max) :
    r.lo + v / 2 ^ (8 * r.p) ≤ r.hi := by
  have hsize : 0 < (r.hi - r.lo + 1) * 2 ^ (8 * r.p) := by positivity
  have hquot : v / 2 ^ (8 * r.p) < r.hi - r.lo + 1 := by
    rw [Nat.div_lt_iff_lt_mul (by positivity)]
    rw [bucketRow_max_eq] at hv
    omega
  omega

/-- The first byte of a group in a row loses no bit when the code is one of the row's. -/
theorem toNat_groupInRow_code {r : BucketRow} {v : Nat} (hcode : r.lo + v / 2 ^ (8 * r.p) ≤ r.hi) (hhi : r.hi ≤ 255) :
    (BitVec.ofNat 8 (r.lo + v >>> (8 * r.p))).toNat = r.lo + v / 2 ^ (8 * r.p) := by
  rw [Nat.shiftRight_eq_div_pow, BitVec.toNat_ofNat]
  exact Nat.mod_eq_of_lt (Nat.lt_of_le_of_lt (hcode.trans hhi) (by norm_num))

/-- The payload of a group in a row holds the low 8p bits of the value. -/
theorem leNat_groupInRow_payload (p v : Nat) : leNat (bytesLE p (v % 2 ^ (8 * p))) = v % 2 ^ (8 * p) := by
  refine leNat_bytesLE_of_lt p _ ((Nat.mod_lt v (by positivity)).trans_eq ?_)
  rw [pow_mul]
  norm_num

/-- Under a legal table the group of v is in a row that splits the table: Max is at least v there and less than v in every
row before it (R194). -/
theorem encGroupBucket_split {T : List BucketRow} (hT : tableLegal T = true) (v : Word) :
    ∃ r before after, T = before ++ r :: after ∧ v.toNat ≤ r.max ∧ (∀ r' ∈ before, r'.max < v.toNat) ∧
      encGroupBucket T v = groupInRow r v.toNat := by
  obtain ⟨r, hfind⟩ := bucket_find T hT v
  obtain ⟨hmax, before, after, hsplit, hbefore⟩ := List.find?_eq_some_iff_append.1 hfind
  refine ⟨r, before, after, hsplit, of_decide_eq_true hmax, fun r' hr' => ?_, by rw [encGroupBucket, hfind]⟩
  simpa using hbefore r' hr'

/-- Settles O30: the row is where the search for Max splits the table, and the Max values of the later rows bound their
payloads. -/
theorem bucketGroupBytes : Obligations.BucketGroupBytes := by
  intro T v hT
  obtain ⟨r, before, after, hsplit, hmax, hbefore, hgroup⟩ := encGroupBucket_split hT v
  obtain ⟨hlohi, hhi, -, -⟩ := row_legal_of_mem hT (r := r) (by simp [hsplit])
  have hcode := bucketRow_code_le_hi hlohi hmax
  have hbyte := toNat_groupInRow_code hcode hhi
  refine ⟨r, before, after, hsplit, hmax, hbefore, fun r' hr' => ?_, _, _, hgroup, bytesLE_length _ _,
    (Nat.le_add_right _ _).trans_eq hbyte.symm, hbyte.trans_le hcode, hbyte, leNat_groupInRow_payload _ _⟩
  have hlater : r.max < r'.max := by
    have hpair := tableLegal_max_pairwise hT
    rw [hsplit] at hpair
    exact List.rel_of_pairwise_cons (List.pairwise_append.1 hpair).2.1 hr'
  obtain ⟨-, hhi', -, -⟩ := row_legal_of_mem hT (r := r') (by simp [hsplit, hr'])
  exact bucketRow_p_le_of_max_lt hhi' hlater

/-- The length of a group row by row: the first row whose Max is at least v gives its payload and one byte (R194). -/
theorem encGroupBucket_length_cons (r : BucketRow) (T : List BucketRow) (v : Word) :
    (encGroupBucket (r :: T) v).length = if v.toNat ≤ r.max then r.p + 1 else (encGroupBucket T v).length := by
  by_cases h : v.toNat ≤ r.max
  · simp [encGroupBucket, h, groupInRow]
  · simp [encGroupBucket, h]

/-- The rows of the default LESQLITE_TABLE by their Max values (R197), the bounds at which the length changes. -/
theorem lesqliteDefault_length (v : Word) : (encGroupBucket lesqliteDefault v).length =
    if v.toNat ≤ 240 then 1 else if v.toNat ≤ 2047 then 2 else if v.toNat ≤ 65535 then 3
    else if v.toNat ≤ 2 ^ 24 - 1 then 4 else if v.toNat ≤ 2 ^ 40 - 1 then 6 else if v.toNat ≤ 2 ^ 56 - 1 then 8
    else if v.toNat ≤ 2 ^ 64 - 1 then 9 else 0 := by
  simp only [lesqliteDefault, encGroupBucket_length_cons]
  rfl

/-- Settles O31: the rows' Max values are the bounds, and every 64-bit value is within the last one. -/
theorem lesqliteGroupLengths : Obligations.LesqliteGroupLengths := by
  intro v
  have hlast : v.toNat ≤ 2 ^ 64 - 1 := Nat.le_sub_one_of_lt v.isLt
  rw [lesqliteDefault_length, if_pos hlast]
  simp only [Nat.le_sub_one_iff_lt, Nat.two_pow_pos]

end Sys2Proof.Machine
end

section
/-! PROOFS. The group lengths under the default LESQLITE2_TABLE (R221), and their comparison with LESQLITE's (R224). -/

namespace Sys2Proof.Machine

/-- The rows of the default LESQLITE2_TABLE by their Max values (R221), the bounds at which the length changes. -/
theorem lesqlite2Default_length (v : Word) : (encGroupBucket lesqlite2Default v).length =
    if v.toNat ≤ 191 then 1 else if v.toNat ≤ 12287 then 2 else if v.toNat ≤ 524287 then 3
    else if v.toNat ≤ 2 ^ 24 - 1 then 4 else if v.toNat ≤ 2 ^ 32 - 1 then 5 else if v.toNat ≤ 2 ^ 40 - 1 then 6
    else if v.toNat ≤ 2 ^ 48 - 1 then 7 else if v.toNat ≤ 2 ^ 56 - 1 then 8 else if v.toNat ≤ 2 ^ 64 - 1 then 9
    else 0 := by
  simp only [lesqlite2Default, encGroupBucket_length_cons]
  rfl

/-- Settles O32: the Max values of the two tables together cut the 64-bit values into twelve intervals, and within each
one both lengths and the range of R224 are fixed. -/
theorem lesqliteTablesCompared : Obligations.LesqliteTablesCompared := by
  intro v
  have hlast : v.toNat < 2 ^ 64 := v.isLt
  rw [lesqliteDefault_length, lesqlite2Default_length]
  generalize v.toNat = n at hlast ⊢
  have hinterval : n ≤ 191 ∨ 192 ≤ n ∧ n ≤ 240 ∨ 241 ≤ n ∧ n ≤ 2047 ∨ 2048 ≤ n ∧ n ≤ 12287 ∨
      12288 ≤ n ∧ n ≤ 65535 ∨ 65536 ≤ n ∧ n ≤ 524287 ∨ 524288 ≤ n ∧ n < 2 ^ 24 ∨ 2 ^ 24 ≤ n ∧ n < 2 ^ 32 ∨
      2 ^ 32 ≤ n ∧ n < 2 ^ 40 ∨ 2 ^ 40 ≤ n ∧ n < 2 ^ 48 ∨ 2 ^ 48 ≤ n ∧ n < 2 ^ 56 ∨ 2 ^ 56 ≤ n ∧ n < 2 ^ 64 := by
    omega
  obtain h | h | h | h | h | h | h | h | h | h | h | h := hinterval
  all_goals grind

end Sys2Proof.Machine
end

section
/-! PROOFS. The bytes of a NanoLog pair group (R241) and of a singleton group (R242). -/

namespace Sys2Proof.Machine

/-- The minimal bytes of a value lose no bit of it (R14, R135). -/
theorem leNat_bytesLE_byteLen (v : Nat) : leNat (bytesLE (byteLen v) v) = v :=
  leNat_bytesLE_of_lt _ v (lt_pow_byteLen v)

/-- The byte length of a 64-bit value, at most 8, fits a nibble (R135, R137). -/
theorem byteLen_word_le_nibble (v : Word) : byteLen v.toNat ≤ 15 := (byteLen_word_le v).trans (by norm_num)

/-- "Its length is 1 + la + lb, between 3 and 17" (R241). -/
theorem encPair_length_bounds (a b : Word) : 3 ≤ (encPair a b).length ∧ (encPair a b).length ≤ 17 := by
  have ha := byteLen_pos a.toNat
  have hb := byteLen_pos b.toNat
  have ha' := byteLen_word_le a
  have hb' := byteLen_word_le b
  rw [encPair_length]
  omega

/-- A singleton group has its header and 1 to 8 bytes of the value (R242). -/
theorem encSingle_length_bounds (pad : Nat) (a : Word) :
    2 ≤ (encSingle pad a).length ∧ (encSingle pad a).length ≤ 9 := by
  have ha := byteLen_pos a.toNat
  have ha' := byteLen_word_le a
  rw [encSingle_length]
  omega

/-- Settles O33: both lengths and the pad fit a nibble, so the header keeps them, and the minimal bytes keep the
values. -/
theorem nanologGroupBytes : Obligations.NanologGroupBytes := by
  refine ⟨fun a b => ?pair, fun pad a hpad => ?single⟩
  case pair =>
    have ha := byteLen_word_le_nibble a
    have hb := byteLen_word_le_nibble b
    exact ⟨_, _, _, rfl, hiNib_packNibbles _ _ ha hb, loNib_packNibbles _ _ ha hb, bytesLE_length _ _,
      bytesLE_length _ _, leNat_bytesLE_byteLen _, leNat_bytesLE_byteLen _, encPair_length_bounds a b⟩
  case single =>
    have ha := byteLen_word_le_nibble a
    exact ⟨_, _, rfl, hiNib_packNibbles _ _ ha hpad, loNib_packNibbles _ _ ha hpad, bytesLE_length _ _,
      leNat_bytesLE_byteLen _, encSingle_length_bounds pad a⟩

end Sys2Proof.Machine
end

section
/-! PROOFS. The turn of an idle engine (R292, R311). -/

namespace Sys2Proof.Machine

/-- The idle engine does nothing in its turn (R292; log 20). -/
theorem engineTurn_idle {s : State} (hidle : s.eng.phase = .idle) : engineTurn s = .next s := by
  simp only [engineTurn, hidle]

/-- Settles O56: the schedule names the engine, and taking that turn leaves its phase idle. -/
theorem idleEngineTakesNoStep : Obligations.IdleEngineTakesNoStep := by
  intro s rest hl hidle hturns
  have hphase : ({ s with turns := rest } : State).eng.phase = .idle := hidle
  calc step s
    _ = engineTurn { s with turns := rest } := by rw [step_eq s hl, hturns]; rfl
    _ = .next { s with turns := rest } := engineTurn_idle hphase

end Sys2Proof.Machine
end
